-- ==== Sys2Proof/Word.lean ====
section
/-! DEFINITION. Word.lean: the two word types of MBPDU (spec/00_scope.md R5, R7). Every number of the block is
unsigned (R7); a bit vector is used exactly where the spec gives a width. -/

namespace Sys2Proof

/-- One byte of a PDU (R22: "A byte is 8 bits"). -/
abbrev Byte := BitVec 8

/-- An address, a quantity, a register value or a count: "an unsigned number of 16 bits" (R21; `ADDR_W`, `QTY_W`,
`VAL_W`, `COUNT_W` of R5). -/
abbrev U16 := BitVec 16

end Sys2Proof
end

