-- ==== Sys2Proof/Config.lean ====
section
/-! DEFINITION. Config.lean: the open parameters of the block (spec/00_scope.md R5, spec/10_state.md R28,
spec/20_memory.md R64) and the values the spec leaves open (R33, U6, U7), which are constants without a body. The
fixed constants of R5 (`COIL_ON`, `COIL_OFF`, `MAX_BYTE_COUNT`) stand in Machine/Operands.lean. -/

namespace Sys2Proof

/-- The configuration of one instance of the block: the two OPEN parameters of R5. `PREVALIDATE` is fixed `false`
(R5, R129, U9) and so is no field. -/
structure Config where
  /-- `CFG.LEGACY_BYTE_COUNT` (R28, R90): `false` is the exact ceiling, `true` is `floor(n/8) + 1`. -/
  legacyByteCount : Bool
  /-- `CAP` of `ENC_IN` (R64): `some c` holds at most `c` tokens; `none` is the unbounded channel that R64 permits. -/
  capEncIn : Option Nat
  /-- `CAP` of `ENC_OUT` (R64). -/
  capEncOut : Option Nat
  /-- `CAP` of `DEC_IN` (R64). -/
  capDecIn : Option Nat
  /-- `CAP` of `DEC_OUT` (R64). -/
  capDecOut : Option Nat
  deriving DecidableEq, Repr

/-- R28: the default of `CFG.LEGACY_BYTE_COUNT` is 0. R64: "A model may take every channel as unbounded": the default
capacities of the model (DESIGN CHOICE, notes/assumptions/2.md). -/
def Config.default : Config :=
  { legacyByteCount := false, capEncIn := none, capEncOut := none, capDecIn := none, capDecOut := none }

/-- R5: "`CAP` ... any natural number at least 1, possibly different per channel". -/
def capOk : Option Nat → Bool
  | none => true
  | some c => decide (1 ≤ c)

/-- R5: every channel's capacity is legal. -/
def Config.wf (c : Config) : Bool :=
  capOk c.capEncIn && capOk c.capEncOut && capOk c.capDecIn && capOk c.capDecOut

/-- FREE VALUE. What the `k`-th register that a reset leaves unspecified holds (R33: "unspecified"; R230: "keeps or
loses its value, unspecified"; U7). It has no body: nothing is known of it (notes/assumptions/4.md). -/
opaque Config.unspecifiedRegister : Nat → BitVec 16

/-- FREE VALUE. What a wire carries while the spec says it is not sampled or has no meaning (R97, R104, U6). It has no
body; only Machine/Pins.lean uses it (notes/assumptions/9.md). -/
opaque Config.unsampledWire : Nat → BitVec 16

end Sys2Proof
end

