-- ==== Sys2Proof/Syntax.lean ====
section
/-! DEFINITION. Syntax.lean: the data model of the block (spec/10_state.md R20 to R23), its instructions (one
constructor per row of spec/opcode_table.json), and the tokens of its four channels (spec/30_encoding.md R94 to R97). -/

namespace Sys2Proof

/-- R2: the two units of the block. -/
inductive CodecUnit
  | enc
  | dec
  deriving DecidableEq, Repr

/-- R20, R81: the eight function codes. -/
inductive FunctionCode
  | readCoils
  | readDiscreteInputs
  | readHoldingRegisters
  | readInputRegisters
  | writeSingleCoil
  | writeSingleRegister
  | writeMultipleCoils
  | writeMultipleRegisters
  deriving DecidableEq, Repr

/-- R21: a request, one constructor per function code, with the field names of the spec's table. -/
inductive Request
  | readCoils (startAddr quantity : U16)
  | readDiscreteInputs (startAddr quantity : U16)
  | readHoldingRegisters (startAddr quantity : U16)
  | readInputRegisters (startAddr quantity : U16)
  | writeSingleCoil (addr : U16) (value : Bool)
  | writeSingleRegister (addr value : U16)
  | writeMultipleCoils (startAddr : U16) (values : List Bool)
  | writeMultipleRegisters (startAddr : U16) (values : List U16)
  deriving DecidableEq, Repr

/-- The instructions of MBPDU, one constructor per row of spec/opcode_table.json: the eight ENC operations with the
operands of R21 and R101, and the two DEC formats of R85 and R86. An instruction is one transaction (spec/00_scope.md,
glossary): a request with all its values, or a response PDU of at least 2 bytes. -/
inductive Instr
  /-- Function code 1 (R140). -/
  | readCoils (startAddr quantity : U16)
  /-- Function code 2 (R141). -/
  | readDiscreteInputs (startAddr quantity : U16)
  /-- Function code 3 (R142). -/
  | readHoldingRegisters (startAddr quantity : U16)
  /-- Function code 4 (R143). -/
  | readInputRegisters (startAddr quantity : U16)
  /-- Function code 5 (R150). -/
  | writeSingleCoil (addr : U16) (value : Bool)
  /-- Function code 6 (R151). -/
  | writeSingleRegister (addr value : U16)
  /-- Function code 15 (R160). -/
  | writeMultipleCoils (startAddr : U16) (values : List Bool)
  /-- Function code 16 (R164). -/
  | writeMultipleRegisters (startAddr : U16) (values : List U16)
  /-- `decode_response` of an exception response (R85): byte 0 is `1 fc`, byte 1 is `code`, and `extra` are the bytes
  at index 2 and up, which DEC ignores (R183). -/
  | decodeResponseExc (fc : BitVec 7) (code : Byte) (extra : List Byte)
  /-- `decode_response` of a normal response (R86): byte 0 is `fc` (bit 7 clear), bytes 1 and up are `payload`. -/
  | decodeResponseNrm (fc : Byte) (payload : List Byte)
  deriving DecidableEq, Repr

/-- R23, R203, R204: the two faults of ENC. -/
inductive EncFaultCode
  /-- `ENC_ILLEGAL_FUNCTION`. -/
  | illegalFunction
  /-- `ENC_OVERFLOW`. -/
  | overflow
  deriving DecidableEq, Repr

/-- R23: the result of `encode`. -/
inductive EncResult
  | pdu (bytes : List Byte)
  | encFault (code : EncFaultCode)
  deriving DecidableEq, Repr

/-- R23, R181: the classes of a decoded exception response. -/
inductive ErrClass
  | illegalDataAddress
  | illegalDataValue
  | serverDeviceFailure
  | unknownModbusException
  deriving DecidableEq, Repr

/-- R23: the result of `decode`. -/
inductive DecResult
  | malformed
  | normal (fc : Byte) (payload : List Byte)
  | exception (fc : BitVec 7) (code : Byte) (cls : ErrClass)
  deriving DecidableEq, Repr

/-- Tokens of `ENC_IN`: the command token `C(fc, addr, arg)` (R94) and the value token `V(v)` (R95). -/
inductive EncIn
  | c (fc : Byte) (addr arg : U16)
  | v (value : U16)
  deriving DecidableEq, Repr

/-- Tokens of `ENC_OUT` (R96): `B(b, last)` and `F(code)`. -/
inductive EncOut
  | b (byte : Byte) (last : Bool)
  | f (code : BitVec 2)
  deriving DecidableEq, Repr

/-- Tokens of `DEC_IN` (R96): `B(b, last)` and `EMPTY`. -/
inductive DecIn
  | b (byte : Byte) (last : Bool)
  | empty
  deriving DecidableEq, Repr

/-- Tokens of `DEC_OUT` (R97): `RES(kind, fc, code, class)` as the sum type of R23, in which the fields "with no
meaning" do not exist. `fc` has the 8 bits of the token's field. -/
inductive DecOut
  | normal (fc : Byte)
  | exception (fc code : Byte) (cls : ErrClass)
  | malformed
  deriving DecidableEq, Repr

/-- What the host lays before the block: a token sequence for `ENC_IN` or one for `DEC_IN` (R244). -/
inductive Stream
  | enc (tokens : List EncIn)
  | dec (tokens : List DecIn)
  deriving DecidableEq, Repr

/-- The unit that runs an instruction (R2, R103). -/
def Instr.codecUnit : Instr → CodecUnit
  | .decodeResponseExc _ _ _ => .dec
  | .decodeResponseNrm _ _ => .dec
  | .readCoils _ _ => .enc
  | .readDiscreteInputs _ _ => .enc
  | .readHoldingRegisters _ _ => .enc
  | .readInputRegisters _ _ => .enc
  | .writeSingleCoil _ _ => .enc
  | .writeSingleRegister _ _ => .enc
  | .writeMultipleCoils _ _ => .enc
  | .writeMultipleRegisters _ _ => .enc

/-- The instruction that carries out a request. -/
def Request.toInstr : Request → Instr
  | .readCoils a q => .readCoils a q
  | .readDiscreteInputs a q => .readDiscreteInputs a q
  | .readHoldingRegisters a q => .readHoldingRegisters a q
  | .readInputRegisters a q => .readInputRegisters a q
  | .writeSingleCoil a v => .writeSingleCoil a v
  | .writeSingleRegister a v => .writeSingleRegister a v
  | .writeMultipleCoils a vs => .writeMultipleCoils a vs
  | .writeMultipleRegisters a vs => .writeMultipleRegisters a vs

/-- The request of an ENC instruction; a DEC instruction is none. -/
def Instr.request : Instr → Option Request
  | .readCoils a q => some (.readCoils a q)
  | .readDiscreteInputs a q => some (.readDiscreteInputs a q)
  | .readHoldingRegisters a q => some (.readHoldingRegisters a q)
  | .readInputRegisters a q => some (.readInputRegisters a q)
  | .writeSingleCoil a v => some (.writeSingleCoil a v)
  | .writeSingleRegister a v => some (.writeSingleRegister a v)
  | .writeMultipleCoils a vs => some (.writeMultipleCoils a vs)
  | .writeMultipleRegisters a vs => some (.writeMultipleRegisters a vs)
  | .decodeResponseExc _ _ _ => none
  | .decodeResponseNrm _ _ => none

end Sys2Proof
end

