-- ==== Sys2Proof/Machine/Operands.lean ====
section
/-! DEFINITION. Machine/Operands.lean: field assembly (spec/30_encoding.md part 2, R81, R87 to R92): the big-endian
split, the coil values, the coil packing, the byte counts, and the numbers of the codes the tokens carry. -/

namespace Sys2Proof

/-! ## Constants of R5 -/

/-- `COIL_ON` (R5, R88): the value field that encodes `true` in function 5. The spec's constant is `0xFFFF`, whatever is
known of Modbus from elsewhere (G1). -/
def coilOn : U16 := 0xFFFF

/-- `COIL_OFF` (R5, R88). -/
def coilOff : U16 := 0x0000

/-- `MAX_BYTE_COUNT` (R5): the largest byte_count the block encodes. -/
def maxByteCount : Nat := 255

/-! ## Function codes (R20, R81) -/

/-- The value of a function code: the `fc` field of the command token and byte 0 of the PDU (R81). -/
def FunctionCode.value : FunctionCode → Byte
  | .readCoils => 0x01
  | .readDiscreteInputs => 0x02
  | .readHoldingRegisters => 0x03
  | .readInputRegisters => 0x04
  | .writeSingleCoil => 0x05
  | .writeSingleRegister => 0x06
  | .writeMultipleCoils => 0x0F
  | .writeMultipleRegisters => 0x10

/-- R98, R103: the function code an `fc` field selects (all 8 bits, mask `0xFF`); none for the 248 illegal values. -/
def functionCodeOf (fc : Byte) : Option FunctionCode :=
  if fc = 0x01 then some .readCoils
  else if fc = 0x02 then some .readDiscreteInputs
  else if fc = 0x03 then some .readHoldingRegisters
  else if fc = 0x04 then some .readInputRegisters
  else if fc = 0x05 then some .writeSingleCoil
  else if fc = 0x06 then some .writeSingleRegister
  else if fc = 0x0F then some .writeMultipleCoils
  else if fc = 0x10 then some .writeMultipleRegisters
  else none

/-! ## Bytes of a 16-bit field (R7, R51, R87) -/

/-- `v[15:8]`. -/
def hiByte (v : U16) : Byte := v.extractLsb' 8 8

/-- `v[7:0]`. -/
def loByte (v : U16) : Byte := v.extractLsb' 0 8

/-- R87: `be16(v) = [v[15:8], v[7:0]]`. -/
def be16 (v : U16) : List Byte := [hiByte v, loByte v]

/-- The 16-bit field whose two bytes are `hi`, `lo` (the inverse of `be16`). -/
def word16 (hi lo : Byte) : U16 := hi ++ lo

/-! ## Coil values -/

/-- R88: the coil value of function 5 widened to 16 bits. -/
def coilWord (v : Bool) : U16 := if v then coilOn else coilOff

/-- The coil value a function 5 value field encodes; none for a field ENC never emits (R82, R88). -/
def coilOfWord (w : U16) : Option Bool :=
  if w = coilOn then some true else if w = coilOff then some false else none

/-- R94, R95: a coil in a token is 0 or 1. -/
def coilArg (v : Bool) : U16 := if v then 1 else 0

/-- R94, R95: the coil a token's 16 bits carry; none for 2 to 65535, which are outside the input set (U4). -/
def coilOfArg (arg : U16) : Option Bool :=
  if arg = 0 then some false else if arg = 1 then some true else none

/-! ## Coil packing (R52, R89, R90, R92) -/

/-- One coil as 0 or 1 in a byte. -/
def coilBit (v : Bool) : Byte := if v then 1 else 0

/-- R89: `pack(vs)[j]`, the byte whose bit `k` is coil `8j + k` if there is one, else 0. -/
def packedByte (vs : List Bool) (j : Nat) : Byte :=
  (List.range 8).foldl (fun byte k => byte ||| (coilBit (vs.getD (8 * j + k) false) <<< k)) 0

/-- R89: the coil packing, `ceil(n/8)` bytes, least significant bit first. -/
def pack (vs : List Bool) : List Byte :=
  (List.range ((vs.length + 7) / 8)).map (packedByte vs)

/-- R92: the inverse bit extraction; element `i` is `(bytes[floor(i/8)] >> (i mod 8)) & 1`. -/
def unpack (bytes : List Byte) (n : Nat) : List Bool :=
  (List.range n).map (fun i => (bytes.getD (i / 8) 0).getLsbD (i % 8))

/-- R90: the byte count of function 15, on natural numbers; `legacy` is `CFG.LEGACY_BYTE_COUNT`. -/
def byteCount15 (legacy : Bool) (n : Nat) : Nat :=
  if legacy then n / 8 + 1 else (n + 7) / 8

/-- R91: the byte count of function 16, on natural numbers. -/
def byteCount16 (m : Nat) : Nat := 2 * m

/-- R90: the "one extra, always-zero trailing byte" of the legacy setting, due when 8 divides the coil count. -/
def legacyPad (legacy : Bool) (n : Nat) : List Byte :=
  if legacy && decide (n % 8 = 0) then [0] else []

/-- R90: the packed field of a function 15 PDU. -/
def packed15 (legacy : Bool) (vs : List Bool) : List Byte := pack vs ++ legacyPad legacy vs.length

/-! ## Numbers of codes -/

/-- R96, R200: the code of an `F` token and of `ENC.FLT`. -/
def EncFaultCode.number : EncFaultCode → BitVec 2
  | .illegalFunction => 1
  | .overflow => 2

/-- R97: the `class` field of an `EXCEPTION` result. -/
def ErrClass.number : ErrClass → BitVec 2
  | .unknownModbusException => 0
  | .illegalDataAddress => 1
  | .illegalDataValue => 2
  | .serverDeviceFailure => 3

end Sys2Proof
end

