-- ==== Sys2Proof/Machine/Flags.lean ====
section
/-! DEFINITION. Machine/Flags.lean: the block has no status flags, condition codes or sticky fault bits (spec/10_state.md
R29). The one-bit conditions its rules compute stand here: the overflow tests of ENC, the `last` mark of a byte token,
the exception bit and the error class of DEC. -/

namespace Sys2Proof

/-- R163: `bytecount15(n) > 255`. -/
def overflow15 (legacy : Bool) (n : Nat) : Bool := decide (maxByteCount < byteCount15 legacy n)

/-- R166: `2 * M > 255`. -/
def overflow16 (m : Nat) : Bool := decide (maxByteCount < byteCount16 m)

/-- R122: `last = (IDX = LEN - 1)`, on natural numbers. -/
def lastByte (idx len : BitVec 9) : Bool := decide (idx.toNat + 1 = len.toNat)

/-- R180: `(byte0 & 0x80) != 0`. -/
def exceptionBit (byte0 : Byte) : Bool := byte0.msb

/-- R180: the clear function code, `byte0 & 0x7F`, as the 7 bits it has (R23). -/
def clearCode (byte0 : Byte) : BitVec 7 := byte0.setWidth 7

/-- R181, R182: the class of an error code. -/
def classify (code : Byte) : ErrClass :=
  if code = 2 then .illegalDataAddress
  else if code = 3 then .illegalDataValue
  else if code = 4 then .serverDeviceFailure
  else .unknownModbusException

end Sys2Proof
end

