-- ==== Sys2Proof/WellFormed.lean ====
section
/-! DEFINITION. WellFormed.lean: which terms of `Instr` are instructions of the block. The types enforce most of R21 and
R23; the checks here are what the types cannot say. -/

namespace Sys2Proof

/-- R21, U12: "a list longer than 65535 cannot be presented to the hardware at all". -/
def countOk (n : Nat) : Bool := decide (n ≤ 65535)

/-- R23, R86: a normal response's function-code byte has bit 7 clear. -/
def normalCodeOk (fc : Byte) : Bool := !fc.msb

/-- R86, R180: a frame that is classed normal has at least 2 bytes, so its payload has at least one. -/
def payloadOk (payload : List Byte) : Bool := !payload.isEmpty

/-- The well-formed instructions. -/
def WellFormed : Instr → Bool
  | .readCoils _ _ => true
  | .readDiscreteInputs _ _ => true
  | .readHoldingRegisters _ _ => true
  | .readInputRegisters _ _ => true
  | .writeSingleCoil _ _ => true
  | .writeSingleRegister _ _ => true
  | .writeMultipleCoils _ vs => countOk vs.length
  | .writeMultipleRegisters _ vs => countOk vs.length
  | .decodeResponseExc _ _ _ => true
  | .decodeResponseNrm fc payload => normalCodeOk fc && payloadOk payload

/-- The well-formed requests (R21, U12). -/
def Request.wf (r : Request) : Bool := WellFormed r.toInstr

end Sys2Proof
end

