-- ==== Sys2Proof/Decode.lean ====
section
/-! DEFINITION. Decode.lean: reading an instruction, total on any bytes and on any tokens, every rejection by name; after
it the encoder, written from the same formats (spec/30_encoding.md R82 to R86, R93 to R96, R103). An instruction has two
encodings: the PDU bytes of the opcode table, and the tokens that carry it to the block (R94 to R96). -/

namespace Sys2Proof

/-- Why bytes or tokens are no instruction. -/
inductive Reject
  /-- The bytes or tokens end inside the instruction. -/
  | tooShort
  /-- Byte 0, or the `fc` field, is none of the eight function codes (R98). -/
  | illegalFunctionCode (fc : Byte)
  /-- The value field of function 5 is neither `COIL_ON` nor `COIL_OFF` (R82, R88). -/
  | coilWord (w : U16)
  /-- The byte_count field fits neither form of R90, or is not `2M` (R84). -/
  | byteCount (field : Byte)
  /-- A bit of the packed field beyond the coil count is not 0 (R83, R89). -/
  | padding
  /-- A coil in a token is not 0 or 1 (R94, R95, U4). -/
  | coilToken (v : U16)
  /-- A value token stands where a command token is due (R65). -/
  | valueToken
  /-- A command token stands where a value token is due (R65). -/
  | commandToken
  /-- A frame of 0 or 1 bytes: `decode_response` gives `Malformed` and no row of the table matches (R103, R180). -/
  | malformedFrame
  /-- `EMPTY` inside a frame (R66, R236). -/
  | emptyInFrame
  deriving DecidableEq, Repr

/-! ## From bytes -/

/-- The first `n` 16-bit big-endian fields, and the bytes after them. -/
def takeWords : Nat → List Byte → Option (List U16 × List Byte)
  | 0, bs => some ([], bs)
  | n + 1, hi :: lo :: bs => (takeWords n bs).map (fun r => (word16 hi lo :: r.1, r.2))
  | _ + 1, [_] => none
  | _ + 1, [] => none

/-- R83, R90, R93: the packed field of a `WMC` PDU with coil count `n` and byte_count `bc`, under either setting. -/
def decodeCoils (a : U16) (n : Nat) (bc : Byte) (data : List Byte) : Except Reject (Instr × List Byte) :=
  if bc.toNat = byteCount15 false n ∨ bc.toNat = byteCount15 true n then
    if (data.take bc.toNat).length < bc.toNat then .error .tooShort
    else
      let vs := unpack data n
      if data.take bc.toNat = pack vs ++ List.replicate (bc.toNat - (n + 7) / 8) 0 then
        .ok (.writeMultipleCoils a vs, data.drop bc.toNat)
      else .error .padding
  else .error (.byteCount bc)

/-- R84, R93: the register field of a `WMR` PDU with register count `m` and byte_count `bc`. -/
def decodeRegisters (a : U16) (m : Nat) (bc : Byte) (data : List Byte) : Except Reject (Instr × List Byte) :=
  if bc.toNat = byteCount16 m then
    match takeWords m data with
    | some (vs, rest) => .ok (.writeMultipleRegisters a vs, rest)
    | none => .error .tooShort
  else .error (.byteCount bc)

/-- The request PDU at the head of `bs` and the bytes after it (R93: "A reader of a request PDU tells its length from
byte 0 and, for codes 15 and 16, from byte 5"). -/
def decodeRequest (bs : List Byte) : Except Reject (Instr × List Byte) :=
  match bs with
  | code :: f1h :: f1l :: f2h :: f2l :: rest =>
    let f1 := word16 f1h f1l
    let f2 := word16 f2h f2l
    match functionCodeOf code with
    | some .readCoils => .ok (.readCoils f1 f2, rest)
    | some .readDiscreteInputs => .ok (.readDiscreteInputs f1 f2, rest)
    | some .readHoldingRegisters => .ok (.readHoldingRegisters f1 f2, rest)
    | some .readInputRegisters => .ok (.readInputRegisters f1 f2, rest)
    | some .writeSingleCoil =>
      match coilOfWord f2 with
      | some v => .ok (.writeSingleCoil f1 v, rest)
      | none => .error (.coilWord f2)
    | some .writeSingleRegister => .ok (.writeSingleRegister f1 f2, rest)
    | some .writeMultipleCoils =>
      match rest with
      | bc :: data => decodeCoils f1 f2.toNat bc data
      | [] => .error .tooShort
    | some .writeMultipleRegisters =>
      match rest with
      | bc :: data => decodeRegisters f1 f2.toNat bc data
      | [] => .error .tooShort
    | none => .error (.illegalFunctionCode code)
  | _ => .error .tooShort

/-- The `decode_response` instruction of a whole frame (R85, R86, R103). -/
def decodeFrame : List Byte → Except Reject Instr
  | b0 :: b1 :: rest =>
    if exceptionBit b0 then .ok (.decodeResponseExc (clearCode b0) b1 rest)
    else .ok (.decodeResponseNrm b0 (b1 :: rest))
  | [_] => .error .malformedFrame
  | [] => .error .malformedFrame

/-! ## From tokens -/

/-- `n` coils in value tokens, and the tokens after them (R95). -/
def takeCoils : Nat → List EncIn → Except Reject (List Bool × List EncIn)
  | 0, ts => .ok ([], ts)
  | n + 1, .v x :: ts =>
    match coilOfArg x with
    | some v => (takeCoils n ts).map (fun r => (v :: r.1, r.2))
    | none => .error (.coilToken x)
  | _ + 1, .c _ _ _ :: _ => .error .commandToken
  | _ + 1, [] => .error .tooShort

/-- `n` registers in value tokens, and the tokens after them (R95). -/
def takeRegisters : Nat → List EncIn → Except Reject (List U16 × List EncIn)
  | 0, ts => .ok ([], ts)
  | n + 1, .v x :: ts => (takeRegisters n ts).map (fun r => (x :: r.1, r.2))
  | _ + 1, .c _ _ _ :: _ => .error .commandToken
  | _ + 1, [] => .error .tooShort

/-- The well-formed command (R65, R94) at the head of `ENC_IN`, with all its value tokens, and the tokens after it. -/
def decodeCommand : List EncIn → Except Reject (Instr × List EncIn)
  | .c fc addr arg :: ts =>
    match functionCodeOf fc with
    | some .readCoils => .ok (.readCoils addr arg, ts)
    | some .readDiscreteInputs => .ok (.readDiscreteInputs addr arg, ts)
    | some .readHoldingRegisters => .ok (.readHoldingRegisters addr arg, ts)
    | some .readInputRegisters => .ok (.readInputRegisters addr arg, ts)
    | some .writeSingleCoil =>
      match coilOfArg arg with
      | some v => .ok (.writeSingleCoil addr v, ts)
      | none => .error (.coilToken arg)
    | some .writeSingleRegister => .ok (.writeSingleRegister addr arg, ts)
    | some .writeMultipleCoils => (takeCoils arg.toNat ts).map (fun r => (.writeMultipleCoils addr r.1, r.2))
    | some .writeMultipleRegisters => (takeRegisters arg.toNat ts).map (fun r => (.writeMultipleRegisters addr r.1, r.2))
    | none => .error (.illegalFunctionCode fc)
  | .v _ :: _ => .error .valueToken
  | [] => .error .tooShort

/-- The bytes of the frame at the head of `DEC_IN` (R66) and the tokens after it. -/
def takeFrame : List DecIn → Except Reject (List Byte × List DecIn)
  | .b x true :: ts => .ok ([x], ts)
  | .b x false :: ts => (takeFrame ts).map (fun r => (x :: r.1, r.2))
  | .empty :: _ => .error .emptyInFrame
  | [] => .error .tooShort

/-- The response at the head of `DEC_IN`, as an instruction, and the tokens after it. -/
def decodeResponseTokens : List DecIn → Except Reject (Instr × List DecIn)
  | .empty :: _ => .error .malformedFrame
  | .b x last :: ts =>
    match takeFrame (.b x last :: ts) with
    | .ok (frame, rest) => (decodeFrame frame).map (fun i => (i, rest))
    | .error e => .error e
  | [] => .error .tooShort

/-- Decoding what the host has laid before a unit: the instruction at the head, and what is left. -/
def decode : Stream → Except Reject (Instr × Stream)
  | .enc ts => (decodeCommand ts).map (fun r => (r.1, .enc r.2))
  | .dec ts => (decodeResponseTokens ts).map (fun r => (r.1, .dec r.2))

/-! ## The encoder: bytes -/

/-- R82: format `RQ5`. -/
def rq5Bytes (code : FunctionCode) (f1 f2 : U16) : List Byte := code.value :: be16 f1 ++ be16 f2

/-- R83: format `WMC`. -/
def wmcBytes (legacy : Bool) (a : U16) (vs : List Bool) : List Byte :=
  FunctionCode.writeMultipleCoils.value :: be16 a ++ be16 (BitVec.ofNat 16 vs.length)
    ++ [BitVec.ofNat 8 (byteCount15 legacy vs.length)] ++ packed15 legacy vs

/-- R84: format `WMR`. -/
def wmrBytes (a : U16) (vs : List U16) : List Byte :=
  FunctionCode.writeMultipleRegisters.value :: be16 a ++ be16 (BitVec.ofNat 16 vs.length)
    ++ [BitVec.ofNat 8 (byteCount16 vs.length)] ++ vs.flatMap be16

/-- The bytes of an instruction: its request PDU (R82 to R84) or its response frame (R85, R86). A multiple write whose
byte_count does not fit its byte has no PDU (R163, R166). -/
def Instr.bytes (legacy : Bool) : Instr → Option (List Byte)
  | .readCoils a q => some (rq5Bytes .readCoils a q)
  | .readDiscreteInputs a q => some (rq5Bytes .readDiscreteInputs a q)
  | .readHoldingRegisters a q => some (rq5Bytes .readHoldingRegisters a q)
  | .readInputRegisters a q => some (rq5Bytes .readInputRegisters a q)
  | .writeSingleCoil a v => some (rq5Bytes .writeSingleCoil a (coilWord v))
  | .writeSingleRegister a v => some (rq5Bytes .writeSingleRegister a v)
  | .writeMultipleCoils a vs => if overflow15 legacy vs.length then none else some (wmcBytes legacy a vs)
  | .writeMultipleRegisters a vs => if overflow16 vs.length then none else some (wmrBytes a vs)
  | .decodeResponseExc fc code extra => some (((1 : BitVec 1) ++ fc : BitVec 8) :: code :: extra)
  | .decodeResponseNrm fc payload => some (fc :: payload)

/-! ## The encoder: tokens -/

/-- R94: the tokens of a request: one command token, then the value tokens of functions 15 and 16. -/
def Request.tokens : Request → List EncIn
  | .readCoils a q => [.c FunctionCode.readCoils.value a q]
  | .readDiscreteInputs a q => [.c FunctionCode.readDiscreteInputs.value a q]
  | .readHoldingRegisters a q => [.c FunctionCode.readHoldingRegisters.value a q]
  | .readInputRegisters a q => [.c FunctionCode.readInputRegisters.value a q]
  | .writeSingleCoil a v => [.c FunctionCode.writeSingleCoil.value a (coilArg v)]
  | .writeSingleRegister a v => [.c FunctionCode.writeSingleRegister.value a v]
  | .writeMultipleCoils a vs =>
    .c FunctionCode.writeMultipleCoils.value a (BitVec.ofNat 16 vs.length) :: vs.map (fun v => .v (coilArg v))
  | .writeMultipleRegisters a vs =>
    .c FunctionCode.writeMultipleRegisters.value a (BitVec.ofNat 16 vs.length) :: vs.map .v

/-- R66, R96: the tokens of a frame's bytes, `last` true exactly on the final byte. -/
def byteTokens : List Byte → List DecIn
  | [] => []
  | [x] => [.b x true]
  | x :: y :: bs => .b x false :: byteTokens (y :: bs)

/-- R66, R96: the tokens of a frame; the frame of no bytes is `EMPTY`. -/
def frameTokens : List Byte → List DecIn
  | [] => [.empty]
  | x :: bs => byteTokens (x :: bs)

/-- The encoder: the tokens that carry an instruction to its unit. -/
def encode : Instr → Stream
  | .readCoils a q => .enc (Request.readCoils a q).tokens
  | .readDiscreteInputs a q => .enc (Request.readDiscreteInputs a q).tokens
  | .readHoldingRegisters a q => .enc (Request.readHoldingRegisters a q).tokens
  | .readInputRegisters a q => .enc (Request.readInputRegisters a q).tokens
  | .writeSingleCoil a v => .enc (Request.writeSingleCoil a v).tokens
  | .writeSingleRegister a v => .enc (Request.writeSingleRegister a v).tokens
  | .writeMultipleCoils a vs => .enc (Request.writeMultipleCoils a vs).tokens
  | .writeMultipleRegisters a vs => .enc (Request.writeMultipleRegisters a vs).tokens
  | .decodeResponseExc fc code extra => .dec (frameTokens (((1 : BitVec 1) ++ fc : BitVec 8) :: code :: extra))
  | .decodeResponseNrm fc payload => .dec (frameTokens (fc :: payload))

/-! ## The opcode table's words -/

/-- The first `k` bytes of an instruction whose bits are `w`: byte 0 is the least significant (opcode_table.json numbers
bit 0 as bit 0 of byte 0, and the table's patterns put byte 0 first, R82). -/
def wordBytes : Nat → Nat → List Byte
  | 0, _ => []
  | k + 1, w => BitVec.ofNat 8 w :: wordBytes k (w >>> 8)

/-- The longest request PDU the block encodes (R26, R121): 6 + 255 bytes. -/
def maxPduBytes : Nat := 261

/-- The instruction of a table row's bits. A first byte that is one of the eight function codes selects ENC (R103's ENC
rows), any other byte a response frame for DEC (its EXC and NRM rows), whose length is the row's own, at least the 2 bytes
of R85 and R86 (DESIGN CHOICE, notes/assumptions/8.md). -/
def decodeTableWord (nbits w : Nat) : Option Instr :=
  let bits := w % 2 ^ nbits
  match functionCodeOf (BitVec.ofNat 8 bits) with
  | some _ =>
    match decodeRequest (wordBytes maxPduBytes bits) with
    | .ok r => some r.1
    | .error _ => none
  | none =>
    match decodeFrame (wordBytes (max 2 (nbits / 8)) bits) with
    | .ok i => some i
    | .error _ => none

end Sys2Proof
end

