-- ==== Sys2Proof/Machine/Codec.lean ====
section
/-! DEFINITION. Machine/Codec.lean: level L0, the two functions the source settles (spec/00_scope.md R6): `encode`
(spec/40_enc_common.md R120) and `decode` (spec/44_dec_response.md R180), and the tokens each result stands for at L1
(R126, R187). The token machine is held to these. -/

namespace Sys2Proof

/-- R120: `encode : Config -> Request -> EncResult`. -/
def encodeRequest (cfg : Config) : Request → EncResult
  | .readCoils a q => .pdu (rq5Bytes .readCoils a q)
  | .readDiscreteInputs a q => .pdu (rq5Bytes .readDiscreteInputs a q)
  | .readHoldingRegisters a q => .pdu (rq5Bytes .readHoldingRegisters a q)
  | .readInputRegisters a q => .pdu (rq5Bytes .readInputRegisters a q)
  | .writeSingleCoil a v => .pdu (rq5Bytes .writeSingleCoil a (coilWord v))
  | .writeSingleRegister a v => .pdu (rq5Bytes .writeSingleRegister a v)
  | .writeMultipleCoils a vs =>
    if overflow15 cfg.legacyByteCount vs.length then .encFault .overflow
    else .pdu (wmcBytes cfg.legacyByteCount a vs)
  | .writeMultipleRegisters a vs =>
    if overflow16 vs.length then .encFault .overflow else .pdu (wmrBytes a vs)

/-- R180: `decode : List Byte -> DecResult`. -/
def decodeResponse : List Byte → DecResult
  | b0 :: b1 :: rest =>
    if exceptionBit b0 then .exception (clearCode b0) b1 (classify b1)
    else .normal b0 (b1 :: rest)
  | [_] => .malformed
  | [] => .malformed

/-- R126: the tokens of a PDU, `last` on the final byte alone. -/
def pduTokens : List Byte → List EncOut
  | [] => []
  | [x] => [.b x true]
  | x :: y :: bs => .b x false :: pduTokens (y :: bs)

/-- R126: what ENC puts for a result of `encode`. -/
def EncResult.tokens : EncResult → List EncOut
  | .pdu bs => pduTokens bs
  | .encFault c => [.f c.number]

/-- R187: what DEC puts for a result of `decode`: the result without the payload (R188). -/
def DecResult.token : DecResult → DecOut
  | .malformed => .malformed
  | .normal fc _ => .normal fc
  | .exception fc code cls => .exception (fc.setWidth 8) code cls

/-- R127: the number of ENC's steps for a request. -/
def Request.steps (cfg : Config) : Request → Nat
  | .readCoils _ _ => 6
  | .readDiscreteInputs _ _ => 6
  | .readHoldingRegisters _ _ => 6
  | .readInputRegisters _ _ => 6
  | .writeSingleCoil _ _ => 6
  | .writeSingleRegister _ _ => 6
  | .writeMultipleCoils _ vs =>
    if overflow15 cfg.legacyByteCount vs.length then 2 + vs.length
    else 1 + 6 + vs.length + byteCount15 cfg.legacyByteCount vs.length
  | .writeMultipleRegisters _ vs =>
    if overflow16 vs.length then 2 + vs.length else 1 + 6 + vs.length + byteCount16 vs.length

/-- R187: the number of DEC's steps for a frame. -/
def frameSteps (bs : List Byte) : Nat := if bs.isEmpty then 2 else bs.length + 1

end Sys2Proof
end

