-- ==== Sys2Proof/Machine/State.lean ====
section
/-! DEFINITION. Machine/State.lean: the state of the whole system as plain data (spec/10_state.md R24 to R33,
spec/20_memory.md R58, R64, spec/70_reset_and_hazards.md R244), the reasons a step can stop, and the state after reset.
The block has no memory and no program counter (R26, R32, R50). -/

namespace Sys2Proof.Machine

/-- R25: the nine phases of ENC. "The numbers matter only to a pin-level implementation; a model uses the names." -/
inductive EncPhase
  | idle
  | hdr
  | fetch
  | flush
  | hi
  | lo
  | pad
  | fault
  | drain
  deriving DecidableEq, Repr

/-- R27: the two phases of DEC. -/
inductive DecPhase
  | recv
  | result
  deriving DecidableEq, Repr

/-- R24: the registers of ENC. -/
structure Enc where
  /-- `ENC.PH`. -/
  ph : EncPhase
  /-- `ENC.FC`. -/
  fc : BitVec 8
  /-- `ENC.ADDR`. -/
  addr : BitVec 16
  /-- `ENC.ARG`. -/
  arg : BitVec 16
  /-- `ENC.BC`. -/
  bc : BitVec 8
  /-- `ENC.LEN`. -/
  len : BitVec 9
  /-- `ENC.IDX`. -/
  idx : BitVec 9
  /-- `ENC.REM`. -/
  rem : BitVec 16
  /-- `ENC.ACC`. -/
  acc : BitVec 8
  /-- `ENC.POS`. -/
  pos : BitVec 3
  /-- `ENC.VAL`. -/
  val : BitVec 16
  /-- `ENC.FLT`. -/
  flt : BitVec 2
  deriving DecidableEq, Repr

/-- R27: the registers of DEC. -/
structure Dec where
  /-- `DEC.PH`. -/
  ph : DecPhase
  /-- `DEC.B0`. -/
  b0 : BitVec 8
  /-- `DEC.B1`. -/
  b1 : BitVec 8
  /-- `DEC.CNT`. -/
  cnt : BitVec 2
  deriving DecidableEq, Repr

/-- The host's side of the channels (R2, R244, R63). -/
structure HostSide where
  /-- The tokens the host still has to put on `ENC_IN`, in order: the rest of its program (R244). -/
  encProg : List EncIn
  /-- The tokens the host still has to put on `DEC_IN`. -/
  decProg : List DecIn
  /-- The tokens the host has taken from `ENC_OUT`, first first: what it has observed (R63). -/
  encGot : List EncOut
  /-- The tokens the host has taken from `DEC_OUT`. -/
  decGot : List DecOut
  deriving DecidableEq, Repr

/-- One entry of the schedule: which agent moves next (R60: "every interleaving of their steps is a run of the block";
R8: the host acts at times of its choosing). -/
inductive Turn
  /-- ENC takes one step, one token (R55). -/
  | enc
  /-- DEC takes one step, one token. -/
  | dec
  /-- ENC takes steps, one after another, until its transaction ends or it has to wait. -/
  | encRun
  /-- DEC takes steps, one after another, until its transaction ends or it has to wait. -/
  | decRun
  /-- The host puts its next token on `ENC_IN`. -/
  | putEnc
  /-- The host puts its next token on `DEC_IN`. -/
  | putDec
  /-- The host takes a token from `ENC_OUT`. -/
  | takeEnc
  /-- The host takes a token from `DEC_OUT`. -/
  | takeDec
  /-- The reset pin (R230). -/
  | reset
  /-- The host ends the run: it empties the four channels, applies reset and starts the next run with a new program
  (R231, R232, R233). -/
  | restart (encProg : List EncIn) (decProg : List DecIn)
  deriving DecidableEq, Repr

/-- The whole system. -/
structure State where
  /-- The configuration (R28): constant, carried here because `step` takes nothing but the state. -/
  cfg : Config
  enc : Enc
  dec : Dec
  /-- Channel `ENC_IN` (R30), oldest token first. -/
  encIn : List EncIn
  /-- Channel `ENC_OUT`. -/
  encOut : List EncOut
  /-- Channel `DEC_IN`. -/
  decIn : List DecIn
  /-- Channel `DEC_OUT`. -/
  decOut : List DecOut
  /-- The host's side. -/
  host : HostSide
  /-- The schedule: who moves next. The model's own field. -/
  turns : List Turn
  /-- How many free values have been drawn (notes/assumptions/4.md). The model's own field. -/
  free : Nat
  deriving DecidableEq, Repr

/-- Why the machine stops. None of these is a fault of the block: the block's faults are `F` tokens and `MALFORMED`
results, which are next states (R210). Each is the stuck state of R215 (3): "no step, no token, no fault". -/
inductive Fault
  /-- ENC is in `IDLE` with a value token at the head of `ENC_IN` (R235). Raised by ENC's step. Safe: the spec gives
  ENC no step until reset. -/
  | encStuckOnValue
  /-- ENC is in `FETCH` or `DRAIN` with a command token at the head of `ENC_IN` (R235). Raised by ENC's step. Safe. -/
  | encStuckOnCommand
  /-- ENC's registers are in a combination no rule covers: `HDR` with no header byte at `IDX` (R122), or `FETCH` or
  `DRAIN` with `REM = 0` (R128), or `FETCH` with `FC` neither 15 nor 16. Raised by ENC's step; no run reaches it (the
  invariant `EncInv` of Safety.lean). Safe. -/
  | encNoRule
  /-- DEC is in a frame with `EMPTY` at the head of `DEC_IN` (R236). Raised by DEC's step. Safe. -/
  | decStuckOnEmpty
  deriving DecidableEq, Repr

/-- Why the model gives no meaning. -/
inductive Refusal
  /-- An instruction with no meaning in this model. Raised by `exec` alone. Safe. -/
  | notModelled (mnemonic : String)
  /-- `C(5, addr, arg)` with `arg >= 2`: outside the input set, "a model refuses it" (R94, R98, R150, R239, U4). Raised
  by ENC's accept step. Safe. -/
  | coilArgument
  /-- A value token of a function 15 command that is 2 or more: "a model refuses them" (R95, R239, U4). Raised by ENC's
  fetch and drain steps. Safe. -/
  | coilValue
  /-- A reset while a transaction is in progress or with a token in a channel: "A model refuses a mid-run reset rather
  than model it" (R231, U8). Raised by the reset turn. Safe. -/
  | midRunReset
  deriving DecidableEq, Repr

/-- What one step of a unit comes to (R64, R215). -/
inductive Tick
  /-- The unit moved one token. -/
  | moved (s : State)
  /-- The unit holds: its input is empty or its output is full, and the host can lift that (R64). -/
  | waiting
  /-- The unit is stuck (R235, R236). -/
  | stuck (f : Fault)
  /-- The token at the head is outside the input set (R239). -/
  | refused (r : Refusal)
  deriving DecidableEq, Repr

/-- ENC right after reset (R33). The spec gives only `PH`; the other registers are zero, a DESIGN CHOICE
(notes/assumptions/3.md). -/
def Enc.reset : Enc :=
  { ph := .idle, fc := 0, addr := 0, arg := 0, bc := 0, len := 0, idx := 0, rem := 0, acc := 0, pos := 0, val := 0,
    flt := 0 }

/-- DEC right after reset (R33). The spec gives `PH` and `CNT`; `B0` and `B1` are zero, a DESIGN CHOICE
(notes/assumptions/3.md). -/
def Dec.reset : Dec := { ph := .recv, b0 := 0, b1 := 0, cnt := 0 }

/-- R33, R244: the launch state with an empty program and an empty schedule. -/
def State.reset : State :=
  { cfg := Config.default, enc := Enc.reset, dec := Dec.reset, encIn := [], encOut := [], decIn := [], decOut := [],
    host := { encProg := [], decProg := [], encGot := [], decGot := [] }, turns := [], free := 0 }

end Sys2Proof.Machine
end

