-- ==== Sys2Proof/Machine/Ops.lean ====
section
/-! DEFINITION. Machine/Ops.lean: the named operations over registers and channels (spec/00_scope.md R8): the whole-field
updates of State, `take` and `put` with their flow control (spec/20_memory.md R56, R58, R64), raising a fault and
finishing it (spec/40_enc_common.md R123, spec/60_exceptions.md R210, R211), and reset (spec/70_reset_and_hazards.md
R230 to R233). The block has no memory, so there are no loads and stores (R50). -/

namespace Sys2Proof.Machine

/-! ## Whole-field updates -/

def State.setEnc (e : Enc) (s : State) : State := { s with enc := e }
def State.setDec (d : Dec) (s : State) : State := { s with dec := d }
def State.setEncIn (ts : List EncIn) (s : State) : State := { s with encIn := ts }
def State.setEncOut (ts : List EncOut) (s : State) : State := { s with encOut := ts }
def State.setDecIn (ts : List DecIn) (s : State) : State := { s with decIn := ts }
def State.setDecOut (ts : List DecOut) (s : State) : State := { s with decOut := ts }
def State.setHost (h : HostSide) (s : State) : State := { s with host := h }
def State.setTurns (ts : List Turn) (s : State) : State := { s with turns := ts }
def State.setFree (n : Nat) (s : State) : State := { s with free := n }

/-! ## Channels: `put` and its flow control -/

/-- R64: "`put` is enabled only while the channel holds fewer than `CAP` tokens". -/
def hasRoom (cap : Option Nat) (n : Nat) : Bool :=
  match cap with
  | none => true
  | some c => decide (n < c)

/-- `put(ENC_OUT, t)` (R8, R56, R58): append `t` to the channel and touch nothing else. -/
def putEncOut (t : EncOut) (s : State) : State := s.setEncOut (s.encOut ++ [t])

/-- `put(DEC_OUT, t)`. -/
def putDecOut (t : DecOut) (s : State) : State := s.setDecOut (s.decOut ++ [t])

/-- A step of ENC that puts `t` and leaves ENC's registers at `e`; without room it waits (R64). -/
def encPutStep (t : EncOut) (e : Enc) (s : State) : Tick :=
  if hasRoom s.cfg.capEncOut s.encOut.length then .moved ((putEncOut t s).setEnc e) else .waiting

/-- A step of DEC that puts `t` and leaves DEC's registers at `d`; without room it waits (R64). -/
def decPutStep (t : DecOut) (d : Dec) (s : State) : Tick :=
  if hasRoom s.cfg.capDecOut s.decOut.length then .moved ((putDecOut t s).setDec d) else .waiting

/-! ## Faults: raising one, and what follows its delivery -/

/-- `raise ENC_FAULT(code)` (R8, R123, R210): `ENC.FLT` records the code and ENC goes to phase `FAULT`. This is the
block's only exception entry: nothing else is saved, no mode changes. -/
def raiseEncFault (code : EncFaultCode) (e : Enc) : Enc := { e with flt := code.number, ph := .fault }

/-- After the `F` token is put (R123, R211): to `DRAIN` if values are owed, else to `IDLE`. There is no other return. -/
def afterFault (e : Enc) : Enc := { e with ph := if e.rem = 0 then .idle else .drain }

/-! ## Reset -/

/-- R33, R230: ENC after a reset. `PH` is `IDLE`; every other register is unspecified, so it holds a free value. -/
def encAfterReset (k : Nat) : Enc :=
  { ph := .idle
    fc := (Config.unspecifiedRegister k).setWidth 8
    addr := Config.unspecifiedRegister (k + 1)
    arg := Config.unspecifiedRegister (k + 2)
    bc := (Config.unspecifiedRegister (k + 3)).setWidth 8
    len := (Config.unspecifiedRegister (k + 4)).setWidth 9
    idx := (Config.unspecifiedRegister (k + 5)).setWidth 9
    rem := Config.unspecifiedRegister (k + 6)
    acc := (Config.unspecifiedRegister (k + 7)).setWidth 8
    pos := (Config.unspecifiedRegister (k + 8)).setWidth 3
    val := Config.unspecifiedRegister (k + 9)
    flt := (Config.unspecifiedRegister (k + 10)).setWidth 2 }

/-- R33, R230: DEC after a reset. `PH` is `RECV` and `CNT` is 0; `B0` and `B1` are unspecified. -/
def decAfterReset (k : Nat) : Dec :=
  { ph := .recv
    b0 := (Config.unspecifiedRegister k).setWidth 8
    b1 := (Config.unspecifiedRegister (k + 1)).setWidth 8
    cnt := 0 }

/-- R230: the effect of reset. "Both units are reset together"; the configuration and the channels are untouched (R232). -/
def resetUnits (s : State) : State :=
  ((s.setEnc (encAfterReset s.free)).setDec (decAfterReset (s.free + 11))).setFree (s.free + 13)

/-- U8: no transaction is in progress and no channel holds a token. Whether the host still has tokens to put does not count
(DESIGN CHOICE, notes/assumptions/10.md). -/
def quiet (s : State) : Bool :=
  decide (s.enc.ph = .idle) && decide (s.dec.ph = .recv) && decide (s.dec.cnt = 0)
    && s.encIn.isEmpty && s.encOut.isEmpty && s.decIn.isEmpty && s.decOut.isEmpty

/-- The reset pin (R230): refused while a transaction is in progress or a channel holds a token (R231, U8). Between
transactions, with the channels empty, it is accepted even if the host still has tokens to put, and what follows counts as
the same run: what the host has observed is kept (DESIGN CHOICE, notes/assumptions/10.md). -/
def resetPin (s : State) : Host.Outcome State Fault Refusal :=
  if quiet s then .next (resetUnits s) else .refused .midRunReset

/-- R231, R232: the host empties the four channels. -/
def emptyChannels (s : State) : State := (((s.setEncIn []).setEncOut []).setDecIn []).setDecOut []

/-! ## The host's own moves (R58, R63, R64) -/

/-- The host puts its next token on `ENC_IN` if there is one and there is room; otherwise it holds. -/
def hostPutEnc (s : State) : State :=
  match s.host.encProg with
  | [] => s
  | t :: ts =>
    if hasRoom s.cfg.capEncIn s.encIn.length then
      (s.setEncIn (s.encIn ++ [t])).setHost { s.host with encProg := ts }
    else s

/-- The host puts its next token on `DEC_IN` if there is one and there is room; otherwise it holds. -/
def hostPutDec (s : State) : State :=
  match s.host.decProg with
  | [] => s
  | t :: ts =>
    if hasRoom s.cfg.capDecIn s.decIn.length then
      (s.setDecIn (s.decIn ++ [t])).setHost { s.host with decProg := ts }
    else s

/-- The host takes the oldest token of `ENC_OUT`, if there is one. -/
def hostTakeEnc (s : State) : State :=
  match s.encOut with
  | [] => s
  | t :: ts => (s.setEncOut ts).setHost { s.host with encGot := s.host.encGot ++ [t] }

/-- The host takes the oldest token of `DEC_OUT`, if there is one. -/
def hostTakeDec (s : State) : State :=
  match s.decOut with
  | [] => s
  | t :: ts => (s.setDecOut ts).setHost { s.host with decGot := s.host.decGot ++ [t] }

/-- The host ends the run and starts the next (R231 to R233): the channels are emptied, the units reset, the new program
is laid out and nothing has been observed of the new run. -/
def restart (encProg : List EncIn) (decProg : List DecIn) (s : State) : State :=
  (resetUnits (emptyChannels s)).setHost { encProg := encProg, decProg := decProg, encGot := [], decGot := [] }

end Sys2Proof.Machine
end

