-- ==== Sys2Proof/Machine/EncSteps.lean ====
section
/-! DEFINITION. Machine/EncSteps.lean: the token steps of ENC, one definition per phase (spec/40_enc_common.md R121 to
R125, spec/43_enc_write_multiple.md R161, R162, R165), and running ENC to the end of a transaction. -/

namespace Sys2Proof.Machine

/-- R122: `HLEN`, the length of the header. -/
def headerLength (fc : Byte) : Nat := if fc = 0x0F ∨ fc = 0x10 then 6 else 5

/-- R122: `f2`, the second 16-bit field of the header; function 5 looks at `ENC.ARG[0]` alone. -/
def headerField2 (e : Enc) : U16 := if e.fc = 0x05 then coilWord (e.arg.getLsbD 0) else e.arg

/-- R122: `hdr(IDX)`; none outside the header. -/
def headerByte (e : Enc) : Option Byte :=
  if headerLength e.fc ≤ e.idx.toNat then none
  else if e.idx = 0 then some e.fc
  else if e.idx = 1 then some (hiByte e.addr)
  else if e.idx = 2 then some (loByte e.addr)
  else if e.idx = 3 then some (hiByte (headerField2 e))
  else if e.idx = 4 then some (loByte (headerField2 e))
  else some e.bc

/-- R125: `after_emit()`, read with the new `IDX`. -/
def afterEmit (e : Enc) : EncPhase :=
  if e.idx = e.len then .idle else if e.rem = 0 then .pad else .fetch

/-- The byte token at `ENC.IDX` (R122, R162, R165). -/
def byteToken (e : Enc) (byte : Byte) : EncOut := .b byte (lastByte e.idx e.len)

/-- R121: what the accept step latches for every command. -/
def latch (fc : Byte) (addr arg : U16) (e : Enc) : Enc := { e with fc := fc, addr := addr, arg := arg, idx := 0 }

/-- R121, the six fixed forms. -/
def acceptFixed (e : Enc) : Enc := { e with len := 5, rem := 0, ph := .hdr }

/-- R121, function 15. -/
def acceptCoils (legacy : Bool) (e : Enc) : Enc :=
  let n := e.arg.toNat
  if overflow15 legacy n then raiseEncFault .overflow { e with rem := e.arg }
  else
    { e with rem := e.arg, bc := BitVec.ofNat 8 (byteCount15 legacy n), len := BitVec.ofNat 9 (6 + byteCount15 legacy n),
             acc := 0, pos := 0, ph := .hdr }

/-- R121, function 16. -/
def acceptRegisters (e : Enc) : Enc :=
  let m := e.arg.toNat
  if overflow16 m then raiseEncFault .overflow { e with rem := e.arg }
  else
    { e with rem := e.arg, bc := BitVec.ofNat 8 (byteCount16 m), len := BitVec.ofNat 9 (6 + byteCount16 m), ph := .hdr }

/-- R121, R203: a function code outside the eight. -/
def acceptIllegal (e : Enc) : Enc := raiseEncFault .illegalFunction { e with rem := 0 }

/-- R121: the accept step's effect on ENC's registers, the command latched. -/
def accept (legacy : Bool) (e : Enc) : Enc :=
  match functionCodeOf e.fc with
  | some .readCoils => acceptFixed e
  | some .readDiscreteInputs => acceptFixed e
  | some .readHoldingRegisters => acceptFixed e
  | some .readInputRegisters => acceptFixed e
  | some .writeSingleCoil => acceptFixed e
  | some .writeSingleRegister => acceptFixed e
  | some .writeMultipleCoils => acceptCoils legacy e
  | some .writeMultipleRegisters => acceptRegisters e
  | none => acceptIllegal e

/-- R94, R98: `C(5, addr, arg)` with `arg >= 2` is outside the input set. -/
def commandRefused (fc : Byte) (arg : U16) : Bool := decide (fc = 0x05) && (coilOfArg arg).isNone

/-- R95, R98, R239: a value token of a function 15 command that is 2 or more is outside the input set, "whether or not the
command faults" (R65). -/
def valueRefused (fc : Byte) (v : U16) : Bool := decide (fc = 0x0F) && (coilOfArg v).isNone

/-- R121: phase `IDLE`. A value token at the head leaves ENC stuck (R235). -/
def encIdle (s : State) : Tick :=
  match s.encIn with
  | [] => .waiting
  | .v _ :: _ => .stuck .encStuckOnValue
  | .c fc addr arg :: ts =>
    if commandRefused fc arg then .refused .coilArgument
    else .moved ((s.setEncIn ts).setEnc (accept s.cfg.legacyByteCount (latch fc addr arg s.enc)))

/-- R122: what `HDR` does to the registers when its byte is out. -/
def afterHeader (e : Enc) : Enc :=
  let e' := { e with idx := e.idx + 1 }
  if e'.idx.toNat = headerLength e.fc then { e' with ph := afterEmit e' } else e'

/-- R122: phase `HDR`. -/
def encHdr (s : State) : Tick :=
  match headerByte s.enc with
  | none => .stuck .encNoRule
  | some byte => encPutStep (byteToken s.enc byte) (afterHeader s.enc) s

/-- R161: function 15 takes one coil. -/
def fetchCoil (v : Bool) (e : Enc) : Enc :=
  let e' := { e with acc := e.acc ||| (coilBit v <<< e.pos.toNat), rem := e.rem - 1 }
  if e.pos = 7 ∨ e'.rem = 0 then { e' with ph := .flush } else { e' with pos := e.pos + 1 }

/-- R165: function 16 takes one register. -/
def fetchRegister (v : U16) (e : Enc) : Enc := { e with val := v, rem := e.rem - 1, ph := .hi }

/-- R161, R165: phase `FETCH`. A command token at the head leaves ENC stuck (R235); a coil that is not 0 or 1 is refused
(R95, R239). -/
def encFetch (s : State) : Tick :=
  match s.encIn with
  | [] => .waiting
  | .c _ _ _ :: _ => .stuck .encStuckOnCommand
  | .v x :: ts =>
    if s.enc.rem = 0 then .stuck .encNoRule
    else if s.enc.fc = 0x0F then
      match coilOfArg x with
      | some v => .moved ((s.setEncIn ts).setEnc (fetchCoil v s.enc))
      | none => .refused .coilValue
    else if s.enc.fc = 0x10 then .moved ((s.setEncIn ts).setEnc (fetchRegister x s.enc))
    else .stuck .encNoRule

/-- The registers after a byte is put and the phase is `after_emit()` (R125). -/
def afterByte (e : Enc) : Enc :=
  let e' := { e with idx := e.idx + 1 }
  { e' with ph := afterEmit e' }

/-- R162: phase `FLUSH`. -/
def encFlush (s : State) : Tick :=
  encPutStep (byteToken s.enc s.enc.acc) (afterByte { s.enc with acc := 0, pos := 0 }) s

/-- R162: phase `PAD`. -/
def encPad (s : State) : Tick := encPutStep (byteToken s.enc 0) (afterByte s.enc) s

/-- R165: phase `HI`. -/
def encHi (s : State) : Tick :=
  encPutStep (byteToken s.enc (hiByte s.enc.val)) { s.enc with idx := s.enc.idx + 1, ph := .lo } s

/-- R165: phase `LO`. -/
def encLo (s : State) : Tick := encPutStep (byteToken s.enc (loByte s.enc.val)) (afterByte s.enc) s

/-- R123: phase `FAULT`. -/
def encFault (s : State) : Tick := encPutStep (.f s.enc.flt) (afterFault s.enc) s

/-- R124: `DRAIN` discards one value. -/
def afterDrain (e : Enc) : Enc :=
  let e' := { e with rem := e.rem - 1 }
  if e'.rem = 0 then { e' with ph := .idle } else e'

/-- R124: phase `DRAIN`. The value is discarded, whatever it is in the input set; one that is no coil of a function 15
command is refused (R95, R239; notes/assumptions/11.md); a command token at the head leaves ENC stuck (R235). -/
def encDrain (s : State) : Tick :=
  match s.encIn with
  | [] => .waiting
  | .c _ _ _ :: _ => .stuck .encStuckOnCommand
  | .v x :: ts =>
    if s.enc.rem = 0 then .stuck .encNoRule
    else if valueRefused s.enc.fc x then .refused .coilValue
    else .moved ((s.setEncIn ts).setEnc (afterDrain s.enc))

/-- ENC's next step: "in each phase exactly one kind of step exists, so ENC is deterministic" (spec/40_enc_common.md
part 2). -/
def encTick (s : State) : Tick :=
  match s.enc.ph with
  | .idle => encIdle s
  | .hdr => encHdr s
  | .fetch => encFetch s
  | .flush => encFlush s
  | .hi => encHi s
  | .lo => encLo s
  | .pad => encPad s
  | .fault => encFault s
  | .drain => encDrain s

/-- ENC takes at most `k` steps, and stops when it is back in `IDLE` or has to wait. -/
def encRun : Nat → State → Host.Outcome State Fault Refusal
  | 0, s => .next s
  | k + 1, s =>
    match encTick s with
    | .moved s' => if s'.enc.ph = .idle then .next s' else encRun k s'
    | .waiting => .next s
    | .stuck f => .fault f
    | .refused r => .refused r

/-- The values ENC still has to take for the command in flight, or for the one at the head of `ENC_IN`. -/
def valuesOwed (s : State) : Nat :=
  match s.enc.ph with
  | .idle =>
    match s.encIn with
    | .c _ _ arg :: _ => arg.toNat
    | _ => 0
  | _ => s.enc.rem.toNat

/-- A number of steps that no transaction of ENC exceeds (R127: at most `1 + 6 + M + 2M`, and one more for a legacy
byte). -/
def encFuel (s : State) : Nat := 9 + 3 * valuesOwed s

/-- ENC runs to the end of its transaction, or until it has to wait. -/
def encRunToEnd (s : State) : Host.Outcome State Fault Refusal := encRun (encFuel s) s

/-- ENC is presented with a command, its tokens `ts` standing at the head of `ENC_IN`, and runs it. While ENC is not in
`IDLE` it takes no new command (R59) and the tokens stay in the channel. They are laid there at once, without the room that
R64 asks of a `put`: DESIGN CHOICE, notes/assumptions/13.md. -/
def runCommand (ts : List EncIn) (s : State) : Host.Outcome State Fault Refusal :=
  let s' := s.setEncIn (ts ++ s.encIn)
  match s.enc.ph with
  | .idle => encRunToEnd s'
  | _ => .next s'

end Sys2Proof.Machine
end

