-- ==== Sys2Proof/Machine/Read.lean ====
section
/-! DEFINITION. Machine/Read.lean: the four read requests (spec/41_enc_read.md R140 to R143). Each is one command token
(R94) and six steps of ENC (R121, R122). -/

namespace Sys2Proof.Machine

/-- R140: `read_coils(start_addr, quantity)`, function code 1. -/
def execReadCoils (startAddr quantity : U16) (s : State) : Host.Outcome State Fault Refusal :=
  runCommand (Request.readCoils startAddr quantity).tokens s

/-- R141: `read_discrete_inputs(start_addr, quantity)`, function code 2. -/
def execReadDiscreteInputs (startAddr quantity : U16) (s : State) : Host.Outcome State Fault Refusal :=
  runCommand (Request.readDiscreteInputs startAddr quantity).tokens s

/-- R142: `read_holding_registers(start_addr, quantity)`, function code 3. -/
def execReadHoldingRegisters (startAddr quantity : U16) (s : State) : Host.Outcome State Fault Refusal :=
  runCommand (Request.readHoldingRegisters startAddr quantity).tokens s

/-- R143: `read_input_registers(start_addr, quantity)`, function code 4. -/
def execReadInputRegisters (startAddr quantity : U16) (s : State) : Host.Outcome State Fault Refusal :=
  runCommand (Request.readInputRegisters startAddr quantity).tokens s

end Sys2Proof.Machine
end

