-- ==== Sys2Proof/Machine/DecSteps.lean ====
section
/-! DEFINITION. Machine/DecSteps.lean: the token steps of DEC (spec/44_dec_response.md R184 to R186), and running DEC to
the end of a frame. -/

namespace Sys2Proof.Machine

/-- R184: what one byte does to DEC's registers; the third byte and every later one is dropped. -/
def receiveByte (byte : Byte) (last : Bool) (d : Dec) : Dec :=
  let d' :=
    if d.cnt = 0 then { d with b0 := byte, cnt := 1 }
    else if d.cnt = 1 then { d with b1 := byte, cnt := 2 }
    else d
  if last then { d' with ph := .result } else d'

/-- R184, R185: phase `RECV`. `EMPTY` inside a frame leaves DEC stuck (R236). -/
def decRecv (s : State) : Tick :=
  match s.decIn with
  | [] => .waiting
  | .b byte last :: ts => .moved ((s.setDecIn ts).setDec (receiveByte byte last s.dec))
  | .empty :: ts =>
    if s.dec.cnt = 0 then .moved ((s.setDecIn ts).setDec { s.dec with ph := .result })
    else .stuck .decStuckOnEmpty

/-- R186: the result of the frame, from the registers. -/
def resultToken (d : Dec) : DecOut :=
  if d.cnt.toNat < 2 then .malformed
  else if exceptionBit d.b0 then .exception ((clearCode d.b0).setWidth 8) d.b1 (classify d.b1)
  else .normal d.b0

/-- R186: phase `RESULT`. -/
def decResult (s : State) : Tick := decPutStep (resultToken s.dec) { s.dec with cnt := 0, ph := .recv } s

/-- DEC's next step: "DEC is deterministic: in each phase one kind of step exists". -/
def decTick (s : State) : Tick :=
  match s.dec.ph with
  | .recv => decRecv s
  | .result => decResult s

/-- DEC is between transactions (R210: "`RECV` with `CNT = 0`"). -/
def decIdle (d : Dec) : Bool := decide (d.ph = .recv) && decide (d.cnt = 0)

/-- DEC takes at most `k` steps, and stops when it is between transactions again or has to wait. -/
def decRun : Nat → State → Host.Outcome State Fault Refusal
  | 0, s => .next s
  | k + 1, s =>
    match decTick s with
    | .moved s' => if decIdle s'.dec then .next s' else decRun k s'
    | .waiting => .next s
    | .stuck f => .fault f
    | .refused r => .refused r

/-- DEC runs to the end of its transaction, or until it has to wait: at most one step per token that stands in `DEC_IN`
and one for the result (R187). -/
def decRunToEnd (s : State) : Host.Outcome State Fault Refusal := decRun (s.decIn.length + 1) s

/-- DEC is presented with a frame, its tokens `ts` standing at the head of `DEC_IN`, and runs it. While a frame is in
flight it takes no new one (R59) and the tokens stay in the channel. They are laid there at once, without the room that R64
asks of a `put`: DESIGN CHOICE, notes/assumptions/13.md. -/
def runFrame (ts : List DecIn) (s : State) : Host.Outcome State Fault Refusal :=
  let s' := s.setDecIn (ts ++ s.decIn)
  if decIdle s.dec then decRunToEnd s' else .next s'

end Sys2Proof.Machine
end

