-- ==== Sys2Proof/Machine/Response.lean ====
section
/-! DEFINITION. Machine/Response.lean: `decode_response` on the two formats of the opcode table (spec/44_dec_response.md
R180; spec/30_encoding.md R85, R86). A frame of 0 or 1 bytes matches no row (R103); DEC's steps give it `MALFORMED`
(R186) without an instruction. -/

namespace Sys2Proof.Machine

/-- R180, R85: `decode_response` of an exception response. -/
def execDecodeResponseExc (fc : BitVec 7) (code : Byte) (extra : List Byte) (s : State) :
    Host.Outcome State Fault Refusal :=
  runFrame (frameTokens (((1 : BitVec 1) ++ fc : BitVec 8) :: code :: extra)) s

/-- R180, R86: `decode_response` of a normal response. -/
def execDecodeResponseNrm (fc : Byte) (payload : List Byte) (s : State) : Host.Outcome State Fault Refusal :=
  runFrame (frameTokens (fc :: payload)) s

end Sys2Proof.Machine
end

