-- ==== Sys2Proof/Machine/WriteMultiple.lean ====
section
/-! DEFINITION. Machine/WriteMultiple.lean: the two multiple writes (spec/43_enc_write_multiple.md R160, R164). Each is
one command token with the count and one value token per element (R94, R95); the steps that only they use (R161, R162,
R165) stand in Machine/EncSteps.lean. -/

namespace Sys2Proof.Machine

/-- R160: `write_multiple_coils(start_addr, values)`, function code 15. -/
def execWriteMultipleCoils (startAddr : U16) (values : List Bool) (s : State) : Host.Outcome State Fault Refusal :=
  runCommand (Request.writeMultipleCoils startAddr values).tokens s

/-- R164: `write_multiple_registers(start_addr, values)`, function code 16. -/
def execWriteMultipleRegisters (startAddr : U16) (values : List U16) (s : State) : Host.Outcome State Fault Refusal :=
  runCommand (Request.writeMultipleRegisters startAddr values).tokens s

end Sys2Proof.Machine
end

