-- ==== Sys2Proof/Machine/WriteSingle.lean ====
section
/-! DEFINITION. Machine/WriteSingle.lean: the two single writes (spec/42_enc_write_single.md R150, R151). Each is one
command token (R94) and six steps of ENC (R121, R122). -/

namespace Sys2Proof.Machine

/-- R150: `write_single_coil(addr, value)`, function code 5; the command's `arg` is 1 for `true` and 0 for `false`. -/
def execWriteSingleCoil (addr : U16) (value : Bool) (s : State) : Host.Outcome State Fault Refusal :=
  runCommand (Request.writeSingleCoil addr value).tokens s

/-- R151: `write_single_register(addr, value)`, function code 6. -/
def execWriteSingleRegister (addr value : U16) (s : State) : Host.Outcome State Fault Refusal :=
  runCommand (Request.writeSingleRegister addr value).tokens s

end Sys2Proof.Machine
end

