-- ==== Sys2Proof/Machine/Dispatch.lean ====
section
/-! DEFINITION. Machine/Dispatch.lean: one arm per constructor of Instr (spec/opcode_table.json; spec/30_encoding.md
R103). -/

namespace Sys2Proof.Machine

def exec (i : Instr) (s : State) : Host.Outcome State Fault Refusal :=
  match i with
  | .readCoils startAddr quantity => Sys2Proof.Machine.execReadCoils startAddr quantity s
  | .readDiscreteInputs startAddr quantity => Sys2Proof.Machine.execReadDiscreteInputs startAddr quantity s
  | .readHoldingRegisters startAddr quantity => Sys2Proof.Machine.execReadHoldingRegisters startAddr quantity s
  | .readInputRegisters startAddr quantity => Sys2Proof.Machine.execReadInputRegisters startAddr quantity s
  | .writeSingleCoil addr value => Sys2Proof.Machine.execWriteSingleCoil addr value s
  | .writeSingleRegister addr value => Sys2Proof.Machine.execWriteSingleRegister addr value s
  | .writeMultipleCoils startAddr values => Sys2Proof.Machine.execWriteMultipleCoils startAddr values s
  | .writeMultipleRegisters startAddr values => Sys2Proof.Machine.execWriteMultipleRegisters startAddr values s
  | .decodeResponseExc fc code extra => Sys2Proof.Machine.execDecodeResponseExc fc code extra s
  | .decodeResponseNrm fc payload => Sys2Proof.Machine.execDecodeResponseNrm fc payload s

end Sys2Proof.Machine
end

