-- ==== Sys2Proof/Machine/Fetch.lean ====
section
/-! DEFINITION. Machine/Fetch.lean: fetching an instruction, and the units' steps as outcomes. The block has no program
counter (spec/10_state.md R26); a unit between transactions finds its next instruction at the head of its input channel
(spec/20_memory.md R62). -/

namespace Sys2Proof.Machine

/-- The instruction that stands whole at the head of `ENC_IN`, taken off the channel, while ENC is in `IDLE`. -/
def fetchEnc (s : State) : Option (Instr × State) :=
  match s.enc.ph with
  | .idle =>
    match decodeCommand s.encIn with
    | .ok (i, ts) => some (i, s.setEncIn ts)
    | .error _ => none
  | _ => none

/-- The instruction that stands whole at the head of `DEC_IN`, taken off the channel, while DEC is between frames. -/
def fetchDec (s : State) : Option (Instr × State) :=
  if decIdle s.dec then
    match decodeResponseTokens s.decIn with
    | .ok (i, ts) => some (i, s.setDecIn ts)
    | .error _ => none
  else none

/-- One step of a unit as an outcome of the machine. A unit that waits "simply has no step until the host makes room or
supplies a token: it holds" (R64), so the state stays as it is. -/
def tickOutcome (t : Tick) (s : State) : Host.Outcome State Fault Refusal :=
  match t with
  | .moved s' => .next s'
  | .waiting => .next s
  | .stuck f => .fault f
  | .refused r => .refused r

/-- The units left to themselves, with no more host moves scheduled: ENC steps if it can, else DEC. The machine stops
only when neither has a step and one is stuck (R243). DESIGN CHOICE, notes/assumptions/5.md. -/
def unitsAlone (s : State) : Host.Outcome State Fault Refusal :=
  match encTick s with
  | .moved s' => .next s'
  | .refused r => .refused r
  | .waiting => tickOutcome (decTick s) s
  | .stuck f =>
    match decTick s with
    | .moved s' => .next s'
    | _ => .fault f

/-- The tokens of `i` at the head of its unit's input channel, the unit between transactions, and the unit's run
scheduled next. The tokens are laid there at once, without the room that R64 asks of a `put`: DESIGN CHOICE,
notes/assumptions/13.md. -/
def presentInstr (i : Instr) (s : State) : State :=
  match encode i with
  | .enc ts => ((s.setEncIn (ts ++ s.encIn)).setEnc { s.enc with ph := .idle }).setTurns (.encRun :: s.turns)
  | .dec ts => ((s.setDecIn (ts ++ s.decIn)).setDec { s.dec with ph := .recv, cnt := 0 }).setTurns (.decRun :: s.turns)

end Sys2Proof.Machine
end

