-- ==== Sys2Proof/Machine/Step.lean ====
section
/-! DEFINITION. Machine/Step.lean: one step of the machine: the agent whose turn it is moves (spec/20_memory.md R55, R60;
spec/70_reset_and_hazards.md R230 to R233). -/

namespace Sys2Proof.Machine

/-- ENC runs its transaction: the instruction that stands whole at the head of `ENC_IN` if there is one, else whatever
tokens are there. -/
def encRunTurn (s : State) : Host.Outcome State Fault Refusal :=
  match fetchEnc s with
  | some (i, s') => exec i s'
  | none => encRunToEnd s

/-- DEC runs its transaction, likewise. -/
def decRunTurn (s : State) : Host.Outcome State Fault Refusal :=
  match fetchDec s with
  | some (i, s') => exec i s'
  | none => decRunToEnd s

/-- The move of one turn. -/
def turnStep (t : Turn) (s : State) : Host.Outcome State Fault Refusal :=
  match t with
  | .enc => tickOutcome (encTick s) s
  | .dec => tickOutcome (decTick s) s
  | .encRun => encRunTurn s
  | .decRun => decRunTurn s
  | .putEnc => .next (hostPutEnc s)
  | .putDec => .next (hostPutDec s)
  | .takeEnc => .next (hostTakeEnc s)
  | .takeDec => .next (hostTakeDec s)
  | .reset => resetPin s
  | .restart encProg decProg => .next (restart encProg decProg s)

/-- One step of the machine. -/
def step (s : State) : Host.Outcome State Fault Refusal :=
  match s.turns with
  | [] => unitsAlone s
  | t :: ts => turnStep t (s.setTurns ts)

/-- `s` with the instruction of a table row's bits placed where `step` takes its next instruction from; bits that are no
instruction change nothing (notes/assumptions/8.md). -/
def State.withFetchWord (s : State) (nbits w : Nat) : State :=
  match decodeTableWord nbits w with
  | some i => presentInstr i s
  | none => s

end Sys2Proof.Machine
end

