-- ==== Sys2Proof/Machine/Pins.lean ====
section
/-! DEFINITION. Machine/Pins.lean: the default pin binding (spec/30_encoding.md R104), informative: "Nothing in the model
depends on this rule". A token on wires, the wires sampled back into a token, the `valid` and `ready` lines of both ends,
and a rising edge of the clock as one unit sees it. A wire that is not sampled, or a field with no meaning, carries a free
value (R97, U6; notes/assumptions/9.md). -/

namespace Sys2Proof.Machine

/-- R25: the number of a phase of ENC in the 4-bit register. -/
def EncPhase.number : EncPhase → BitVec 4
  | .idle => 0
  | .hdr => 1
  | .fetch => 2
  | .flush => 3
  | .hi => 4
  | .lo => 5
  | .pad => 6
  | .fault => 7
  | .drain => 8

/-- R27: the number of a phase of DEC. -/
def DecPhase.number : DecPhase → BitVec 1
  | .recv => 0
  | .result => 1

/-- The payload wires of `ENC_IN`. -/
structure EncInPins where
  kind : Bool
  fc : Byte
  addr : U16
  data : U16
  deriving DecidableEq, Repr

/-- The payload wires of `ENC_OUT`. -/
structure EncOutPins where
  fault : Bool
  data : Byte
  last : Bool
  deriving DecidableEq, Repr

/-- The payload wires of `DEC_IN`. -/
structure DecInPins where
  data : Byte
  last : Bool
  null : Bool
  deriving DecidableEq, Repr

/-- The payload wires of `DEC_OUT`. -/
structure DecOutPins where
  kind : BitVec 2
  fc : Byte
  code : Byte
  cls : BitVec 2
  deriving DecidableEq, Repr

/-- A wire that is not sampled: the `k`-th free value. -/
def unsampled (w k : Nat) : BitVec w := (Config.unsampledWire k).setWidth w

/-- `ENC_IN` on wires; `k` numbers the free values. -/
def encInPins (k : Nat) : EncIn → EncInPins
  | .c fc addr arg => { kind := false, fc := fc, addr := addr, data := arg }
  | .v value => { kind := true, fc := unsampled 8 k, addr := unsampled 16 (k + 1), data := value }

/-- What ENC samples from the data wires: "For a coil only `data[0]` is sampled". -/
def sampleData (coil : Bool) (data : U16) : U16 := if coil then (data.extractLsb' 0 1).setWidth 16 else data

/-- What ENC samples. A coil is the `arg` of function 5 (R94), or a value token while ENC's registers hold a function 15
command (R95). -/
def sampleEncIn (e : Enc) (p : EncInPins) : EncIn :=
  if p.kind then .v (sampleData (decide (e.fc = 0x0F)) p.data)
  else .c p.fc p.addr (sampleData (decide (p.fc = 0x05)) p.data)

/-- `ENC_OUT` on wires. -/
def encOutPins (k : Nat) : EncOut → EncOutPins
  | .b byte last => { fault := false, data := byte, last := last }
  | .f code => { fault := true, data := unsampled 6 k ++ code, last := true }

/-- What the host samples from `ENC_OUT`. -/
def sampleEncOut (p : EncOutPins) : EncOut :=
  if p.fault then .f (p.data.extractLsb' 0 2) else .b p.data p.last

/-- `DEC_IN` on wires. -/
def decInPins (k : Nat) : DecIn → DecInPins
  | .b byte last => { data := byte, last := last, null := false }
  | .empty => { data := unsampled 8 k, last := true, null := true }

/-- What DEC samples. -/
def sampleDecIn (p : DecInPins) : DecIn := if p.null then .empty else .b p.data p.last

/-- `DEC_OUT` on wires (R97). -/
def decOutPins (k : Nat) : DecOut → DecOutPins
  | .normal fc => { kind := 0, fc := fc, code := unsampled 8 k, cls := unsampled 2 (k + 1) }
  | .exception fc code cls => { kind := 1, fc := fc, code := code, cls := cls.number }
  | .malformed => { kind := 2, fc := unsampled 8 k, code := unsampled 8 (k + 1), cls := unsampled 2 (k + 2) }

/-- R97: the class of a `class` field. -/
def errClassOf (n : BitVec 2) : ErrClass :=
  if n = 1 then .illegalDataAddress
  else if n = 2 then .illegalDataValue
  else if n = 3 then .serverDeviceFailure
  else .unknownModbusException

/-- What the host samples from `DEC_OUT`; kind 3 is never emitted (R97, R100). -/
def sampleDecOut (p : DecOutPins) : Option DecOut :=
  if p.kind = 0 then some (.normal p.fc)
  else if p.kind = 1 then some (.exception p.fc p.code (errClassOf p.cls))
  else if p.kind = 2 then some .malformed
  else none

/-- `enc_in_ready`: driven "only in a phase whose step is a `take` of the kind of token at the head"; `kind` is the kind
wire of that token. -/
def encInReady (e : Enc) (kind : Bool) : Bool :=
  match e.ph with
  | .idle => !kind
  | .fetch => kind
  | .drain => kind
  | .hdr => false
  | .flush => false
  | .hi => false
  | .lo => false
  | .pad => false
  | .fault => false

/-- `enc_out_valid`: ENC is in a phase whose step is a `put`. -/
def encOutValid (e : Enc) : Bool :=
  match e.ph with
  | .hdr => true
  | .flush => true
  | .hi => true
  | .lo => true
  | .pad => true
  | .fault => true
  | .idle => false
  | .fetch => false
  | .drain => false

/-- `dec_in_ready`; `null` is the null wire of the token at the head. -/
def decInReady (d : Dec) (null : Bool) : Bool :=
  match d.ph with
  | .recv => !null || decide (d.cnt = 0)
  | .result => false

/-- `dec_out_valid`. -/
def decOutValid (d : Dec) : Bool := decide (d.ph = .result)

/-! ## The host's end of each channel, and the transfer

A channel stands between the two ends of a valid/ready pair (notes/assumptions/9.md): the host's `valid` offers a unit the
oldest token of its input channel, and the host's `ready` accepts a token while the unit's output channel has room (R64). -/

/-- The synchronous active-high reset `rst` (R230), driven by the host: 1 at the edge of a reset turn, and at the reset that is
part of starting the next run (R231 to R233). -/
def rst (s : State) : Bool :=
  match s.turns with
  | .reset :: _ => true
  | .restart _ _ :: _ => true
  | _ => false

/-- A `ready` or `valid` line that a unit drives: what its phase asks for, and 0 while `rst` is 1, since the effect of reset "is
exactly the table" of R33 and moves no token (DESIGN CHOICE, notes/assumptions/9.md). -/
def driven (rst line : Bool) : Bool := !rst && line

/-- "A token moves on a rising edge where both `valid` and `ready` are 1." -/
def transfers (valid ready : Bool) : Bool := valid && ready

/-- The `enc_in_kind` wire of a token: 0 for `C`, 1 for `V`. -/
def EncIn.kindWire : EncIn → Bool
  | .c _ _ _ => false
  | .v _ => true

/-- The `dec_in_null` wire of a token. -/
def DecIn.nullWire : DecIn → Bool
  | .b _ _ => false
  | .empty => true

/-- `enc_in_valid`, driven by the host. -/
def encInValid (s : State) : Bool := !s.encIn.isEmpty

/-- `enc_out_ready`, driven by the host. -/
def encOutReady (s : State) : Bool := hasRoom s.cfg.capEncOut s.encOut.length

/-- `dec_in_valid`, driven by the host. -/
def decInValid (s : State) : Bool := !s.decIn.isEmpty

/-- `dec_out_ready`, driven by the host. -/
def decOutReady (s : State) : Bool := hasRoom s.cfg.capDecOut s.decOut.length

/-- The kind wire of the beat on `ENC_IN`; without a beat it carries a free value. -/
def encInKind (k : Nat) (s : State) : Bool :=
  match s.encIn with
  | [] => (unsampled 1 k).getLsbD 0
  | t :: _ => EncIn.kindWire t

/-- The null wire of the beat on `DEC_IN`; without a beat it carries a free value. -/
def decInNull (k : Nat) (s : State) : Bool :=
  match s.decIn with
  | [] => (unsampled 1 k).getLsbD 0
  | t :: _ => DecIn.nullWire t

/-- A token moves on `ENC_IN` at the next rising edge. -/
def encInTransfers (k : Nat) (s : State) : Bool :=
  transfers (encInValid s) (driven (rst s) (encInReady s.enc (encInKind k s)))

/-- A token moves on `ENC_OUT` at the next rising edge. -/
def encOutTransfers (s : State) : Bool := transfers (driven (rst s) (encOutValid s.enc)) (encOutReady s)

/-- A token moves on `DEC_IN` at the next rising edge. -/
def decInTransfers (k : Nat) (s : State) : Bool :=
  transfers (decInValid s) (driven (rst s) (decInReady s.dec (decInNull k s)))

/-- A token moves on `DEC_OUT` at the next rising edge. -/
def decOutTransfers (s : State) : Bool := transfers (driven (rst s) (decOutValid s.dec)) (decOutReady s)

/-- The beat on `ENC_IN` as ENC samples it from the wires. -/
def encSampled (k : Nat) (s : State) : State :=
  match s.encIn with
  | [] => s
  | t :: ts => s.setEncIn (sampleEncIn s.enc (encInPins k t) :: ts)

/-- The beat on `DEC_IN` as DEC samples it from the wires. -/
def decSampled (k : Nat) (s : State) : State :=
  match s.decIn with
  | [] => s
  | t :: ts => s.setDecIn (sampleDecIn (decInPins k t) :: ts)

/-- A rising edge of `clk` as ENC sees it: with `rst = 1` its reset (R230, R33), whatever its phase; else its take of the beat
it samples, or its put, if that pair transfers; nothing otherwise. "No number of clock cycles per step is specified": an edge
at which no token moves stands for any number of cycles. -/
def encEdge (k : Nat) (s : State) : Tick :=
  if rst s then .moved ((s.setEnc (encAfterReset s.free)).setFree (s.free + 13))
  else if encInTransfers k s then encTick (encSampled k s)
  else if encOutTransfers s then encTick s
  else .waiting

/-- A rising edge of `clk` as DEC sees it. "Both units are reset together", so the free values it draws are those that
`resetUnits` gives DEC. -/
def decEdge (k : Nat) (s : State) : Tick :=
  if rst s then .moved ((s.setDec (decAfterReset (s.free + 11))).setFree (s.free + 13))
  else if decInTransfers k s then decTick (decSampled k s)
  else if decOutTransfers s then decTick s
  else .waiting

/-- The static input `cfg_legacy_byte_count` (R28). -/
def cfgLegacyByteCount (s : State) : Bool := s.cfg.legacyByteCount

end Sys2Proof.Machine
end

