-- ==== Sys2Proof/Safety.lean ====
section
/-! DEFINITION. Safety.lean: the terms claims are stated in: the start and the end of a run (spec/70_reset_and_hazards.md
R243, R244), what the host observes (spec/20_memory.md R63), what the host owes (R65, R66), being stuck (R235, R236), the
invariant of the machine, and which registers a transaction still reads (spec/10_state.md R31). -/

namespace Sys2Proof.Machine

/-! ## Start, end and observation of a run -/

/-- R244, R232: the launch state: ENC in `IDLE`, DEC in `RECV` with `CNT = 0`, the four channels empty, nothing observed
yet. -/
def Launch (s : State) : Prop :=
  s.enc.ph = .idle ∧ decIdle s.dec = true ∧ s.encIn = [] ∧ s.encOut = [] ∧ s.decIn = [] ∧ s.decOut = [] ∧
    s.host.encGot = [] ∧ s.host.decGot = []

/-- R243: the run has ended well. -/
def EndedWell (s : State) : Prop :=
  s.host.encProg = [] ∧ s.host.decProg = [] ∧ s.encIn = [] ∧ s.decIn = [] ∧ s.enc.ph = .idle ∧ decIdle s.dec = true

/-- R63, R243: the tokens the block has put on `ENC_OUT` in this run, in order. -/
def encObserved (s : State) : List EncOut := s.host.encGot ++ s.encOut

/-- R63, R243: the tokens the block has put on `DEC_OUT` in this run, in order. -/
def decObserved (s : State) : List DecOut := s.host.decGot ++ s.decOut

/-- There is room for `n` more tokens in a channel that holds `len` (R64). -/
def roomFor (cap : Option Nat) (len n : Nat) : Prop :=
  match cap with
  | none => True
  | some c => len + n ≤ c

/-- A turn of the current run: any turn but `restart`, which begins the next run (R231). An accepted `reset` falls between
transactions with the channels empty and counts as part of the run (DESIGN CHOICE, notes/assumptions/10.md). -/
def sameRun : Turn → Bool
  | .restart _ _ => false
  | .enc => true
  | .dec => true
  | .encRun => true
  | .decRun => true
  | .putEnc => true
  | .putDec => true
  | .takeEnc => true
  | .takeDec => true
  | .reset => true

/-! ## What the host owes -/

/-- One well-formed command (R65): a request, or a command token with an illegal function code, which no value tokens
follow. -/
inductive Command
  | request (r : Request)
  | illegal (fc : Byte) (addr arg : U16)
  deriving DecidableEq, Repr

/-- R65: the tokens of a command. -/
def Command.tokens : Command → List EncIn
  | .request r => r.tokens
  | .illegal fc addr arg => [.c fc addr arg]

/-- R65, R98: a request within R21's bounds, or a function code that is none of the eight. -/
def Command.wf : Command → Bool
  | .request r => r.wf
  | .illegal fc _ _ => (functionCodeOf fc).isNone

/-- R126: what ENC puts for a command. -/
def Command.outcome (cfg : Config) : Command → List EncOut
  | .request r => (encodeRequest cfg r).tokens
  | .illegal _ _ _ => [.f EncFaultCode.illegalFunction.number]

/-- R127: the number of ENC's steps for a command. -/
def Command.steps (cfg : Config) : Command → Nat
  | .request r => r.steps cfg
  | .illegal _ _ _ => 2

/-! ## Iterated unit steps -/

/-- ENC takes exactly `k` steps. -/
def encTicks : Nat → State → Option State
  | 0, s => some s
  | k + 1, s =>
    match encTick s with
    | .moved s' => encTicks k s'
    | _ => none

/-- DEC takes exactly `k` steps. -/
def decTicks : Nat → State → Option State
  | 0, s => some s
  | k + 1, s =>
    match decTick s with
    | .moved s' => decTicks k s'
    | _ => none

/-! ## The invariant -/

/-- R30, R96: reading tokens of `ENC_OUT` from a point where `k` bytes of a frame are out: how many bytes of an open
frame are out after them; none if an `F` token falls inside a frame or carries a code that is never emitted. -/
def openFrame : Nat → List EncOut → Option Nat
  | k, [] => some k
  | k, .b _ last :: ts => if last then openFrame 0 ts else openFrame (k + 1) ts
  | k, .f code :: ts => if k = 0 ∧ (code = 1 ∨ code = 2) then openFrame 0 ts else none

/-- The bytes ENC has put of the frame in flight (R26). -/
def bytesOut (e : Enc) : Nat :=
  match e.ph with
  | .idle => 0
  | .fault => 0
  | .drain => 0
  | .hdr => e.idx.toNat
  | .fetch => e.idx.toNat
  | .flush => e.idx.toNat
  | .hi => e.idx.toNat
  | .lo => e.idx.toNat
  | .pad => e.idx.toNat

/-- A function 15 command whose PDU fits (R163): `BC`, `LEN` as accepted and values left to take. -/
def CoilsInFlight (legacy : Bool) (e : Enc) : Prop :=
  e.fc = 0x0F ∧ byteCount15 legacy e.arg.toNat ≤ 255 ∧ e.bc.toNat = byteCount15 legacy e.arg.toNat ∧
    e.len.toNat = 6 + byteCount15 legacy e.arg.toNat ∧ e.rem.toNat ≤ e.arg.toNat

/-- A function 16 command whose PDU fits (R166). -/
def RegistersInFlight (e : Enc) : Prop :=
  e.fc = 0x10 ∧ byteCount16 e.arg.toNat ≤ 255 ∧ e.bc.toNat = byteCount16 e.arg.toNat ∧
    e.len.toNat = 6 + byteCount16 e.arg.toNat ∧ e.rem.toNat ≤ e.arg.toNat

/-- What ENC's registers hold in each phase: the counts of R26, R125, R128 and R168. -/
def EncInv (legacy : Bool) (e : Enc) : Prop :=
  match e.ph with
  | .idle => True
  | .hdr =>
    (CoilsInFlight legacy e ∧ e.rem = e.arg ∧ e.idx.toNat < 6 ∧ e.acc = 0 ∧ e.pos = 0) ∨
    (RegistersInFlight e ∧ e.rem = e.arg ∧ e.idx.toNat < 6) ∨
    ((functionCodeOf e.fc).isSome = true ∧ e.fc ≠ 0x0F ∧ e.fc ≠ 0x10 ∧ e.len = 5 ∧ e.rem = 0 ∧ e.idx.toNat < 5)
  | .fetch =>
    e.rem ≠ 0 ∧
    ((CoilsInFlight legacy e ∧ 6 ≤ e.idx.toNat ∧
        e.arg.toNat = e.rem.toNat + 8 * (e.idx.toNat - 6) + e.pos.toNat ∧ e.acc.toNat < 2 ^ e.pos.toNat) ∨
     (RegistersInFlight e ∧ e.idx.toNat = 6 + 2 * (e.arg.toNat - e.rem.toNat)))
  | .flush =>
    CoilsInFlight legacy e ∧ 6 ≤ e.idx.toNat ∧ 8 * (e.idx.toNat - 6) < e.arg.toNat - e.rem.toNat ∧
      e.arg.toNat - e.rem.toNat ≤ 8 * (e.idx.toNat - 6) + 8 ∧
      (e.rem = 0 ∨ e.arg.toNat - e.rem.toNat = 8 * (e.idx.toNat - 6) + 8)
  | .hi => RegistersInFlight e ∧ e.rem.toNat < e.arg.toNat ∧ e.idx.toNat = 4 + 2 * (e.arg.toNat - e.rem.toNat)
  | .lo => RegistersInFlight e ∧ e.rem.toNat < e.arg.toNat ∧ e.idx.toNat = 5 + 2 * (e.arg.toNat - e.rem.toNat)
  | .pad => CoilsInFlight legacy e ∧ legacy = true ∧ e.arg.toNat % 8 = 0 ∧ e.rem = 0 ∧ e.idx.toNat + 1 = e.len.toNat
  | .fault =>
    (e.flt = 1 ∧ functionCodeOf e.fc = none ∧ e.rem = 0) ∨
    (e.flt = 2 ∧ e.rem = e.arg ∧
      ((e.fc = 0x0F ∧ overflow15 legacy e.arg.toNat = true) ∨ (e.fc = 0x10 ∧ overflow16 e.arg.toNat = true)))
  | .drain =>
    e.flt = 2 ∧ e.rem ≠ 0 ∧ e.rem.toNat ≤ e.arg.toNat ∧
      ((e.fc = 0x0F ∧ overflow15 legacy e.arg.toNat = true) ∨ (e.fc = 0x10 ∧ overflow16 e.arg.toNat = true))

/-- R64: a channel never holds more than `CAP` tokens. -/
def withinCap (cap : Option Nat) (n : Nat) : Prop :=
  match cap with
  | none => True
  | some c => n ≤ c

/-- The invariant of the machine: ENC's registers fit its phase, `DEC.CNT` is 0, 1 or 2, `ENC_OUT` is a sequence of whole
frames and `F` tokens and at most one open frame that is as long as ENC says, and no channel is over its capacity. -/
def MachineInv (s : State) : Prop :=
  EncInv s.cfg.legacyByteCount s.enc ∧ s.dec.cnt.toNat ≤ 2 ∧ openFrame 0 (encObserved s) = some (bytesOut s.enc) ∧
    withinCap s.cfg.capEncIn s.encIn.length ∧ withinCap s.cfg.capEncOut s.encOut.length ∧
    withinCap s.cfg.capDecIn s.decIn.length ∧ withinCap s.cfg.capDecOut s.decOut.length

/-! ## Live registers (R31) -/

/-- ENC with every register that its phase and the phases after it no longer read set to 0. Of `FC` the last two phases
read nothing (R24); whether it is 15 tells which drained values are outside the input set (notes/assumptions/11.md). -/
def liveEnc (e : Enc) : Enc :=
  let acc := if e.fc = 0x0F then e.acc else 0
  let pos := if e.fc = 0x0F then e.pos else 0
  let fc := if e.fc = 0x0F ∧ e.rem ≠ 0 then e.fc else 0
  match e.ph with
  | .idle => Enc.reset
  | .hdr => { e with bc := if headerLength e.fc = 6 then e.bc else 0, acc := acc, pos := pos, val := 0, flt := 0 }
  | .fetch => { e with addr := 0, arg := 0, bc := 0, acc := acc, pos := pos, val := 0, flt := 0 }
  | .flush => { e with addr := 0, arg := 0, bc := 0, pos := 0, val := 0, flt := 0 }
  | .hi => { e with addr := 0, arg := 0, bc := 0, acc := acc, pos := pos, flt := 0 }
  | .lo => { e with addr := 0, arg := 0, bc := 0, acc := acc, pos := pos, flt := 0 }
  | .pad => { e with addr := 0, arg := 0, bc := 0, acc := acc, pos := pos, val := 0, flt := 0 }
  | .fault => { Enc.reset with ph := .fault, fc := fc, rem := e.rem, flt := e.flt }
  | .drain => { Enc.reset with ph := .drain, fc := fc, rem := e.rem }

/-- DEC with every register that is no longer read set to 0: `B0` counts once `CNT` is 1, `B1` once `CNT` is 2, and in
`RESULT` with `CNT < 2` neither is read (R186). -/
def liveDec (d : Dec) : Dec :=
  match d.ph with
  | .recv => { d with b0 := if d.cnt = 0 then 0 else d.b0, b1 := if d.cnt.toNat < 2 then 0 else d.b1 }
  | .result =>
    { d with b0 := if d.cnt.toNat < 2 then 0 else d.b0,
             b1 := if d.cnt.toNat < 2 ∨ exceptionBit d.b0 = false then 0 else d.b1 }

/-- The state as far as any later step can tell. -/
def live (s : State) : State := (s.setEnc (liveEnc s.enc)).setDec (liveDec s.dec)

/-- An outcome with its next state seen through `f`. -/
def mapNext (f : State → State) : Host.Outcome State Fault Refusal → Host.Outcome State Fault Refusal
  | .next s => .next (f s)
  | .fault r => .fault r
  | .refused r => .refused r

end Sys2Proof.Machine
end

