-- ==== Sys2Proof/Certificates/Slice0/Obligations.lean ====
section
/-! DEFINITION. Obligations.lean: the statements for the provers. Each docstring names the rules of spec/ the statement
formalises, or says what choice of the model it rests on. -/

open Sys2Proof Sys2Proof.Machine

/-! ## Reset and the runs -/

/-- R33, R244: the state after reset is the launch state; R28: the default setting. That the other registers are 0 is the
model's choice (notes/assumptions/3.md) and is not stated. -/
def Obligations.ResetIsTheLaunchState : Prop :=
  Launch State.reset ∧ State.reset.host.encProg = [] ∧ State.reset.host.decProg = [] ∧ State.reset.turns = [] ∧
    State.reset.cfg.legacyByteCount = false ∧ State.reset.cfg.wf = true

/-- R230, R231, U8: the reset pin sets `ENC.PH`, `DEC.PH` and `DEC.CNT` and leaves the configuration and the channels
alone; with a transaction in progress or a token in a channel it is refused. That it is accepted with host tokens still to
put is the model's choice (DESIGN CHOICE, notes/assumptions/10.md). -/
def Obligations.ResetPinSetsSequencersOrIsRefused : Prop :=
  ∀ (s : State) (ts : List Turn), s.turns = .reset :: ts →
    (quiet s = true → ∃ e d, step s = .next { s with enc := e, dec := d, turns := ts, free := s.free + 13 } ∧
      e.ph = .idle ∧ d.ph = .recv ∧ d.cnt = 0) ∧
    (quiet s = false → step s = .refused .midRunReset)

/-- R231, R232, R233: from any state the host can end the run; the next run starts from the launch state with its own
program, under the same configuration. That this is one turn is the model's choice (notes/assumptions/10.md). -/
def Obligations.RestartLaunchesTheNextRun : Prop :=
  ∀ (s : State) (ts : List Turn) (ep : List EncIn) (dp : List DecIn), s.turns = .restart ep dp :: ts →
    ∃ t, step s = .next t ∧ Launch t ∧ t.host.encProg = ep ∧ t.host.decProg = dp ∧ t.cfg = s.cfg ∧ t.turns = ts

/-- R28, R238: no step changes the configuration. -/
def Obligations.ConfigurationNeverChanges : Prop :=
  ∀ s t : State, step s = .next t → t.cfg = s.cfg

/-! ## A step runs the decoded instruction -/

/-- When ENC is in `IDLE` and the tokens of a well-formed request stand at the head of `ENC_IN`, ENC's run is `exec` of
that request's instruction, its tokens taken off the channel and the turn consumed. That a turn is a whole transaction is the
model's choice (DESIGN CHOICE, notes/assumptions/7.md). -/
def Obligations.EncRunTurnExecutesTheFetchedCommand : Prop :=
  ∀ (s : State) (r : Request) (rest : List EncIn) (ts : List Turn),
    r.wf = true → s.turns = .encRun :: ts → s.enc.ph = .idle → s.encIn = r.tokens ++ rest →
    step s = exec r.toInstr { s with turns := ts, encIn := rest }

/-- When DEC is between frames and the tokens of a well-formed response stand at the head of `DEC_IN`, DEC's run is
`exec` of that instruction, its tokens taken off the channel and the turn consumed (notes/assumptions/7.md). -/
def Obligations.DecRunTurnExecutesTheFetchedFrame : Prop :=
  ∀ (s : State) (i : Instr) (toks rest : List DecIn) (ts : List Turn),
    WellFormed i = true → encode i = .dec toks → s.turns = .decRun :: ts → decIdle s.dec = true →
    s.decIn = toks ++ rest →
    step s = exec i { s with turns := ts, decIn := rest }

/-- What `withFetchWord` is for (DESIGN CHOICE, notes/assumptions/8.md and 13.md): when a table word is an instruction, the next step runs exactly it,
its unit between transactions and the schedule after it as before. -/
def Obligations.AFetchWordRunsItsInstruction : Prop :=
  ∀ (s : State) (nbits w : Nat) (i : Instr), decodeTableWord nbits w = some i →
    (i.codecUnit = .enc → step (s.withFetchWord nbits w) = exec i { s with enc := { s.enc with ph := .idle } }) ∧
    (i.codecUnit = .dec → step (s.withFetchWord nbits w) = exec i { s with dec := { s.dec with ph := .recv, cnt := 0 } })

/-- R55, D29: a run of ENC is nothing but its token steps: what a turn `encRun` answers, turns `enc` answer one token at a
time. The turn `encRun` is the model's (notes/assumptions/7.md). -/
def Obligations.EncRunTurnIsItsTokenSteps : Prop :=
  ∀ (s t : State) (ts : List Turn), s.turns = .encRun :: ts → step s = .next t →
    ∃ k, core.run k { s with turns := List.replicate k .enc ++ ts } = .next t

/-- R55, D29: the same of DEC and the turn `decRun` (notes/assumptions/7.md). -/
def Obligations.DecRunTurnIsItsTokenSteps : Prop :=
  ∀ (s t : State) (ts : List Turn), s.turns = .decRun :: ts → step s = .next t →
    ∃ k, core.run k { s with turns := List.replicate k .dec ++ ts } = .next t

/-- R55, R56, R58: a step of ENC takes the oldest token of `ENC_IN` or appends one token to `ENC_OUT`, never both, and
touches nothing but that channel and ENC's registers. -/
def Obligations.EncStepMovesExactlyOneToken : Prop :=
  ∀ s t : State, encTick s = .moved t →
    (∃ x rest, s.encIn = x :: rest ∧ t = { s with enc := t.enc, encIn := rest }) ∨
    (∃ x, hasRoom s.cfg.capEncOut s.encOut.length = true ∧ t = { s with enc := t.enc, encOut := s.encOut ++ [x] })

/-- R55, R56, R58: the same of DEC. -/
def Obligations.DecStepMovesExactlyOneToken : Prop :=
  ∀ s t : State, decTick s = .moved t →
    (∃ x rest, s.decIn = x :: rest ∧ t = { s with dec := t.dec, decIn := rest }) ∨
    (∃ x, hasRoom s.cfg.capDecOut s.decOut.length = true ∧ t = { s with dec := t.dec, decOut := s.decOut ++ [x] })

/-! ## The token steps, phase by phase -/

/-- R121: the accept step takes a command token inside the input set (R94), latches it, puts nothing, and sets the other
registers as the command's code says; `LEN` is at most 261. -/
def Obligations.AcceptStepLatchesTheCommand : Prop :=
  ∀ (s : State) (fc : Byte) (a g : U16) (rest : List EncIn), s.enc.ph = .idle → s.encIn = .c fc a g :: rest →
    (fc = 5 → g.toNat ≤ 1) →
    let bc15 := if s.cfg.legacyByteCount then g.toNat / 8 + 1 else (g.toNat + 7) / 8
    let latched : Enc := { s.enc with fc := fc, addr := a, arg := g, idx := 0 }
    ∃ e, encTick s = .moved { s with encIn := rest, enc := e } ∧
      (1 ≤ fc.toNat ∧ fc.toNat ≤ 6 → e = { latched with len := 5, rem := 0, ph := .hdr }) ∧
      (fc = 15 → 255 < bc15 → e = { latched with rem := g, flt := 2, ph := .fault }) ∧
      (fc = 15 → bc15 ≤ 255 → e = { latched with
        rem := g, bc := BitVec.ofNat 8 bc15, len := BitVec.ofNat 9 (6 + bc15), acc := 0, pos := 0, ph := .hdr }) ∧
      (fc = 16 → 255 < 2 * g.toNat → e = { latched with rem := g, flt := 2, ph := .fault }) ∧
      (fc = 16 → 2 * g.toNat ≤ 255 → e = { latched with
        rem := g, bc := BitVec.ofNat 8 (2 * g.toNat), len := BitVec.ofNat 9 (6 + 2 * g.toNat), ph := .hdr }) ∧
      (fc.toNat = 0 ∨ (7 ≤ fc.toNat ∧ fc.toNat ≤ 14) ∨ 17 ≤ fc.toNat →
        e = { latched with rem := 0, flt := 1, ph := .fault }) ∧
      (e.ph = .hdr → e.len.toNat ≤ 261)

/-- R122, R125: with room the header step puts the byte of the header at `IDX`, marked `last` when `IDX = LEN - 1`, and
counts `IDX` up; after the last header byte the phase is `after_emit()`, read with the new `IDX`. -/
def Obligations.HeaderStepPutsTheByteAtIdx : Prop :=
  ∀ (s : State) (byte : Byte), s.enc.ph = .hdr → hasRoom s.cfg.capEncOut s.encOut.length = true →
    let f2 := if s.enc.fc = 5 then (if s.enc.arg.getLsbD 0 then coilOn else coilOff) else s.enc.arg
    let hdr := [s.enc.fc, hiByte s.enc.addr, loByte s.enc.addr, hiByte f2, loByte f2] ++
      (if s.enc.fc = 15 ∨ s.enc.fc = 16 then [s.enc.bc] else [])
    hdr[s.enc.idx.toNat]? = some byte →
    encTick s = .moved { s with
      encOut := s.encOut ++ [.b byte (decide (s.enc.idx.toNat + 1 = s.enc.len.toNat))],
      enc := { s.enc with
        idx := s.enc.idx + 1,
        ph := if s.enc.idx.toNat + 1 < hdr.length then .hdr
              else if s.enc.idx + 1 = s.enc.len then .idle
              else if s.enc.rem = 0 then .pad else .fetch } }

/-- R161, R162, R125: the steps of function 15: a coil goes to bit `POS` of `ACC`, a full or final group is flushed with
`ACC` and `POS` back at 0, and the legacy pad byte is 0. -/
def Obligations.CoilStepsFetchFlushAndPad : Prop :=
  ∀ s : State,
    (∀ v rest, s.enc.ph = .fetch → s.enc.fc = 15 → s.enc.rem ≠ 0 → s.encIn = .v (coilArg v) :: rest →
      encTick s = .moved { s with
        encIn := rest,
        enc := { s.enc with
          acc := s.enc.acc ||| ((if v then 1 else 0 : Byte) <<< s.enc.pos.toNat),
          rem := s.enc.rem - 1,
          pos := if s.enc.pos = 7 ∨ s.enc.rem = 1 then s.enc.pos else s.enc.pos + 1,
          ph := if s.enc.pos = 7 ∨ s.enc.rem = 1 then .flush else .fetch } }) ∧
    (s.enc.ph = .flush → hasRoom s.cfg.capEncOut s.encOut.length = true →
      encTick s = .moved { s with
        encOut := s.encOut ++ [.b s.enc.acc (decide (s.enc.idx.toNat + 1 = s.enc.len.toNat))],
        enc := { s.enc with
          idx := s.enc.idx + 1, acc := 0, pos := 0,
          ph := if s.enc.idx + 1 = s.enc.len then .idle else if s.enc.rem = 0 then .pad else .fetch } }) ∧
    (s.enc.ph = .pad → hasRoom s.cfg.capEncOut s.encOut.length = true →
      encTick s = .moved { s with
        encOut := s.encOut ++ [.b 0x00 (decide (s.enc.idx.toNat + 1 = s.enc.len.toNat))],
        enc := { s.enc with
          idx := s.enc.idx + 1,
          ph := if s.enc.idx + 1 = s.enc.len then .idle else if s.enc.rem = 0 then .pad else .fetch } })

/-- R165, R125, R51: the steps of function 16: a value is latched, its high byte goes out, then its low byte. -/
def Obligations.RegisterStepsFetchHiAndLo : Prop :=
  ∀ s : State,
    (∀ v rest, s.enc.ph = .fetch → s.enc.fc = 16 → s.enc.rem ≠ 0 → s.encIn = .v v :: rest →
      encTick s = .moved { s with
        encIn := rest, enc := { s.enc with val := v, rem := s.enc.rem - 1, ph := .hi } }) ∧
    (s.enc.ph = .hi → hasRoom s.cfg.capEncOut s.encOut.length = true →
      encTick s = .moved { s with
        encOut := s.encOut ++ [.b (s.enc.val.extractLsb' 8 8) (decide (s.enc.idx.toNat + 1 = s.enc.len.toNat))],
        enc := { s.enc with idx := s.enc.idx + 1, ph := .lo } }) ∧
    (s.enc.ph = .lo → hasRoom s.cfg.capEncOut s.encOut.length = true →
      encTick s = .moved { s with
        encOut := s.encOut ++ [.b (s.enc.val.extractLsb' 0 8) (decide (s.enc.idx.toNat + 1 = s.enc.len.toNat))],
        enc := { s.enc with
          idx := s.enc.idx + 1,
          ph := if s.enc.idx + 1 = s.enc.len then .idle else if s.enc.rem = 0 then .pad else .fetch } })

/-- R123, R124, R210: delivering a fault: with room the one token `F(ENC.FLT)` goes out, and ENC goes to `DRAIN` if values are
owed, else to `IDLE`; a drain step discards one value of the input set (of a function 15 command 0 or 1, R95, of a function 16
command any), and the last one brings ENC to `IDLE`. No other register changes. -/
def Obligations.FaultStepDeliversAndDrains : Prop :=
  ∀ s : State,
    (s.enc.ph = .fault → hasRoom s.cfg.capEncOut s.encOut.length = true →
      encTick s = .moved { s with
        encOut := s.encOut ++ [.f s.enc.flt],
        enc := { s.enc with ph := if s.enc.rem = 0 then .idle else .drain } }) ∧
    (∀ v rest, s.enc.ph = .drain → s.enc.rem ≠ 0 → s.encIn = .v v :: rest → (s.enc.fc = 15 → v.toNat ≤ 1) →
      encTick s = .moved { s with
        encIn := rest,
        enc := { s.enc with rem := s.enc.rem - 1, ph := if s.enc.rem = 1 then .idle else .drain } })

/-- R184, R185, R186: the steps of DEC: byte 0 goes to `B0`, byte 1 to `B1`, later bytes nowhere, `last` and `EMPTY` bring
`RESULT`, and with room the result is put from the registers. -/
def Obligations.DecStepsReceiveAndClassify : Prop :=
  ∀ s : State,
    (∀ byte last rest, s.dec.ph = .recv → s.decIn = .b byte last :: rest →
      decTick s = .moved { s with
        decIn := rest,
        dec := {
          ph := if last then .result else .recv
          b0 := if s.dec.cnt = 0 then byte else s.dec.b0
          b1 := if s.dec.cnt = 1 then byte else s.dec.b1
          cnt := if s.dec.cnt = 0 then 1 else if s.dec.cnt = 1 then 2 else s.dec.cnt } }) ∧
    (∀ rest, s.dec.ph = .recv → s.dec.cnt = 0 → s.decIn = .empty :: rest →
      decTick s = .moved { s with decIn := rest, dec := { s.dec with ph := .result } }) ∧
    (s.dec.ph = .result → hasRoom s.cfg.capDecOut s.decOut.length = true →
      decTick s = .moved { s with
        decOut := s.decOut ++ [
          if s.dec.cnt.toNat < 2 then .malformed
          else if s.dec.b0.getLsbD 7 then .exception (s.dec.b0 &&& 0x7F) s.dec.b1
            (if s.dec.b1 = 2 then .illegalDataAddress else if s.dec.b1 = 3 then .illegalDataValue
              else if s.dec.b1 = 4 then .serverDeviceFailure else .unknownModbusException)
          else .normal s.dec.b0],
        dec := { s.dec with cnt := 0, ph := .recv } })

/-! ## The ENC operations: results, frames, completion -/

/-- R140 to R143: each read request, from ENC in `IDLE` with room for five tokens, completes: the five bytes of its PDU
are put on `ENC_OUT`, `last` on the fifth, for every pair of operands, and nothing else changes but ENC's registers, as
R121 and R122 leave them. -/
def Obligations.ReadRequestsPutTheirFiveBytes : Prop :=
  ∀ (s : State) (a q : U16),
    encodeRequest s.cfg (.readCoils a q) = .pdu [0x01, hiByte a, loByte a, hiByte q, loByte q] ∧
    encodeRequest s.cfg (.readDiscreteInputs a q) = .pdu [0x02, hiByte a, loByte a, hiByte q, loByte q] ∧
    encodeRequest s.cfg (.readHoldingRegisters a q) = .pdu [0x03, hiByte a, loByte a, hiByte q, loByte q] ∧
    encodeRequest s.cfg (.readInputRegisters a q) = .pdu [0x04, hiByte a, loByte a, hiByte q, loByte q] ∧
    (s.enc.ph = .idle → roomFor s.cfg.capEncOut s.encOut.length 5 →
      exec (.readCoils a q) s = .next { s with
        encOut := s.encOut ++
          [.b 0x01 false, .b (hiByte a) false, .b (loByte a) false, .b (hiByte q) false, .b (loByte q) true],
        enc := { s.enc with fc := 0x01, addr := a, arg := q, len := 5, idx := 5, rem := 0 } } ∧
      exec (.readDiscreteInputs a q) s = .next { s with
        encOut := s.encOut ++
          [.b 0x02 false, .b (hiByte a) false, .b (loByte a) false, .b (hiByte q) false, .b (loByte q) true],
        enc := { s.enc with fc := 0x02, addr := a, arg := q, len := 5, idx := 5, rem := 0 } } ∧
      exec (.readHoldingRegisters a q) s = .next { s with
        encOut := s.encOut ++
          [.b 0x03 false, .b (hiByte a) false, .b (loByte a) false, .b (hiByte q) false, .b (loByte q) true],
        enc := { s.enc with fc := 0x03, addr := a, arg := q, len := 5, idx := 5, rem := 0 } } ∧
      exec (.readInputRegisters a q) s = .next { s with
        encOut := s.encOut ++
          [.b 0x04 false, .b (hiByte a) false, .b (loByte a) false, .b (hiByte q) false, .b (loByte q) true],
        enc := { s.enc with fc := 0x04, addr := a, arg := q, len := 5, idx := 5, rem := 0 } })

/-- R150, R88: `write_single_coil` completes; the value field is the constant `COIL_ON` for `true` and `COIL_OFF` for
`false`, both bytes of it `0xFF` or both `0x00`, and the command's `arg` is 1 or 0; any other `arg` is refused. -/
def Obligations.WriteSingleCoilPutsFFFFor0000 : Prop :=
  (be16 coilOn = [0xFF, 0xFF] ∧ be16 coilOff = [0x00, 0x00]) ∧
  ∀ (s : State) (a : U16) (v : Bool),
    encodeRequest s.cfg (.writeSingleCoil a v) = .pdu [0x05, hiByte a, loByte a,
      hiByte (if v then coilOn else coilOff), loByte (if v then coilOn else coilOff)] ∧
    (s.enc.ph = .idle → roomFor s.cfg.capEncOut s.encOut.length 5 →
      exec (.writeSingleCoil a v) s = .next { s with
        encOut := s.encOut ++
          [.b 0x05 false, .b (hiByte a) false, .b (loByte a) false, .b (hiByte (if v then coilOn else coilOff)) false,
            .b (loByte (if v then coilOn else coilOff)) true],
        enc := { s.enc with fc := 0x05, addr := a, arg := if v then 1 else 0, len := 5, idx := 5, rem := 0 } }) ∧
    (s.enc.ph = .idle → ∀ g rest, s.encIn = .c 0x05 a g :: rest → 2 ≤ g.toNat → encTick s = .refused .coilArgument)

/-- R151: `write_single_register` completes with the value big-endian in bytes 3 and 4. -/
def Obligations.WriteSingleRegisterPutsTheValue : Prop :=
  ∀ (s : State) (a v : U16),
    encodeRequest s.cfg (.writeSingleRegister a v) = .pdu [0x06, hiByte a, loByte a, hiByte v, loByte v] ∧
    (s.enc.ph = .idle → roomFor s.cfg.capEncOut s.encOut.length 5 →
      exec (.writeSingleRegister a v) s = .next { s with
        encOut := s.encOut ++
          [.b 0x06 false, .b (hiByte a) false, .b (loByte a) false, .b (hiByte v) false, .b (loByte v) true],
        enc := { s.enc with fc := 0x06, addr := a, arg := v, len := 5, idx := 5, rem := 0 } })

/-- R160: `write_multiple_coils` whose byte_count fits completes with the whole PDU, under either setting and for every
number of coils from none; the registers end as R121, R161 and R162 leave them. (One whose byte_count does not fit:
`OverflowPutsOneFaultTokenAndDrains`.) -/
def Obligations.WriteMultipleCoilsPutsThePackedPdu : Prop :=
  (∀ (cfg : Config) (a : U16) (vs : List Bool), encodeRequest cfg (.writeMultipleCoils a vs) =
    if 255 < byteCount15 cfg.legacyByteCount vs.length then .encFault .overflow
    else .pdu ([0x0F, hiByte a, loByte a, hiByte (BitVec.ofNat 16 vs.length), loByte (BitVec.ofNat 16 vs.length),
      BitVec.ofNat 8 (byteCount15 cfg.legacyByteCount vs.length)] ++ packed15 cfg.legacyByteCount vs)) ∧
  (∀ (legacy : Bool) (vs : List Bool), (packed15 legacy vs).length = byteCount15 legacy vs.length ∧
    packed15 legacy vs = pack vs ++ (if legacy = true ∧ vs.length % 8 = 0 then [0x00] else []) ∧
    byteCount15 false vs.length = (vs.length + 7) / 8) ∧
  ∀ (s : State) (a : U16) (vs : List Bool), s.enc.ph = .idle → vs.length ≤ 65535 →
    byteCount15 s.cfg.legacyByteCount vs.length ≤ 255 →
    roomFor s.cfg.capEncOut s.encOut.length (6 + byteCount15 s.cfg.legacyByteCount vs.length) →
    exec (.writeMultipleCoils a vs) s = .next { s with
      encOut := s.encOut ++ pduTokens (
        [0x0F, hiByte a, loByte a, hiByte (BitVec.ofNat 16 vs.length), loByte (BitVec.ofNat 16 vs.length),
          BitVec.ofNat 8 (byteCount15 s.cfg.legacyByteCount vs.length)] ++ packed15 s.cfg.legacyByteCount vs),
      enc := { s.enc with
        fc := 0x0F, addr := a, arg := BitVec.ofNat 16 vs.length,
        bc := BitVec.ofNat 8 (byteCount15 s.cfg.legacyByteCount vs.length),
        len := BitVec.ofNat 9 (6 + byteCount15 s.cfg.legacyByteCount vs.length),
        idx := BitVec.ofNat 9 (6 + byteCount15 s.cfg.legacyByteCount vs.length),
        rem := 0, acc := 0, pos := 0 } }

/-- R164: `write_multiple_registers` with at most 127 registers completes with the whole PDU, each register big-endian;
`ENC.VAL` holds the last value (R165). -/
def Obligations.WriteMultipleRegistersPutsTheRegisters : Prop :=
  (∀ (cfg : Config) (a : U16) (vs : List U16), encodeRequest cfg (.writeMultipleRegisters a vs) =
    if 255 < 2 * vs.length then .encFault .overflow
    else .pdu ([0x10, hiByte a, loByte a, hiByte (BitVec.ofNat 16 vs.length), loByte (BitVec.ofNat 16 vs.length),
      BitVec.ofNat 8 (2 * vs.length)] ++ vs.flatMap (fun v => [hiByte v, loByte v]))) ∧
  ∀ (s : State) (a : U16) (vs : List U16), s.enc.ph = .idle → vs.length ≤ 127 →
    roomFor s.cfg.capEncOut s.encOut.length (6 + 2 * vs.length) →
    exec (.writeMultipleRegisters a vs) s = .next { s with
      encOut := s.encOut ++ pduTokens (
        [0x10, hiByte a, loByte a, hiByte (BitVec.ofNat 16 vs.length), loByte (BitVec.ofNat 16 vs.length),
          BitVec.ofNat 8 (2 * vs.length)] ++ vs.flatMap (fun v => [hiByte v, loByte v])),
      enc := { s.enc with
        fc := 0x10, addr := a, arg := BitVec.ofNat 16 vs.length, bc := BitVec.ofNat 8 (2 * vs.length),
        len := BitVec.ofNat 9 (6 + 2 * vs.length), idx := BitVec.ofNat 9 (6 + 2 * vs.length), rem := 0,
        val := vs.getLastD s.enc.val } }

/-- R163, R166, R204, R124: a multiple write whose byte_count exceeds 255 puts the one token `F(2)` and no byte, and its
values are drained; ENC is back in `IDLE`. -/
def Obligations.OverflowPutsOneFaultTokenAndDrains : Prop :=
  ∀ (s : State) (a : U16), s.enc.ph = .idle → roomFor s.cfg.capEncOut s.encOut.length 1 →
    (∀ vs : List Bool, vs.length ≤ 65535 → 255 < byteCount15 s.cfg.legacyByteCount vs.length →
      exec (.writeMultipleCoils a vs) s = .next { s with
        encOut := s.encOut ++ [.f 2],
        enc := { s.enc with fc := 0x0F, addr := a, arg := BitVec.ofNat 16 vs.length, idx := 0, rem := 0, flt := 2 } }) ∧
    (∀ vs : List U16, vs.length ≤ 65535 → 255 < 2 * vs.length →
      exec (.writeMultipleRegisters a vs) s = .next { s with
        encOut := s.encOut ++ [.f 2],
        enc := { s.enc with fc := 0x10, addr := a, arg := BitVec.ofNat 16 vs.length, idx := 0, rem := 0, flt := 2 } })

/-- R203, R98: a command whose function code is none of the eight takes two steps: it is accepted, and `F(1)` is put;
`addr` and `arg` are latched, no value token is taken, no byte is put, and ENC is in `IDLE`. No request gives this fault
at level L0. -/
def Obligations.IllegalFunctionPutsFaultOneInTwoSteps : Prop :=
  (∀ (s : State) (fc : Byte) (a g : U16) (rest : List EncIn), s.enc.ph = .idle →
    s.encIn = .c fc a g :: rest → functionCodeOf fc = none → roomFor s.cfg.capEncOut s.encOut.length 1 →
    encTicks 2 s = some { s with
      encIn := rest, encOut := s.encOut ++ [.f 1],
      enc := { s.enc with fc := fc, addr := a, arg := g, idx := 0, rem := 0, flt := 1 } }) ∧
  ∀ (cfg : Config) (r : Request), encodeRequest cfg r ≠ .encFault .illegalFunction

/-- R168, R62: the six header bytes of a function 15 or 16 command depend on its command token alone: with no value token
supplied ENC puts them in six steps after the accept and then waits, if it owes a value. -/
def Obligations.HeaderNeedsNoValueToken : Prop :=
  ∀ (s : State) (a n : U16), s.enc.ph = .idle → n ≠ 0 → roomFor s.cfg.capEncOut s.encOut.length 6 →
    (s.encIn = [.c 0x0F a n] → byteCount15 s.cfg.legacyByteCount n.toNat ≤ 255 →
      ∃ t, encTicks 7 s = some t ∧ encTick t = .waiting ∧ t.encOut = s.encOut ++
        [.b 0x0F false, .b (hiByte a) false, .b (loByte a) false, .b (hiByte n) false, .b (loByte n) false,
          .b (BitVec.ofNat 8 (byteCount15 s.cfg.legacyByteCount n.toNat)) false]) ∧
    (s.encIn = [.c 0x10 a n] → n.toNat ≤ 127 →
      ∃ t, encTicks 7 s = some t ∧ encTick t = .waiting ∧ t.encOut = s.encOut ++
        [.b 0x10 false, .b (hiByte a) false, .b (loByte a) false, .b (hiByte n) false, .b (loByte n) false,
          .b (BitVec.ofNat 8 (2 * n.toNat)) false])

/-- R126, R127: the contract between the token machine and `encode`: for every well-formed command, from ENC in `IDLE` with
its tokens at the head of `ENC_IN` and room for what it puts, exactly `steps` steps take exactly its tokens, put exactly
the frame of `encode`'s PDU or the one `F` token, and end in `IDLE`; nothing else changes. -/
def Obligations.TokenMachineMeetsEncode : Prop :=
  ∀ (s : State) (c : Command) (rest : List EncIn), c.wf = true → s.enc.ph = .idle → s.encIn = c.tokens ++ rest →
    roomFor s.cfg.capEncOut s.encOut.length (c.outcome s.cfg).length →
    ∃ e, e.ph = .idle ∧ encTicks (c.steps s.cfg) s = some { s with
      enc := e, encIn := rest, encOut := s.encOut ++ c.outcome s.cfg }

/-- The model's convention for an instruction whose unit is busy (DESIGN CHOICE, notes/assumptions/7.md and 13.md): all its
tokens are laid at the head of the unit's input channel, whether or not that has room, and nothing else changes. Of R59 it
rests on this: ENC takes a command only in `IDLE`, and DEC a frame only between frames. -/
def Obligations.ABusyUnitLeavesTheInstructionWaiting : Prop :=
  ∀ (s : State) (i : Instr),
    (∀ ts, encode i = .enc ts → s.enc.ph ≠ .idle → exec i s = .next { s with encIn := ts ++ s.encIn }) ∧
    (∀ ts, encode i = .dec ts → decIdle s.dec = false → exec i s = .next { s with decIn := ts ++ s.decIn })

/-- R60, R64, R215: no well-formed instruction ends in a stop, whatever the room on the output channel, and none touches
anything but its own unit's registers and channels. That it answers a next state with its unit busy, or with no room for its
tokens on the input channel, is the model's convention (DESIGN CHOICE, notes/assumptions/7.md and 13.md). -/
def Obligations.EveryInstructionAnswersANextStateOfItsOwnUnit : Prop :=
  ∀ (s : State) (i : Instr), WellFormed i = true →
    ∃ t, exec i s = .next t ∧
      (i.codecUnit = .enc → t = { s with enc := t.enc, encIn := t.encIn, encOut := t.encOut }) ∧
      (i.codecUnit = .dec → t = { s with dec := t.dec, decIn := t.decIn, decOut := t.decOut })

/-! ## Refused, stuck and waiting -/

/-- R94, R95, R98, R239: a coil that is not 0 or 1 is refused: `arg` of function 5 at the accept, a value token of function
15 at the fetch, or at the drain of a command that overflows (R65: the duty holds "whether or not the command faults";
notes/assumptions/11.md). -/
def Obligations.NonBooleanCoilsAreRefused : Prop :=
  ∀ (s : State),
    (∀ a g rest, s.enc.ph = .idle → s.encIn = .c 0x05 a g :: rest → 2 ≤ g.toNat →
      encTick s = .refused .coilArgument) ∧
    (∀ v rest, s.enc.ph = .fetch ∨ s.enc.ph = .drain → s.enc.fc = 0x0F → s.enc.rem ≠ 0 → s.encIn = .v v :: rest →
      2 ≤ v.toNat →
      encTick s = .refused .coilValue)

/-- R235: the wrong kind of token at the head of `ENC_IN` leaves ENC stuck; R236: `EMPTY` inside a frame leaves DEC
stuck. The names of the stops are the model's (notes/assumptions/6.md). -/
def Obligations.ProtocolBreaksLeaveTheUnitStuck : Prop :=
  ∀ s : State,
    (∀ v rest, s.enc.ph = .idle → s.encIn = .v v :: rest → encTick s = .stuck .encStuckOnValue) ∧
    (∀ fc a g rest, s.enc.ph = .fetch ∨ s.enc.ph = .drain → s.encIn = .c fc a g :: rest →
      encTick s = .stuck .encStuckOnCommand) ∧
    (∀ rest, s.dec.ph = .recv → s.dec.cnt ≠ 0 → s.decIn = .empty :: rest → decTick s = .stuck .decStuckOnEmpty)

/-- R235, R236, R230: "nothing lifts it but reset": a step of the same run leaves a stuck ENC stuck, and a stuck DEC stuck, with
the same reason and the same registers. Which turns belong to the same run is the model's choice (notes/assumptions/10.md). -/
def Obligations.OnlyRestartLiftsAStuckEnc : Prop :=
  ∀ (s t : State) (f : Fault), (∀ x ∈ s.turns, sameRun x = true) → step s = .next t →
    (encTick s = .stuck f → encTick t = .stuck f ∧ t.enc = s.enc) ∧
    (decTick s = .stuck f → decTick t = .stuck f ∧ t.dec = s.dec)

/-- R64: a unit whose step is a `take` from an empty channel or a `put` on a full one holds, and these are the only cases in
which ENC or DEC waits. That a waiting unit's turn is consumed and the rest of the state kept, and that `HDR` with no header
byte at `IDX` is no wait, is the model's (notes/assumptions/6.md: DESIGN CHOICE and DEDUCED). -/
def Obligations.AWaitingUnitHolds : Prop :=
  ∀ (s : State) (ts : List Turn),
    (s.turns = .enc :: ts → encTick s = .waiting → step s = .next { s with turns := ts }) ∧
    (s.turns = .dec :: ts → decTick s = .waiting → step s = .next { s with turns := ts }) ∧
    (encTick s = .waiting ↔
      (((s.enc.ph = .idle ∨ s.enc.ph = .fetch ∨ s.enc.ph = .drain) ∧ s.encIn = []) ∨
       (encOutValid s.enc = true ∧ (s.enc.ph = .hdr → s.enc.idx.toNat < headerLength s.enc.fc) ∧
         hasRoom s.cfg.capEncOut s.encOut.length = false))) ∧
    (decTick s = .waiting ↔
      ((s.dec.ph = .recv ∧ s.decIn = []) ∨
       (s.dec.ph = .result ∧ hasRoom s.cfg.capDecOut s.decOut.length = false)))

/-! ## DEC -/

/-- R180, R181, R183, R186: an exception response completes: DEC takes the frame, ignores the bytes from index 2 on, and
puts one `EXCEPTION` result with the clear function code, the error code and its class. -/
def Obligations.ExceptionResponsePutsItsCodeAndClass : Prop :=
  ∀ (s : State) (fc : BitVec 7) (code : Byte) (extra : List Byte), decIdle s.dec = true →
    roomFor s.cfg.capDecOut s.decOut.length 1 →
    exec (.decodeResponseExc fc code extra) s = .next { s with
      decOut := s.decOut ++ [.exception (fc.setWidth 8) code
        (if code = 2 then .illegalDataAddress else if code = 3 then .illegalDataValue
          else if code = 4 then .serverDeviceFailure else .unknownModbusException)],
      dec := { ph := .recv, cnt := 0, b0 := fc.setWidth 8 ||| 0x80, b1 := code } }

/-- R180, R186, R188: a normal response completes: one `NORMAL` result with byte 0; the payload is not re-emitted. -/
def Obligations.NormalResponsePutsItsFunctionCode : Prop :=
  ∀ (s : State) (fc b1 : Byte) (rest : List Byte), decIdle s.dec = true → fc.getLsbD 7 = false →
    roomFor s.cfg.capDecOut s.decOut.length 1 →
    exec (.decodeResponseNrm fc (b1 :: rest)) s = .next { s with
      decOut := s.decOut ++ [.normal fc], dec := { ph := .recv, cnt := 0, b0 := fc, b1 := b1 } }

/-- R187: the contract between the token machine and `decode`: for every frame, of any length, exactly `frameSteps` steps
take exactly the frame's tokens, put exactly the one result of `decode` without its payload, and end in `RECV` with
`CNT = 0`; nothing else changes. -/
def Obligations.TokenMachineMeetsDecode : Prop :=
  ∀ (s : State) (bs : List Byte) (rest : List DecIn), decIdle s.dec = true → s.decIn = frameTokens bs ++ rest →
    roomFor s.cfg.capDecOut s.decOut.length 1 →
    ∃ d, decIdle d = true ∧ decTicks (if bs = [] then 2 else bs.length + 1) s = some { s with
      dec := d, decIn := rest, decOut := s.decOut ++ [(decodeResponse bs).token] }

/-- R180, R188, R202, R209: `decode` is `Malformed` exactly on fewer than 2 bytes, bit 7 of byte 0 tells the other two
apart, and a normal result loses nothing of its input. -/
def Obligations.DecodeClassifiesByLengthThenBit7 : Prop :=
  ∀ bs : List Byte,
    (decodeResponse bs = .malformed ↔ bs.length < 2) ∧
    (∀ fc payload, decodeResponse bs = .normal fc payload ↔
      (2 ≤ bs.length ∧ fc :: payload = bs ∧ fc.getLsbD 7 = false)) ∧
    (∀ fc code cls, decodeResponse bs = .exception fc code cls ↔
      ∃ b0 rest, bs = b0 :: code :: rest ∧ b0.getLsbD 7 = true ∧ fc = b0.extractLsb' 0 7 ∧ cls = classify code)

/-- R86, R81: every PDU that `encode` gives has bit 7 of byte 0 clear and at least 5 bytes, so DEC classes it normal. -/
def Obligations.EncodedRequestsAreNormalToDec : Prop :=
  ∀ (cfg : Config) (r : Request) (bs : List Byte), encodeRequest cfg r = .pdu bs →
    5 ≤ bs.length ∧ bs.length ≤ 261 ∧ ∃ fc payload, decodeResponse bs = .normal fc payload ∧ fc :: payload = bs

/-! ## Coil packing -/

/-- R89, R92: packing then unpacking recovers every boolean sequence, `pack` has `ceil(n/8)` bytes, and the bits beyond the
sequence are 0. -/
def Obligations.PackThenUnpackIsIdentity : Prop :=
  ∀ vs : List Bool,
    unpack (pack vs) vs.length = vs ∧ (pack vs).length = (vs.length + 7) / 8 ∧
    ∀ j k, k < 8 → ((pack vs).getD j 0).getLsbD k = vs.getD (8 * j + k) false

/-- R90: under either setting the packed field has exactly byte_count bytes and unpacks to the sequence; the byte_count is
`ceil(n/8)` in the exact setting and `floor(n/8) + 1` in the legacy setting, one more exactly when 8 divides `n`, and then
the extra byte is a zero at the end. -/
def Obligations.PackedFieldHasByteCountBytes : Prop :=
  ∀ (legacy : Bool) (vs : List Bool),
    (packed15 legacy vs).length = byteCount15 legacy vs.length ∧ unpack (packed15 legacy vs) vs.length = vs ∧
    packed15 legacy vs = pack vs ++ (if legacy = true ∧ vs.length % 8 = 0 then [0x00] else []) ∧
    byteCount15 false vs.length = (vs.length + 7) / 8 ∧ byteCount15 true vs.length = vs.length / 8 + 1 ∧
    byteCount15 true vs.length = byteCount15 false vs.length + (if vs.length % 8 = 0 then 1 else 0)

/-- R167: empty sequences are encoded, not refused: the PDUs, and the tokens they come out as, `last` on the byte_count
byte, or on the one zero byte in the legacy setting of function 15. -/
def Obligations.EmptySequencesAreEncoded : Prop :=
  (∀ (cfg : Config) (a : U16),
    encodeRequest cfg (.writeMultipleCoils a []) = .pdu (
      if cfg.legacyByteCount then [0x0F, hiByte a, loByte a, 0x00, 0x00, 0x01, 0x00]
      else [0x0F, hiByte a, loByte a, 0x00, 0x00, 0x00]) ∧
    encodeRequest cfg (.writeMultipleRegisters a []) = .pdu [0x10, hiByte a, loByte a, 0x00, 0x00, 0x00]) ∧
  ∀ (s : State) (a : U16), s.enc.ph = .idle → roomFor s.cfg.capEncOut s.encOut.length 7 →
    (∃ e, e.ph = .idle ∧ exec (.writeMultipleCoils a []) s = .next { s with
      enc := e,
      encOut := s.encOut ++
        [.b 0x0F false, .b (hiByte a) false, .b (loByte a) false, .b 0x00 false, .b 0x00 false] ++
        (if s.cfg.legacyByteCount then [.b 0x01 false, .b 0x00 true] else [.b 0x00 true]) }) ∧
    (∃ e, e.ph = .idle ∧ exec (.writeMultipleRegisters a []) s = .next { s with
      enc := e,
      encOut := s.encOut ++
        [.b 0x10 false, .b (hiByte a) false, .b (loByte a) false, .b 0x00 false, .b 0x00 false, .b 0x00 true] })

/-- R163, R166: the thresholds: function 15 encodes at most 2040 coils in the exact setting and 2039 in the legacy one,
function 16 at most 127 registers; everything above faults. -/
def Obligations.OverflowThresholds : Prop :=
  ∀ (cfg : Config) (a : U16),
    (∀ vs : List Bool, encodeRequest cfg (.writeMultipleCoils a vs) = .encFault .overflow ↔
      (if cfg.legacyByteCount then 2040 else 2041) ≤ vs.length) ∧
    (∀ vs : List U16, encodeRequest cfg (.writeMultipleRegisters a vs) = .encFault .overflow ↔ 128 ≤ vs.length)

/-! ## Encoding -/

/-- R94 to R96, R66: decoding the tokens of a well-formed instruction gives it back, whatever tokens follow. -/
def Obligations.DecodeOfEncodedTokensIsTheInstruction : Prop :=
  ∀ i : Instr, WellFormed i = true →
    (∀ ts rest, encode i = .enc ts → decode (.enc (ts ++ rest)) = .ok (i, .enc rest)) ∧
    (∀ ts rest, encode i = .dec ts → decode (.dec (ts ++ rest)) = .ok (i, .dec rest))

/-- R82 to R84, R93: reading the PDU of a well-formed request gives its instruction back, under either setting and
whatever bytes follow; every request but an overflowing multiple write has a PDU. -/
def Obligations.DecodeOfPduBytesIsTheRequest : Prop :=
  ∀ (legacy : Bool) (r : Request) (bs rest : List Byte), r.wf = true → r.toInstr.bytes legacy = some bs →
    decodeRequest (bs ++ rest) = .ok (r.toInstr, rest)

/-- R85, R86: reading the frame of a well-formed DEC instruction gives it back. -/
def Obligations.DecodeOfFrameBytesIsTheResponse : Prop :=
  ∀ (legacy : Bool) (i : Instr) (bs : List Byte), WellFormed i = true → i.codecUnit = .dec → i.bytes legacy = some bs →
    decodeFrame bs = .ok i

/-- R20, R81, R98: the eight function codes, the values they have, and the 248 illegal values; byte 0 of every PDU ENC
produces is one of the eight. -/
def Obligations.EightFunctionCodesAnd248IllegalValues : Prop :=
  [FunctionCode.readCoils, .readDiscreteInputs, .readHoldingRegisters, .readInputRegisters, .writeSingleCoil,
    .writeSingleRegister, .writeMultipleCoils, .writeMultipleRegisters].map (fun c => c.value.toNat) =
    [1, 2, 3, 4, 5, 6, 15, 16] ∧
  (∀ (fc : Byte) (c : FunctionCode), functionCodeOf fc = some c ↔ fc = c.value) ∧
  (∀ fc : Byte, functionCodeOf fc = none ↔
    (fc.toNat = 0 ∨ (7 ≤ fc.toNat ∧ fc.toNat ≤ 14) ∨ 17 ≤ fc.toNat)) ∧
  ((List.range 256).filter (fun n => (functionCodeOf (BitVec.ofNat 8 n)).isNone)).length = 248 ∧
  (∀ (cfg : Config) (r : Request) (bs : List Byte), encodeRequest cfg r = .pdu bs →
    ∃ c : FunctionCode, bs.head? = some c.value)

/-- R82 to R86: words written out from the spec's formats decode to the instructions they stand for. -/
def Obligations.WrittenOutWordsDecode : Prop :=
  decodeRequest [0x01, 0x00, 0x00, 0x00, 0x03] = .ok (.readCoils 0 3, []) ∧
  decodeRequest [0x05, 0x00, 0xAC, 0xFF, 0xFF] = .ok (.writeSingleCoil 0x00AC true, []) ∧
  decodeRequest [0x06, 0x01, 0x00, 0x00, 0x01] = .ok (.writeSingleRegister 0x0100 0x0001, []) ∧
  decodeRequest [0x0F, 0x00, 0x00, 0x00, 0x09, 0x02, 0x0D, 0x01] =
    .ok (.writeMultipleCoils 0 [true, false, true, true, false, false, false, false, true], []) ∧
  decodeRequest [0x10, 0x00, 0x10, 0x00, 0x02, 0x04, 0x12, 0x34, 0xAB, 0xCD] =
    .ok (.writeMultipleRegisters 0x0010 [0x1234, 0xABCD], []) ∧
  decodeFrame [0x83, 0x03] = .ok (.decodeResponseExc 3 3 []) ∧
  decodeFrame [0x03, 0x02, 0x00, 0x2A] = .ok (.decodeResponseNrm 3 [0x02, 0x00, 0x2A])

/-- R104, R97: on the default pins every token of the input set survives the wires, whatever the wires that are not sampled
carry; of a coil outside the input set only bit 0 is sampled (R239: it "would silently use bit 0"). -/
def Obligations.TokensSurviveThePins : Prop :=
  ∀ (k : Nat) (e : Enc),
    (∀ fc a g, (fc = 5 → g.toNat ≤ 1) → sampleEncIn e (encInPins k (.c fc a g)) = .c fc a g) ∧
    (∀ a g, sampleEncIn e (encInPins k (.c 5 a g)) = .c 5 a (if g.getLsbD 0 then 1 else 0)) ∧
    (∀ v, (e.fc = 15 → v.toNat ≤ 1) → sampleEncIn e (encInPins k (.v v)) = .v v) ∧
    (∀ v, e.fc = 15 → sampleEncIn e (encInPins k (.v v)) = .v (if v.getLsbD 0 then 1 else 0)) ∧
    (∀ t : EncOut, (∀ c, t = .f c → (encOutPins k t).last = true) ∧ sampleEncOut (encOutPins k t) = t) ∧
    (∀ t : DecIn, sampleDecIn (decInPins k t) = t) ∧
    (∀ t : DecOut, sampleDecOut (decOutPins k t) = some t)

/-- R104, R64, R235, R236: the valid/ready pairs while `rst` is 0. Under the invariant a token moves on one of a unit's two pairs exactly when
the unit has a step or ENC's beat is a coil that the model refuses, so not for a stuck or waiting unit. The edge is then that
step, or for a refused coil the step on the coil its bit 0 stands for. Where the two ends of a pair stand is the model's
choice (notes/assumptions/9.md). -/
def Obligations.ATransferOnTheWiresIsTheUnitsStep : Prop :=
  ∀ (k : Nat) (s : State), MachineInv s → rst s = false →
    ((encInTransfers k s = true ∨ encOutTransfers s = true) ↔
      ((∃ t, encTick s = .moved t) ∨ ∃ r, encTick s = .refused r)) ∧
    (∀ t, encTick s = .moved t → encEdge k s = .moved t) ∧
    (∀ r, encTick s = .refused r → (∃ t, encEdge k s = .moved t) ∧
      ((∃ a g ts, s.encIn = .c 5 a g :: ts ∧
          encEdge k s = encTick (s.setEncIn (.c 5 a (if g.getLsbD 0 then 1 else 0) :: ts))) ∨
        ∃ v ts, s.enc.fc = 15 ∧ s.encIn = .v v :: ts ∧
          encEdge k s = encTick (s.setEncIn (.v (if v.getLsbD 0 then 1 else 0) :: ts)))) ∧
    ((decInTransfers k s = true ∨ decOutTransfers s = true) ↔ ∃ t, decTick s = .moved t) ∧
    (∀ t, decTick s = .moved t → decEdge k s = .moved t)

/-- R104, R230, R33: the reset wire. `rst` is 1 at the reset turn and at the turn that starts the next run, and at no other. At
an edge with `rst = 1` no token moves, and both units are reset together, whatever their phases, the channels and the
configuration untouched; where the machine's step of that turn answers a next state, the edge leaves the units' registers as
that step does. That no token moves there, and that in mid-run the wires reset where the machine refuses, is the model's
choice (DESIGN CHOICE, notes/assumptions/9.md). -/
def Obligations.AnEdgeWithRstResetsBothUnits : Prop :=
  ∀ (k : Nat) (s : State),
    (rst s = true ↔ (∃ ts, s.turns = .reset :: ts) ∨ ∃ ep dp ts, s.turns = .restart ep dp :: ts) ∧
    (rst s = true →
      encInTransfers k s = false ∧ encOutTransfers s = false ∧ decInTransfers k s = false ∧ decOutTransfers s = false ∧
      (∃ e, encEdge k s = .moved { s with enc := e, free := s.free + 13 } ∧ e.ph = .idle) ∧
      (∃ d, decEdge k s = .moved { s with dec := d, free := s.free + 13 } ∧ d.ph = .recv ∧ d.cnt = 0) ∧
      ∀ t, step s = .next t →
        encEdge k s = .moved { s with enc := t.enc, free := t.free } ∧
        decEdge k s = .moved { s with dec := t.dec, free := t.free })

/-! ## The whole machine -/

/-- The invariant holds right after reset. -/
def Obligations.InvariantHoldsAtReset : Prop := MachineInv State.reset

/-- R26, R96, R125, R128, R210, R64: every step keeps the invariant: the counts in ENC's registers fit its phase, `ENC_OUT`
is whole frames, `F(1)` or `F(2)` tokens between frames, and at most one open frame of `IDX` bytes, and no channel is over
its capacity. -/
def Obligations.EveryStepKeepsTheInvariant : Prop :=
  ∀ s t : State, MachineInv s → step s = .next t → MachineInv t

/-- R128, R25: under the invariant no step of ENC meets a combination of registers that no rule covers. -/
def Obligations.InvariantLeavesNoPhaseWithoutARule : Prop :=
  ∀ s : State, MachineInv s → encTick s ≠ .stuck .encNoRule

/-- R31, R9: no step reads a register that is not live: two states that differ only in registers their phases no longer
read give the same outcome, again up to such registers. -/
def Obligations.StaleRegistersAreNeverRead : Prop :=
  ∀ s t : State, live s = live t → mapNext live (step s) = mapNext live (step t)

/-- R60: the two units share nothing: a step of each can be taken in either order with the same result, and neither enables,
disables or alters the other's. -/
def Obligations.EncAndDecStepsCommute : Prop :=
  ∀ s t u : State, encTick s = .moved t → decTick s = .moved u →
    ∃ w, decTick t = .moved w ∧ encTick u = .moved w

/-- R60: a turn of one unit leaves the other unit and its channels alone. -/
def Obligations.AUnitsTurnLeavesTheOtherUnitAlone : Prop :=
  ∀ (s t : State) (ts : List Turn), step s = .next t →
    ((s.turns = .enc :: ts ∨ s.turns = .encRun :: ts) →
      t = { s with turns := ts, enc := t.enc, encIn := t.encIn, encOut := t.encOut }) ∧
    ((s.turns = .dec :: ts ∨ s.turns = .decRun :: ts) →
      t = { s with turns := ts, dec := t.dec, decIn := t.decIn, decOut := t.decOut })

/-- R8, R56, R58, R63, R64: the host's four moves. A put with a token left and room appends exactly the first token of its
program to the channel, a take with a token there moves exactly the oldest one to what has been observed, and a move that
cannot be made leaves all but the schedule as it was. So no token is lost, added or reordered. -/
def Obligations.HostMovesLoseNoToken : Prop :=
  (∀ (s : State) (ts : List Turn), s.turns = .putEnc :: ts →
    (∀ x rest, s.host.encProg = x :: rest → hasRoom s.cfg.capEncIn s.encIn.length = true →
      step s = .next { s with turns := ts, encIn := s.encIn ++ [x], host := { s.host with encProg := rest } }) ∧
    (s.host.encProg = [] ∨ hasRoom s.cfg.capEncIn s.encIn.length = false → step s = .next { s with turns := ts })) ∧
  (∀ (s : State) (ts : List Turn), s.turns = .putDec :: ts →
    (∀ x rest, s.host.decProg = x :: rest → hasRoom s.cfg.capDecIn s.decIn.length = true →
      step s = .next { s with turns := ts, decIn := s.decIn ++ [x], host := { s.host with decProg := rest } }) ∧
    (s.host.decProg = [] ∨ hasRoom s.cfg.capDecIn s.decIn.length = false → step s = .next { s with turns := ts })) ∧
  (∀ (s : State) (ts : List Turn), s.turns = .takeEnc :: ts →
    (∀ x rest, s.encOut = x :: rest →
      step s = .next { s with turns := ts, encOut := rest, host := { s.host with encGot := s.host.encGot ++ [x] } }) ∧
    (s.encOut = [] → step s = .next { s with turns := ts })) ∧
  (∀ (s : State) (ts : List Turn), s.turns = .takeDec :: ts →
    (∀ x rest, s.decOut = x :: rest →
      step s = .next { s with turns := ts, decOut := rest, host := { s.host with decGot := s.host.decGot ++ [x] } }) ∧
    (s.decOut = [] → step s = .next { s with turns := ts })) ∧
  (∀ (s : State) (x : Turn) (ts : List Turn), s.turns = x :: ts →
    (x = .putEnc ∨ x = .putDec ∨ x = .takeEnc ∨ x = .takeDec) →
    ∃ t, step s = .next t ∧
      t = { s with
        turns := ts, encIn := t.encIn, encOut := t.encOut, decIn := t.decIn, decOut := t.decOut, host := t.host } ∧
      t.encIn ++ t.host.encProg = s.encIn ++ s.host.encProg ∧ t.decIn ++ t.host.decProg = s.decIn ++ s.host.decProg ∧
      encObserved t = encObserved s ∧ decObserved t = decObserved s)

/-- R243, R59, R126, R187, R64, R211: the whole run. From the launch state, with a program of well-formed commands and
frames, whatever the capacities and the setting, and for every schedule without `restart`: a run that has ended well has
put, for each command in order, its frame or its `F`, and for each frame in order its result. The schedules hold resets
between transactions, which count as part of the one run: the model's choice (DESIGN CHOICE, notes/assumptions/10.md). -/
def Obligations.ARunThatEndsWellIsItsTransactionsInOrder : Prop :=
  ∀ (s t : State) (k : Nat) (cmds : List Command) (frames : List (List Byte)),
    Launch s → (∀ c ∈ cmds, c.wf = true) → s.host.encProg = cmds.flatMap Command.tokens →
    s.host.decProg = frames.flatMap frameTokens → (∀ x ∈ s.turns, sameRun x = true) →
    core.run k s = .next t → EndedWell t →
    encObserved t = cmds.flatMap (Command.outcome s.cfg) ∧ decObserved t = frames.map (fun bs => (decodeResponse bs).token)

/-- R65, R66, R235, R236, R239: a host that keeps the token protocol never sees a unit stuck or refused: from the launch
state with a program of well-formed commands and frames and a schedule with no reset, every step of the run answers a next
state. -/
def Obligations.AWellFormedProgramNeverStops : Prop :=
  ∀ (s : State) (k : Nat) (cmds : List Command) (frames : List (List Byte)),
    Launch s → (∀ c ∈ cmds, c.wf = true) → s.host.encProg = cmds.flatMap Command.tokens →
    s.host.decProg = frames.flatMap frameTokens → (∀ x ∈ s.turns, sameRun x = true ∧ x ≠ .reset) →
    ∃ t, core.run k s = .next t

/-- R127, R237, R242: with all commands on `ENC_IN` and room on `ENC_OUT`, the units left alone finish
every command in the number of steps R127 gives, one token a step. That ENC goes first when the schedule is empty is the
model's choice (DESIGN CHOICE, notes/assumptions/5.md). -/
def Obligations.CommandsFinishInTheirStepCounts : Prop :=
  ∀ (s : State) (cmds : List Command), (∀ c ∈ cmds, c.wf = true) → s.turns = [] → s.enc.ph = .idle →
    s.encIn = cmds.flatMap Command.tokens →
    roomFor s.cfg.capEncOut s.encOut.length (cmds.flatMap (Command.outcome s.cfg)).length →
    ∃ e, e.ph = .idle ∧ core.run (cmds.map (Command.steps s.cfg)).sum s = .next { s with
      enc := e, encIn := [], encOut := s.encOut ++ cmds.flatMap (Command.outcome s.cfg) }
end

