-- ==== Sys2Proof/Laws/State.lean ====
section
/-! SUPPORT. Laws/State.lean: what each whole-field update of State leaves in each field, true by rfl. -/

namespace Sys2Proof.Machine

@[simp] theorem State.setEnc_cfg (e : Enc) (s : State) : (s.setEnc e).cfg = s.cfg := rfl
@[simp] theorem State.setEnc_enc (e : Enc) (s : State) : (s.setEnc e).enc = e := rfl
@[simp] theorem State.setEnc_dec (e : Enc) (s : State) : (s.setEnc e).dec = s.dec := rfl
@[simp] theorem State.setEnc_encIn (e : Enc) (s : State) : (s.setEnc e).encIn = s.encIn := rfl
@[simp] theorem State.setEnc_encOut (e : Enc) (s : State) : (s.setEnc e).encOut = s.encOut := rfl
@[simp] theorem State.setEnc_decIn (e : Enc) (s : State) : (s.setEnc e).decIn = s.decIn := rfl
@[simp] theorem State.setEnc_decOut (e : Enc) (s : State) : (s.setEnc e).decOut = s.decOut := rfl
@[simp] theorem State.setEnc_host (e : Enc) (s : State) : (s.setEnc e).host = s.host := rfl
@[simp] theorem State.setEnc_turns (e : Enc) (s : State) : (s.setEnc e).turns = s.turns := rfl
@[simp] theorem State.setEnc_free (e : Enc) (s : State) : (s.setEnc e).free = s.free := rfl

@[simp] theorem State.setDec_cfg (d : Dec) (s : State) : (s.setDec d).cfg = s.cfg := rfl
@[simp] theorem State.setDec_enc (d : Dec) (s : State) : (s.setDec d).enc = s.enc := rfl
@[simp] theorem State.setDec_dec (d : Dec) (s : State) : (s.setDec d).dec = d := rfl
@[simp] theorem State.setDec_encIn (d : Dec) (s : State) : (s.setDec d).encIn = s.encIn := rfl
@[simp] theorem State.setDec_encOut (d : Dec) (s : State) : (s.setDec d).encOut = s.encOut := rfl
@[simp] theorem State.setDec_decIn (d : Dec) (s : State) : (s.setDec d).decIn = s.decIn := rfl
@[simp] theorem State.setDec_decOut (d : Dec) (s : State) : (s.setDec d).decOut = s.decOut := rfl
@[simp] theorem State.setDec_host (d : Dec) (s : State) : (s.setDec d).host = s.host := rfl
@[simp] theorem State.setDec_turns (d : Dec) (s : State) : (s.setDec d).turns = s.turns := rfl
@[simp] theorem State.setDec_free (d : Dec) (s : State) : (s.setDec d).free = s.free := rfl

@[simp] theorem State.setEncIn_cfg (ts : List EncIn) (s : State) : (s.setEncIn ts).cfg = s.cfg := rfl
@[simp] theorem State.setEncIn_enc (ts : List EncIn) (s : State) : (s.setEncIn ts).enc = s.enc := rfl
@[simp] theorem State.setEncIn_dec (ts : List EncIn) (s : State) : (s.setEncIn ts).dec = s.dec := rfl
@[simp] theorem State.setEncIn_encIn (ts : List EncIn) (s : State) : (s.setEncIn ts).encIn = ts := rfl
@[simp] theorem State.setEncIn_encOut (ts : List EncIn) (s : State) : (s.setEncIn ts).encOut = s.encOut := rfl
@[simp] theorem State.setEncIn_decIn (ts : List EncIn) (s : State) : (s.setEncIn ts).decIn = s.decIn := rfl
@[simp] theorem State.setEncIn_decOut (ts : List EncIn) (s : State) : (s.setEncIn ts).decOut = s.decOut := rfl
@[simp] theorem State.setEncIn_host (ts : List EncIn) (s : State) : (s.setEncIn ts).host = s.host := rfl
@[simp] theorem State.setEncIn_turns (ts : List EncIn) (s : State) : (s.setEncIn ts).turns = s.turns := rfl
@[simp] theorem State.setEncIn_free (ts : List EncIn) (s : State) : (s.setEncIn ts).free = s.free := rfl

@[simp] theorem State.setEncOut_cfg (ts : List EncOut) (s : State) : (s.setEncOut ts).cfg = s.cfg := rfl
@[simp] theorem State.setEncOut_enc (ts : List EncOut) (s : State) : (s.setEncOut ts).enc = s.enc := rfl
@[simp] theorem State.setEncOut_dec (ts : List EncOut) (s : State) : (s.setEncOut ts).dec = s.dec := rfl
@[simp] theorem State.setEncOut_encIn (ts : List EncOut) (s : State) : (s.setEncOut ts).encIn = s.encIn := rfl
@[simp] theorem State.setEncOut_encOut (ts : List EncOut) (s : State) : (s.setEncOut ts).encOut = ts := rfl
@[simp] theorem State.setEncOut_decIn (ts : List EncOut) (s : State) : (s.setEncOut ts).decIn = s.decIn := rfl
@[simp] theorem State.setEncOut_decOut (ts : List EncOut) (s : State) : (s.setEncOut ts).decOut = s.decOut := rfl
@[simp] theorem State.setEncOut_host (ts : List EncOut) (s : State) : (s.setEncOut ts).host = s.host := rfl
@[simp] theorem State.setEncOut_turns (ts : List EncOut) (s : State) : (s.setEncOut ts).turns = s.turns := rfl
@[simp] theorem State.setEncOut_free (ts : List EncOut) (s : State) : (s.setEncOut ts).free = s.free := rfl

@[simp] theorem State.setDecIn_cfg (ts : List DecIn) (s : State) : (s.setDecIn ts).cfg = s.cfg := rfl
@[simp] theorem State.setDecIn_enc (ts : List DecIn) (s : State) : (s.setDecIn ts).enc = s.enc := rfl
@[simp] theorem State.setDecIn_dec (ts : List DecIn) (s : State) : (s.setDecIn ts).dec = s.dec := rfl
@[simp] theorem State.setDecIn_encIn (ts : List DecIn) (s : State) : (s.setDecIn ts).encIn = s.encIn := rfl
@[simp] theorem State.setDecIn_encOut (ts : List DecIn) (s : State) : (s.setDecIn ts).encOut = s.encOut := rfl
@[simp] theorem State.setDecIn_decIn (ts : List DecIn) (s : State) : (s.setDecIn ts).decIn = ts := rfl
@[simp] theorem State.setDecIn_decOut (ts : List DecIn) (s : State) : (s.setDecIn ts).decOut = s.decOut := rfl
@[simp] theorem State.setDecIn_host (ts : List DecIn) (s : State) : (s.setDecIn ts).host = s.host := rfl
@[simp] theorem State.setDecIn_turns (ts : List DecIn) (s : State) : (s.setDecIn ts).turns = s.turns := rfl
@[simp] theorem State.setDecIn_free (ts : List DecIn) (s : State) : (s.setDecIn ts).free = s.free := rfl

@[simp] theorem State.setDecOut_cfg (ts : List DecOut) (s : State) : (s.setDecOut ts).cfg = s.cfg := rfl
@[simp] theorem State.setDecOut_enc (ts : List DecOut) (s : State) : (s.setDecOut ts).enc = s.enc := rfl
@[simp] theorem State.setDecOut_dec (ts : List DecOut) (s : State) : (s.setDecOut ts).dec = s.dec := rfl
@[simp] theorem State.setDecOut_encIn (ts : List DecOut) (s : State) : (s.setDecOut ts).encIn = s.encIn := rfl
@[simp] theorem State.setDecOut_encOut (ts : List DecOut) (s : State) : (s.setDecOut ts).encOut = s.encOut := rfl
@[simp] theorem State.setDecOut_decIn (ts : List DecOut) (s : State) : (s.setDecOut ts).decIn = s.decIn := rfl
@[simp] theorem State.setDecOut_decOut (ts : List DecOut) (s : State) : (s.setDecOut ts).decOut = ts := rfl
@[simp] theorem State.setDecOut_host (ts : List DecOut) (s : State) : (s.setDecOut ts).host = s.host := rfl
@[simp] theorem State.setDecOut_turns (ts : List DecOut) (s : State) : (s.setDecOut ts).turns = s.turns := rfl
@[simp] theorem State.setDecOut_free (ts : List DecOut) (s : State) : (s.setDecOut ts).free = s.free := rfl

@[simp] theorem State.setHost_cfg (h : HostSide) (s : State) : (s.setHost h).cfg = s.cfg := rfl
@[simp] theorem State.setHost_enc (h : HostSide) (s : State) : (s.setHost h).enc = s.enc := rfl
@[simp] theorem State.setHost_dec (h : HostSide) (s : State) : (s.setHost h).dec = s.dec := rfl
@[simp] theorem State.setHost_encIn (h : HostSide) (s : State) : (s.setHost h).encIn = s.encIn := rfl
@[simp] theorem State.setHost_encOut (h : HostSide) (s : State) : (s.setHost h).encOut = s.encOut := rfl
@[simp] theorem State.setHost_decIn (h : HostSide) (s : State) : (s.setHost h).decIn = s.decIn := rfl
@[simp] theorem State.setHost_decOut (h : HostSide) (s : State) : (s.setHost h).decOut = s.decOut := rfl
@[simp] theorem State.setHost_host (h : HostSide) (s : State) : (s.setHost h).host = h := rfl
@[simp] theorem State.setHost_turns (h : HostSide) (s : State) : (s.setHost h).turns = s.turns := rfl
@[simp] theorem State.setHost_free (h : HostSide) (s : State) : (s.setHost h).free = s.free := rfl

@[simp] theorem State.setTurns_cfg (ts : List Turn) (s : State) : (s.setTurns ts).cfg = s.cfg := rfl
@[simp] theorem State.setTurns_enc (ts : List Turn) (s : State) : (s.setTurns ts).enc = s.enc := rfl
@[simp] theorem State.setTurns_dec (ts : List Turn) (s : State) : (s.setTurns ts).dec = s.dec := rfl
@[simp] theorem State.setTurns_encIn (ts : List Turn) (s : State) : (s.setTurns ts).encIn = s.encIn := rfl
@[simp] theorem State.setTurns_encOut (ts : List Turn) (s : State) : (s.setTurns ts).encOut = s.encOut := rfl
@[simp] theorem State.setTurns_decIn (ts : List Turn) (s : State) : (s.setTurns ts).decIn = s.decIn := rfl
@[simp] theorem State.setTurns_decOut (ts : List Turn) (s : State) : (s.setTurns ts).decOut = s.decOut := rfl
@[simp] theorem State.setTurns_host (ts : List Turn) (s : State) : (s.setTurns ts).host = s.host := rfl
@[simp] theorem State.setTurns_turns (ts : List Turn) (s : State) : (s.setTurns ts).turns = ts := rfl
@[simp] theorem State.setTurns_free (ts : List Turn) (s : State) : (s.setTurns ts).free = s.free := rfl

@[simp] theorem State.setFree_cfg (n : Nat) (s : State) : (s.setFree n).cfg = s.cfg := rfl
@[simp] theorem State.setFree_enc (n : Nat) (s : State) : (s.setFree n).enc = s.enc := rfl
@[simp] theorem State.setFree_dec (n : Nat) (s : State) : (s.setFree n).dec = s.dec := rfl
@[simp] theorem State.setFree_encIn (n : Nat) (s : State) : (s.setFree n).encIn = s.encIn := rfl
@[simp] theorem State.setFree_encOut (n : Nat) (s : State) : (s.setFree n).encOut = s.encOut := rfl
@[simp] theorem State.setFree_decIn (n : Nat) (s : State) : (s.setFree n).decIn = s.decIn := rfl
@[simp] theorem State.setFree_decOut (n : Nat) (s : State) : (s.setFree n).decOut = s.decOut := rfl
@[simp] theorem State.setFree_host (n : Nat) (s : State) : (s.setFree n).host = s.host := rfl
@[simp] theorem State.setFree_turns (n : Nat) (s : State) : (s.setFree n).turns = s.turns := rfl
@[simp] theorem State.setFree_free (n : Nat) (s : State) : (s.setFree n).free = n := rfl

end Sys2Proof.Machine
end

