-- ==== Sys2Proof/Laws/Channels.lean ====
section
/-! SUPPORT. Laws/Channels.lean: flow control (R64): room, waiting, and what one `put` step can do. -/

namespace Sys2Proof.Machine

theorem hasRoom_of_roomFor {cap : Option Nat} {len n : Nat} (h : roomFor cap len (n + 1)) : hasRoom cap len = true := by
  cases cap with
  | none => rfl
  | some c => simp [roomFor, hasRoom] at *; omega

theorem roomFor_mono {cap : Option Nat} {len n m : Nat} (h : roomFor cap len n) (hm : m ≤ n) : roomFor cap len m := by
  cases cap with
  | none => trivial
  | some c => simp [roomFor] at *; omega

/-- After `k` puts there is room for the rest. -/
theorem roomFor_shift {cap : Option Nat} {len n k m : Nat} (h : roomFor cap len n) (hm : k + m ≤ n) :
    roomFor cap (len + k) m := by
  cases cap with
  | none => trivial
  | some c => simp [roomFor] at *; omega

theorem withinCap_put {cap : Option Nat} {n : Nat} (h : hasRoom cap n = true) : withinCap cap (n + 1) := by
  cases cap with
  | none => trivial
  | some c => simpa [hasRoom, withinCap] using h

theorem withinCap_le {cap : Option Nat} {n m : Nat} (h : withinCap cap n) (hm : m ≤ n) : withinCap cap m := by
  cases cap with
  | none => trivial
  | some c => simp [withinCap] at *; omega

theorem encPutStep_of_room {t : EncOut} {e : Enc} {s : State} (h : hasRoom s.cfg.capEncOut s.encOut.length = true) :
    encPutStep t e s = .moved { s with enc := e, encOut := s.encOut ++ [t] } := by
  simp [encPutStep, h, putEncOut, State.setEnc, State.setEncOut]

theorem decPutStep_of_room {t : DecOut} {d : Dec} {s : State} (h : hasRoom s.cfg.capDecOut s.decOut.length = true) :
    decPutStep t d s = .moved { s with dec := d, decOut := s.decOut ++ [t] } := by
  simp [decPutStep, h, putDecOut, State.setDec, State.setDecOut]

/-- Everything a `put` step of ENC can do. -/
theorem encPutStep_cases (t : EncOut) (e : Enc) (s : State) :
    (hasRoom s.cfg.capEncOut s.encOut.length = true ∧
      encPutStep t e s = .moved { s with enc := e, encOut := s.encOut ++ [t] }) ∨
    (hasRoom s.cfg.capEncOut s.encOut.length = false ∧ encPutStep t e s = .waiting) := by
  cases h : hasRoom s.cfg.capEncOut s.encOut.length with
  | true => exact .inl ⟨rfl, encPutStep_of_room h⟩
  | false => exact .inr ⟨rfl, by simp [encPutStep, h]⟩

/-- Everything a `put` step of DEC can do. -/
theorem decPutStep_cases (t : DecOut) (d : Dec) (s : State) :
    (hasRoom s.cfg.capDecOut s.decOut.length = true ∧
      decPutStep t d s = .moved { s with dec := d, decOut := s.decOut ++ [t] }) ∨
    (hasRoom s.cfg.capDecOut s.decOut.length = false ∧ decPutStep t d s = .waiting) := by
  cases h : hasRoom s.cfg.capDecOut s.decOut.length with
  | true => exact .inl ⟨rfl, decPutStep_of_room h⟩
  | false => exact .inr ⟨rfl, by simp [decPutStep, h]⟩

end Sys2Proof.Machine
end

