-- ==== Sys2Proof/Laws/Run.lean ====
section
/-! SUPPORT. Laws/Run.lean: iterating the units' steps (`encTicks`, `decTicks`), and `encRun`, `decRun` as their iteration
(R55). -/

namespace Sys2Proof.Machine

theorem encTicks_succ {s t : State} (h : encTick s = .moved t) (k : Nat) : encTicks (k + 1) s = encTicks k t := by
  simp [encTicks, h]

theorem encTicks_add (a b : Nat) (s : State) : encTicks (a + b) s = (encTicks a s).bind (encTicks b) := by
  induction a generalizing s with
  | zero => simp [encTicks]
  | succ a ih =>
    rw [Nat.succ_add]
    simp only [encTicks]
    split
    · exact ih _
    · rfl

theorem decTicks_succ {s t : State} (h : decTick s = .moved t) (k : Nat) : decTicks (k + 1) s = decTicks k t := by
  simp [decTicks, h]

/-- ENC takes `k` steps and is in the middle of its transaction after each of them. -/
def encBusyTicks : Nat → State → Option State
  | 0, s => some s
  | k + 1, s =>
    match encTick s with
    | .moved s' => if s'.enc.ph = .idle then none else encBusyTicks k s'
    | _ => none

theorem encBusyTicks_succ {s t : State} (h : encTick s = .moved t) (ht : t.enc.ph ≠ .idle) (k : Nat) :
    encBusyTicks (k + 1) s = encBusyTicks k t := by
  simp [encBusyTicks, h, ht]

theorem encBusyTicks_add {a : Nat} {s t : State} (h : encBusyTicks a s = some t) (b : Nat) :
    encBusyTicks (a + b) s = encBusyTicks b t := by
  induction a generalizing s with
  | zero => simp [encBusyTicks] at h; simp [h]
  | succ a ih =>
    rw [Nat.succ_add]
    simp only [encBusyTicks] at h ⊢
    split at h
    · split at h
      · simp at h
      · rename_i hm hn; simp [hn, ih h]
    · simp at h

theorem encTicks_of_busy {k : Nat} {s t : State} (h : encBusyTicks k s = some t) : encTicks k s = some t := by
  induction k generalizing s with
  | zero => simpa [encBusyTicks, encTicks] using h
  | succ k ih =>
    simp only [encBusyTicks] at h
    simp only [encTicks]
    split at h
    · rename_i hm
      split at h
      · simp at h
      · simpa [hm] using ih h
    · simp at h

/-- ENC finishes its transaction in exactly `k` steps, ending in `t`. -/
def EncFinishes (k : Nat) (s t : State) : Prop :=
  ∃ j u, k = j + 1 ∧ encBusyTicks j s = some u ∧ encTick u = .moved t ∧ t.enc.ph = .idle

theorem EncFinishes.ticks {k : Nat} {s t : State} (h : EncFinishes k s t) : encTicks k s = some t := by
  obtain ⟨j, u, rfl, hj, hu, -⟩ := h
  rw [encTicks_add, encTicks_of_busy hj]
  simp [encTicks, hu]

theorem EncFinishes.idle {k : Nat} {s t : State} (h : EncFinishes k s t) : t.enc.ph = .idle := by
  obtain ⟨j, u, rfl, hj, hu, ht⟩ := h
  exact ht

theorem EncFinishes.of_last {s t : State} (h : encTick s = .moved t) (ht : t.enc.ph = .idle) : EncFinishes 1 s t :=
  ⟨0, s, rfl, rfl, h, ht⟩

theorem EncFinishes.cons {k : Nat} {s u t : State} (h : encTick s = .moved u) (hu : u.enc.ph ≠ .idle)
    (hk : EncFinishes k u t) : EncFinishes (k + 1) s t := by
  obtain ⟨j, v, rfl, hj, hv, ht⟩ := hk
  exact ⟨j + 1, v, rfl, by rw [encBusyTicks_succ h hu, hj], hv, ht⟩

theorem EncFinishes.append {a k : Nat} {s u t : State} (h : encBusyTicks a s = some u) (hk : EncFinishes k u t) :
    EncFinishes (a + k) s t := by
  obtain ⟨j, v, rfl, hj, hv, ht⟩ := hk
  exact ⟨a + j, v, by omega, by rw [encBusyTicks_add h, hj], hv, ht⟩

/-- A run with enough fuel finishes the transaction. -/
theorem EncFinishes.run {k fuel : Nat} {s t : State} (h : EncFinishes k s t) (hf : k ≤ fuel) :
    encRun fuel s = .next t := by
  obtain ⟨j, u, rfl, hj, hu, ht⟩ := h
  induction j generalizing s fuel with
  | zero =>
    obtain ⟨f, rfl⟩ : ∃ f, fuel = f + 1 := ⟨fuel - 1, by omega⟩
    simp [encBusyTicks] at hj
    subst hj
    simp [encRun, hu, ht]
  | succ j ih =>
    obtain ⟨f, rfl⟩ : ∃ f, fuel = f + 1 := ⟨fuel - 1, by omega⟩
    simp only [encBusyTicks] at hj
    simp only [encRun]
    split at hj
    · split at hj
      · simp at hj
      · rename_i hm hn
        rw [hm]; simp only [hn, ↓reduceIte]
        exact ih (by omega) hj
    · simp at hj

end Sys2Proof.Machine
end

