-- ==== Sys2Proof/Laws/DecTick.lean ====
section
/-! SUPPORT. Laws/DecTick.lean: what one step of DEC does in each phase (R184 to R186), and everything it can do when it
moves. -/

namespace Sys2Proof.Machine

theorem decTick_byte {s : State} {byte : Byte} {last : Bool} {ts : List DecIn} (hph : s.dec.ph = .recv)
    (hin : s.decIn = .b byte last :: ts) :
    decTick s = .moved { s with dec := receiveByte byte last s.dec, decIn := ts } := by
  simp only [decTick, hph, decRecv, hin]; rfl

theorem decTick_empty {s : State} {ts : List DecIn} (hph : s.dec.ph = .recv) (hcnt : s.dec.cnt = 0)
    (hin : s.decIn = .empty :: ts) :
    decTick s = .moved { s with dec := { s.dec with ph := .result }, decIn := ts } := by
  simp only [decTick, hph, decRecv, hin, hcnt, if_true]; rfl

theorem decTick_result {s : State} (hph : s.dec.ph = .result)
    (hr : hasRoom s.cfg.capDecOut s.decOut.length = true) :
    decTick s = .moved { s with
      dec := { s.dec with cnt := 0, ph := .recv }, decOut := s.decOut ++ [resultToken s.dec] } := by
  simp only [decTick, hph, decResult, decPutStep_of_room hr]

/-- Everything one step of DEC can do when it moves (R55): it takes a byte of the frame, or `EMPTY` between frames, or it
puts the frame's one result. -/
theorem decTick_moved_cases {s t : State} (h : decTick s = .moved t) :
    (∃ byte last ts, s.dec.ph = .recv ∧ s.decIn = .b byte last :: ts ∧
      t = { s with dec := receiveByte byte last s.dec, decIn := ts }) ∨
    (∃ ts, s.dec.ph = .recv ∧ s.dec.cnt = 0 ∧ s.decIn = .empty :: ts ∧
      t = { s with dec := { s.dec with ph := .result }, decIn := ts }) ∨
    (s.dec.ph = .result ∧ hasRoom s.cfg.capDecOut s.decOut.length = true ∧
      t = { s with dec := { s.dec with cnt := 0, ph := .recv }, decOut := s.decOut ++ [resultToken s.dec] }) := by
  unfold decTick at h
  split at h <;> rename_i hph
  · unfold decRecv at h
    split at h
    · simp at h
    · rename_i byte last ts hin
      exact .inl ⟨byte, last, ts, hph, hin, (Tick.moved.inj h).symm⟩
    · rename_i ts hin
      split at h
      · rename_i hcnt
        exact .inr <| .inl ⟨ts, hph, hcnt, hin, (Tick.moved.inj h).symm⟩
      · simp at h
  · unfold decResult at h
    rcases decPutStep_cases (resultToken s.dec) { s.dec with cnt := 0, ph := .recv } s with ⟨hr, h'⟩ | ⟨-, h'⟩
    · rw [h'] at h
      exact .inr <| .inr ⟨hph, hr, (Tick.moved.inj h).symm⟩
    · rw [h'] at h; simp at h

end Sys2Proof.Machine
end

