-- ==== Sys2Proof/Laws/Pack.lean ====
section
/-! SUPPORT. Laws/Pack.lean: the coil packing bit by bit (R89, R92), and the explicit loop the source recommends, equal to
it. -/

namespace Sys2Proof

theorem coilBit_getLsbD (v : Bool) (k : Nat) : (coilBit v).getLsbD k = (decide (k = 0) && v) := by
  cases v <;> cases k <;> simp [coilBit]

theorem coilBit_getElem (v : Bool) (k : Nat) (h : k < 8) : (coilBit v)[k] = (decide (k = 0) && v) := by
  rw [← BitVec.getLsbD_eq_getElem, coilBit_getLsbD]

theorem packedByte_getLsbD (vs : List Bool) (j k : Nat) (hk : k < 8) :
    (packedByte vs j).getLsbD k = vs.getD (8 * j + k) false := by
  simp only [packedByte, show List.range 8 = [0, 1, 2, 3, 4, 5, 6, 7] from rfl, List.foldl]
  interval_cases k <;> simp [coilBit_getElem]

theorem pack_length (vs : List Bool) : (pack vs).length = (vs.length + 7) / 8 := by simp [pack]

theorem pack_getLsbD (vs : List Bool) (j k : Nat) (hk : k < 8) :
    ((pack vs).getD j 0).getLsbD k = vs.getD (8 * j + k) false := by
  by_cases hj : j < (vs.length + 7) / 8
  · simp [pack, List.getD_eq_getElem?_getD, hj, packedByte_getLsbD _ _ _ hk]
  · have h1 : (pack vs).getD j 0 = 0 := by
      simp [List.getD_eq_getElem?_getD, List.getElem?_eq_none (l := pack vs) (i := j) (by rw [pack_length]; omega)]
    have h2 : vs.getD (8 * j + k) false = false := by
      simp [List.getD_eq_getElem?_getD, List.getElem?_eq_none (l := vs) (i := 8 * j + k) (by omega)]
    rw [h1, h2]; simp

theorem unpack_of_bits (bs : List Byte) (vs : List Bool)
    (h : ∀ i, i < vs.length → (bs.getD (i / 8) 0).getLsbD (i % 8) = vs.getD i false) : unpack bs vs.length = vs := by
  apply List.ext_getElem
  · simp [unpack]
  · intro i h1 h2
    have := h i h2
    simp [unpack] at *
    rw [this, List.getElem?_eq_getElem h2]; rfl

theorem unpack_pack_append (vs : List Bool) (bs : List Byte) : unpack (pack vs ++ bs) vs.length = vs := by
  apply unpack_of_bits
  intro i hi
  have hlt : i / 8 < (pack vs).length := by rw [pack_length]; omega
  have : (pack vs ++ bs).getD (i / 8) 0 = (pack vs).getD (i / 8) 0 := by
    simp [List.getD_eq_getElem?_getD, List.getElem?_append_left hlt]
  rw [this, pack_getLsbD _ _ _ (Nat.mod_lt _ (by decide)), Nat.div_add_mod]

/-- The loop "computing `byte |= (bit << position)`": `acc` holds the bits of the byte being built below `pos`. -/
def packLoop (acc : Byte) (pos : Nat) : List Bool → List Byte
  | [] => if pos = 0 then [] else [acc]
  | v :: vs =>
    if pos = 7 then (acc ||| (coilBit v <<< pos)) :: packLoop 0 0 vs
    else packLoop (acc ||| (coilBit v <<< pos)) (pos + 1) vs

theorem packLoop_length (acc : Byte) (pos : Nat) (vs : List Bool) (hp : pos < 8) :
    (packLoop acc pos vs).length = (pos + vs.length + 7) / 8 := by
  induction vs generalizing acc pos with
  | nil =>
    by_cases h : pos = 0
    · simp [packLoop, h]
    · simp [packLoop, h]; omega
  | cons v vs ih =>
    by_cases h : pos = 7
    · simp [packLoop, h, ih]; omega
    · simp [packLoop, h]; rw [ih _ _ (by omega)]; omega

theorem packLoop_getLsbD (acc : Byte) (pos : Nat) (vs : List Bool) (hp : pos < 8)
    (ha : ∀ k, pos ≤ k → acc.getLsbD k = false) (j k : Nat) (hk : k < 8) :
    ((packLoop acc pos vs).getD j 0).getLsbD k =
      if 8 * j + k < pos then acc.getLsbD (8 * j + k) else vs.getD (8 * j + k - pos) false := by
  induction vs generalizing acc pos j with
  | nil =>
    by_cases h : pos = 0
    · simp [packLoop, h]
    · cases j with
      | zero =>
        by_cases hk' : k < pos
        · simp [packLoop, h, hk']
        · simp [packLoop, h, hk', ha k (by omega)]
      | succ j => simp [packLoop, h, show ¬ (8 * (j + 1) + k < pos) by omega]
  | cons v vs ih =>
    have hbit : ∀ k, k < 8 → (acc ||| (coilBit v <<< pos)).getLsbD k =
        if k < pos then acc.getLsbD k else if k = pos then v else false := by
      intro k hk
      simp only [BitVec.getLsbD_or, BitVec.getLsbD_shiftLeft, coilBit_getLsbD, hk, decide_true, Bool.true_and]
      by_cases h1 : k < pos
      · simp [h1]
      · by_cases h2 : k = pos
        · subst h2; rw [ha k (Nat.le_refl _)]; simp
        · rw [ha k (by omega)]; simp [h1, h2, show k - pos ≠ 0 by omega]
    by_cases h : pos = 7
    · subst h
      cases j with
      | zero =>
        simp only [packLoop, ↓reduceIte, List.getD_cons_zero]
        rw [hbit k hk]
        by_cases h1 : k < 7
        · simp [h1]
        · simp [show k = 7 by omega]
      | succ j =>
        simp only [packLoop, ↓reduceIte, List.getD_cons_succ]
        rw [ih 0 0 (by omega) (by simp)]
        simp [show ¬ (8 * (j + 1) + k < 7) by omega]
        rw [show 8 * (j + 1) + k - 7 = (8 * j + k) + 1 by omega]; simp
    · have hp' : pos + 1 < 8 := by omega
      simp only [packLoop, h, ↓reduceIte]
      rw [ih _ _ hp']
      · by_cases h1 : 8 * j + k < pos
        · have : j = 0 := by omega
          subst this
          rw [if_pos (by omega), if_pos h1, hbit _ (by omega)]; simp [show k < pos by omega]
        · by_cases h2 : 8 * j + k = pos
          · rw [if_pos (by omega), if_neg h1, hbit _ (by omega)]
            simp [h2]
          · rw [if_neg (by omega), if_neg h1]
            rw [show 8 * j + k - pos = (8 * j + k - (pos + 1)) + 1 by omega]; simp
      · intro k' hk'
        by_cases h8 : k' < 8
        · rw [hbit k' h8]; simp [show ¬ k' < pos by omega, show k' ≠ pos by omega]
        · exact BitVec.getLsbD_of_ge _ _ (by omega)

/-- The loop packs (R89 against R161). -/
theorem packLoop_eq_pack (vs : List Bool) : packLoop 0 0 vs = pack vs := by
  apply List.ext_getElem
  · rw [packLoop_length _ _ _ (by omega), pack_length]; simp
  · intro j h1 h2
    apply BitVec.eq_of_getLsbD_eq
    intro k hk
    have e1 := packLoop_getLsbD 0 0 vs (by omega) (by simp) j k hk
    have e2 := pack_getLsbD vs j k hk
    rw [List.getD_eq_getElem _ _ h1] at e1
    rw [List.getD_eq_getElem _ _ h2] at e2
    simpa [e2] using e1

theorem byteCount15_cases (legacy : Bool) (n : Nat) :
    byteCount15 legacy n = (n + 7) / 8 + (if legacy = true ∧ n % 8 = 0 then 1 else 0) := by
  cases legacy <;> simp [byteCount15]
  split <;> omega

theorem packed15_length (legacy : Bool) (vs : List Bool) :
    (packed15 legacy vs).length = byteCount15 legacy vs.length := by
  rw [byteCount15_cases]
  cases legacy <;> simp [packed15, legacyPad, pack_length]
  split <;> simp

end Sys2Proof
end

