-- ==== Sys2Proof/Laws/EncTick.lean ====
section
/-! SUPPORT. Laws/EncTick.lean: one lemma per step of ENC that moves a token (R121 to R124, R161, R162, R165), on a state
seen as its ENC part and the rest. -/

namespace Sys2Proof.Machine

/-- `s` with ENC's registers and channels replaced. -/
def encAt (s : State) (e : Enc) (ei : List EncIn) (eo : List EncOut) : State := { s with enc := e, encIn := ei, encOut := eo }

@[simp] theorem encAt_enc (s e ei eo) : (encAt s e ei eo).enc = e := rfl
@[simp] theorem encAt_encIn (s e ei eo) : (encAt s e ei eo).encIn = ei := rfl
@[simp] theorem encAt_encOut (s e ei eo) : (encAt s e ei eo).encOut = eo := rfl
@[simp] theorem encAt_cfg (s e ei eo) : (encAt s e ei eo).cfg = s.cfg := rfl
@[simp] theorem encAt_dec (s e ei eo) : (encAt s e ei eo).dec = s.dec := rfl
@[simp] theorem encAt_decIn (s e ei eo) : (encAt s e ei eo).decIn = s.decIn := rfl
@[simp] theorem encAt_decOut (s e ei eo) : (encAt s e ei eo).decOut = s.decOut := rfl
@[simp] theorem encAt_host (s e ei eo) : (encAt s e ei eo).host = s.host := rfl
@[simp] theorem encAt_turns (s e ei eo) : (encAt s e ei eo).turns = s.turns := rfl
@[simp] theorem encAt_free (s e ei eo) : (encAt s e ei eo).free = s.free := rfl
@[simp] theorem encAt_encAt (s e ei eo e' ei' eo') : encAt (encAt s e ei eo) e' ei' eo' = encAt s e' ei' eo' := rfl
theorem encAt_self (s : State) : encAt s s.enc s.encIn s.encOut = s := rfl

/-- The state after ENC puts `t`. -/
theorem encPutStep_encAt {t : EncOut} {e e' : Enc} {s : State} {ei eo}
    (hr : hasRoom s.cfg.capEncOut eo.length = true) :
    encPutStep t e' (encAt s e ei eo) = .moved (encAt s e' ei (eo ++ [t])) := encPutStep_of_room hr

theorem encTick_accept {s : State} {e : Enc} {fc : Byte} {a g : U16} {ts eo} (hph : e.ph = .idle)
    (hc : commandRefused fc g = false) :
    encTick (encAt s e (.c fc a g :: ts) eo) =
      .moved (encAt s (accept s.cfg.legacyByteCount (latch fc a g e)) ts eo) := by
  simp [encTick, hph, encIdle, hc]; rfl

theorem encTick_hdr {s : State} {e : Enc} {byte : Byte} {ei eo} (hph : e.ph = .hdr) (hb : headerByte e = some byte)
    (hr : hasRoom s.cfg.capEncOut eo.length = true) :
    encTick (encAt s e ei eo) = .moved (encAt s (afterHeader e) ei (eo ++ [.b byte (lastByte e.idx e.len)])) := by
  simp [encTick, hph, encHdr, hb, byteToken, encPutStep_encAt hr]

theorem encTick_fetchCoil {s : State} {e : Enc} {v : Bool} {ts eo} (hph : e.ph = .fetch) (hfc : e.fc = 0x0F)
    (hrem : e.rem ≠ 0) :
    encTick (encAt s e (.v (coilArg v) :: ts) eo) = .moved (encAt s (fetchCoil v e) ts eo) := by
  have : coilOfArg (coilArg v) = some v := by cases v <;> rfl
  simp only [encTick, encAt_enc, hph, encFetch, encAt_encIn, hrem, hfc, if_false, this, if_true]; rfl

theorem encTick_fetchRegister {s : State} {e : Enc} {v : U16} {ts eo} (hph : e.ph = .fetch) (hfc : e.fc = 0x10)
    (hrem : e.rem ≠ 0) :
    encTick (encAt s e (.v v :: ts) eo) = .moved (encAt s (fetchRegister v e) ts eo) := by
  simp only [encTick, encAt_enc, hph, encFetch, encAt_encIn, hrem, hfc, if_false, if_true]
  rw [if_neg (by decide)]; rfl

theorem encTick_flush {s : State} {e : Enc} {ei eo} (hph : e.ph = .flush)
    (hr : hasRoom s.cfg.capEncOut eo.length = true) :
    encTick (encAt s e ei eo) =
      .moved (encAt s (afterByte { e with acc := 0, pos := 0 }) ei (eo ++ [.b e.acc (lastByte e.idx e.len)])) := by
  simp [encTick, hph, encFlush, byteToken, encPutStep_encAt hr]

theorem encTick_pad {s : State} {e : Enc} {ei eo} (hph : e.ph = .pad) (hr : hasRoom s.cfg.capEncOut eo.length = true) :
    encTick (encAt s e ei eo) = .moved (encAt s (afterByte e) ei (eo ++ [.b 0 (lastByte e.idx e.len)])) := by
  simp [encTick, hph, encPad, byteToken, encPutStep_encAt hr]

theorem encTick_hi {s : State} {e : Enc} {ei eo} (hph : e.ph = .hi) (hr : hasRoom s.cfg.capEncOut eo.length = true) :
    encTick (encAt s e ei eo) =
      .moved (encAt s { e with idx := e.idx + 1, ph := .lo } ei (eo ++ [.b (hiByte e.val) (lastByte e.idx e.len)])) := by
  simp [encTick, hph, encHi, byteToken, encPutStep_encAt hr]

theorem encTick_lo {s : State} {e : Enc} {ei eo} (hph : e.ph = .lo) (hr : hasRoom s.cfg.capEncOut eo.length = true) :
    encTick (encAt s e ei eo) =
      .moved (encAt s (afterByte e) ei (eo ++ [.b (loByte e.val) (lastByte e.idx e.len)])) := by
  simp [encTick, hph, encLo, byteToken, encPutStep_encAt hr]

theorem encTick_fault {s : State} {e : Enc} {ei eo} (hph : e.ph = .fault)
    (hr : hasRoom s.cfg.capEncOut eo.length = true) :
    encTick (encAt s e ei eo) = .moved (encAt s (afterFault e) ei (eo ++ [.f e.flt])) := by
  simp [encTick, hph, encFault, encPutStep_encAt hr]

theorem encTick_drain {s : State} {e : Enc} {v : U16} {ts eo} (hph : e.ph = .drain) (hrem : e.rem ≠ 0)
    (hv : valueRefused e.fc v = false) :
    encTick (encAt s e (.v v :: ts) eo) = .moved (encAt s (afterDrain e) ts eo) := by
  simp only [encTick, encAt_enc, hph, encDrain, encAt_encIn, hrem, hv, if_false]; rfl

theorem valueRefused_coilArg (fc : Byte) (v : Bool) : valueRefused fc (coilArg v) = false := by
  cases v <;> simp [valueRefused, coilArg, coilOfArg]

theorem valueRefused_register {fc : Byte} (h : fc ≠ 0x0F) (v : U16) : valueRefused fc v = false := by
  rw [valueRefused, decide_eq_false h]; rfl

theorem coilOfArg_isNone (v : U16) : (coilOfArg v).isNone = decide (2 ≤ v.toNat) := by
  by_cases h0 : v = 0
  · subst h0; rfl
  · by_cases h1 : v = 1
    · subst h1; rfl
    · have : 2 ≤ v.toNat := by bv_omega
      rw [coilOfArg, if_neg h0, if_neg h1, decide_eq_true this]; rfl

/-- Everything one step of ENC can do when it moves (R55): it takes the oldest token of `ENC_IN`, or it puts one token on
`ENC_OUT`, in each phase with the registers the rules give. -/
theorem encTick_moved_cases {s t : State} (h : encTick s = .moved t) :
    (∃ fc a g ts, s.enc.ph = .idle ∧ s.encIn = .c fc a g :: ts ∧ commandRefused fc g = false ∧
      t = encAt s (accept s.cfg.legacyByteCount (latch fc a g s.enc)) ts s.encOut) ∨
    (∃ v ts, s.enc.ph = .fetch ∧ s.enc.rem ≠ 0 ∧ s.enc.fc = 0x0F ∧ s.encIn = .v (coilArg v) :: ts ∧
      t = encAt s (fetchCoil v s.enc) ts s.encOut) ∨
    (∃ v ts, s.enc.ph = .fetch ∧ s.enc.rem ≠ 0 ∧ s.enc.fc = 0x10 ∧ s.encIn = .v v :: ts ∧
      t = encAt s (fetchRegister v s.enc) ts s.encOut) ∨
    (∃ v ts, s.enc.ph = .drain ∧ s.enc.rem ≠ 0 ∧ valueRefused s.enc.fc v = false ∧ s.encIn = .v v :: ts ∧
      t = encAt s (afterDrain s.enc) ts s.encOut) ∨
    (hasRoom s.cfg.capEncOut s.encOut.length = true ∧
      ((∃ byte, s.enc.ph = .hdr ∧ headerByte s.enc = some byte ∧
          t = encAt s (afterHeader s.enc) s.encIn (s.encOut ++ [byteToken s.enc byte])) ∨
       (s.enc.ph = .flush ∧
          t = encAt s (afterByte { s.enc with acc := 0, pos := 0 }) s.encIn (s.encOut ++ [byteToken s.enc s.enc.acc])) ∨
       (s.enc.ph = .pad ∧ t = encAt s (afterByte s.enc) s.encIn (s.encOut ++ [byteToken s.enc 0])) ∨
       (s.enc.ph = .hi ∧ t = encAt s { s.enc with idx := s.enc.idx + 1, ph := .lo } s.encIn
          (s.encOut ++ [byteToken s.enc (hiByte s.enc.val)])) ∨
       (s.enc.ph = .lo ∧ t = encAt s (afterByte s.enc) s.encIn (s.encOut ++ [byteToken s.enc (loByte s.enc.val)])) ∨
       (s.enc.ph = .fault ∧ t = encAt s (afterFault s.enc) s.encIn (s.encOut ++ [.f s.enc.flt])))) := by
  have put : ∀ {x : EncOut} {e : Enc}, encPutStep x e s = .moved t →
      hasRoom s.cfg.capEncOut s.encOut.length = true ∧ t = encAt s e s.encIn (s.encOut ++ [x]) := by
    intro x e hx
    rcases encPutStep_cases x e s with ⟨hr, h'⟩ | ⟨-, h'⟩
    · rw [h'] at hx; exact ⟨hr, (Tick.moved.inj hx).symm⟩
    · rw [h'] at hx; simp at hx
  unfold encTick at h
  split at h <;> rename_i hph
  · left
    unfold encIdle at h
    split at h
    · simp at h
    · simp at h
    · rename_i fc a g ts hin
      split at h
      · simp at h
      · rename_i hc
        exact ⟨fc, a, g, ts, hph, hin, by simpa using hc, (Tick.moved.inj h).symm⟩
  · unfold encHdr at h
    split at h
    · simp at h
    · rename_i byte hb
      obtain ⟨hr, ht⟩ := put h
      exact .inr <| .inr <| .inr <| .inr ⟨hr, .inl ⟨byte, hph, hb, ht⟩⟩
  · unfold encFetch at h
    split at h
    · simp at h
    · simp at h
    · rename_i x ts hin
      split at h
      · simp at h
      · rename_i hrem
        split at h
        · rename_i hfc
          split at h
          · rename_i v hv
            have hx : x = coilArg v := by
              unfold coilOfArg at hv
              split at hv
              · rename_i h0; simp at hv; subst hv; exact h0
              · split at hv
                · rename_i h0; simp at hv; subst hv; exact h0
                · simp at hv
            exact .inr <| .inl ⟨v, ts, hph, hrem, hfc, by rw [hin, hx], (Tick.moved.inj h).symm⟩
          · simp at h
        · split at h
          · rename_i hfc
            exact .inr <| .inr <| .inl ⟨x, ts, hph, hrem, hfc, hin, (Tick.moved.inj h).symm⟩
          · simp at h
  · obtain ⟨hr, ht⟩ := put h
    exact .inr <| .inr <| .inr <| .inr ⟨hr, .inr <| .inl ⟨hph, ht⟩⟩
  · obtain ⟨hr, ht⟩ := put h
    exact .inr <| .inr <| .inr <| .inr ⟨hr, .inr <| .inr <| .inr <| .inl ⟨hph, ht⟩⟩
  · obtain ⟨hr, ht⟩ := put h
    exact .inr <| .inr <| .inr <| .inr ⟨hr, .inr <| .inr <| .inr <| .inr <| .inl ⟨hph, ht⟩⟩
  · obtain ⟨hr, ht⟩ := put h
    exact .inr <| .inr <| .inr <| .inr ⟨hr, .inr <| .inr <| .inl ⟨hph, ht⟩⟩
  · obtain ⟨hr, ht⟩ := put h
    exact .inr <| .inr <| .inr <| .inr ⟨hr, .inr <| .inr <| .inr <| .inr <| .inr ⟨hph, ht⟩⟩
  · unfold encDrain at h
    split at h
    · simp at h
    · simp at h
    · rename_i x ts hin
      split at h
      · simp at h
      · rename_i hrem
        split at h
        · simp at h
        · rename_i hv
          exact .inr <| .inr <| .inr <| .inl ⟨x, ts, hph, hrem, by simpa using hv, hin, (Tick.moved.inj h).symm⟩

end Sys2Proof.Machine
end

