-- ==== Sys2Proof/Laws/PerInstr.lean ====
section
/-! SUPPORT. Laws/PerInstr.lean: what the encoding of every well-formed instruction looks like to the unit that takes it:
a well-formed command (spec/20_memory.md R65) or a frame of at least 2 bytes (R66), with the selector of its row
(spec/30_encoding.md R103) in front. -/

namespace Sys2Proof.Laws.Framing

/-- A well-formed command with function code `code`: the command token, then as many value tokens as `nval` says, none of
them a command token. -/
def IsCommand (code : FunctionCode) (nval : Nat) (ts : List EncIn) : Prop :=
  ∃ a g vs, ts = .c code.value a g :: vs ∧ vs.length = nval ∧ ∀ t ∈ vs, ∃ v, t = .v v

/-- A frame of `n` bytes whose byte 0 is `b0`, with `last` true on the final token alone. -/
def IsFrame (b0 : Byte) (n : Nat) (ts : List DecIn) : Prop :=
  ts.length = n ∧ (∃ rest, ts = .b b0 false :: rest) ∧ ∀ k, (h : k < ts.length) → ∃ x, ts[k] = .b x (decide (k + 1 = n))

/-- R65, R66, R103: the shape of an instruction's tokens. -/
def Statement (i : Instr) : Prop :=
  WellFormed i = true →
    match i with
    | .readCoils _ _ => ∃ ts, encode i = .enc ts ∧ IsCommand .readCoils 0 ts
    | .readDiscreteInputs _ _ => ∃ ts, encode i = .enc ts ∧ IsCommand .readDiscreteInputs 0 ts
    | .readHoldingRegisters _ _ => ∃ ts, encode i = .enc ts ∧ IsCommand .readHoldingRegisters 0 ts
    | .readInputRegisters _ _ => ∃ ts, encode i = .enc ts ∧ IsCommand .readInputRegisters 0 ts
    | .writeSingleCoil _ _ => ∃ ts, encode i = .enc ts ∧ IsCommand .writeSingleCoil 0 ts
    | .writeSingleRegister _ _ => ∃ ts, encode i = .enc ts ∧ IsCommand .writeSingleRegister 0 ts
    | .writeMultipleCoils _ vs => ∃ ts, encode i = .enc ts ∧ IsCommand .writeMultipleCoils vs.length ts
    | .writeMultipleRegisters _ vs => ∃ ts, encode i = .enc ts ∧ IsCommand .writeMultipleRegisters vs.length ts
    | .decodeResponseExc fc _ extra =>
      ∃ ts b0, encode i = .dec ts ∧ IsFrame b0 (2 + extra.length) ts ∧ exceptionBit b0 = true ∧ clearCode b0 = fc
    | .decodeResponseNrm fc payload =>
      ∃ ts, encode i = .dec ts ∧ IsFrame fc (1 + payload.length) ts ∧ exceptionBit fc = false

theorem fixed (code : FunctionCode) (a g : U16) : IsCommand code 0 [.c code.value a g] :=
  ⟨a, g, [], rfl, rfl, by simp⟩

theorem byteTokens_length (x : Byte) (bs : List Byte) : (byteTokens (x :: bs)).length = bs.length + 1 := by
  induction bs generalizing x with
  | nil => rfl
  | cons y bs ih => simp [byteTokens, ih]

theorem byteTokens_getElem (x : Byte) (bs : List Byte) (k : Nat) (h : k < (byteTokens (x :: bs)).length) :
    ∃ y, (byteTokens (x :: bs))[k] = .b y (decide (k = bs.length)) := by
  induction bs generalizing x k with
  | nil => exact ⟨x, by simp [byteTokens] at h ⊢; subst h; rfl⟩
  | cons y bs ih =>
    cases k with
    | zero => exact ⟨x, by simp [byteTokens]⟩
    | succ k =>
      obtain ⟨z, hz⟩ := ih y k (by simpa [byteTokens] using h)
      exact ⟨z, by simpa [byteTokens] using hz⟩

theorem frame (b0 b1 : Byte) (rest : List Byte) : IsFrame b0 (2 + rest.length) (frameTokens (b0 :: b1 :: rest)) := by
  refine ⟨by simp [frameTokens, byteTokens_length]; omega, ⟨byteTokens (b1 :: rest), rfl⟩, ?_⟩
  intro k h
  obtain ⟨x, hx⟩ := byteTokens_getElem b0 (b1 :: rest) k h
  have hk : decide (k + 1 = 2 + rest.length) = decide (k = (b1 :: rest).length) := by
    rw [List.length_cons]; exact decide_eq_decide.mpr (by omega)
  exact ⟨x, hk ▸ hx⟩

theorem excByte : ∀ fc : BitVec 7, exceptionBit ((1 : BitVec 1) ++ fc : BitVec 8) = true ∧
    clearCode ((1 : BitVec 1) ++ fc : BitVec 8) = fc := by decide

theorem readCoils (startAddr quantity : U16) : Statement (.readCoils startAddr quantity) :=
  fun _ => ⟨_, rfl, fixed .readCoils startAddr quantity⟩

theorem readDiscreteInputs (startAddr quantity : U16) : Statement (.readDiscreteInputs startAddr quantity) :=
  fun _ => ⟨_, rfl, fixed .readDiscreteInputs startAddr quantity⟩

theorem readHoldingRegisters (startAddr quantity : U16) : Statement (.readHoldingRegisters startAddr quantity) :=
  fun _ => ⟨_, rfl, fixed .readHoldingRegisters startAddr quantity⟩

theorem readInputRegisters (startAddr quantity : U16) : Statement (.readInputRegisters startAddr quantity) :=
  fun _ => ⟨_, rfl, fixed .readInputRegisters startAddr quantity⟩

theorem writeSingleCoil (addr : U16) (value : Bool) : Statement (.writeSingleCoil addr value) :=
  fun _ => ⟨_, rfl, fixed .writeSingleCoil addr (coilArg value)⟩

theorem writeSingleRegister (addr value : U16) : Statement (.writeSingleRegister addr value) :=
  fun _ => ⟨_, rfl, fixed .writeSingleRegister addr value⟩

theorem writeMultipleCoils (startAddr : U16) (values : List Bool) : Statement (.writeMultipleCoils startAddr values) :=
  fun _ => ⟨_, rfl, startAddr, _, _, rfl, by simp, fun t ht =>
    let ⟨v, _, hv⟩ := List.mem_map.mp ht; ⟨coilArg v, hv.symm⟩⟩

theorem writeMultipleRegisters (startAddr : U16) (values : List U16) :
    Statement (.writeMultipleRegisters startAddr values) :=
  fun _ => ⟨_, rfl, startAddr, _, _, rfl, by simp, by simp⟩

theorem decodeResponseExc (fc : BitVec 7) (code : Byte) (extra : List Byte) :
    Statement (.decodeResponseExc fc code extra) :=
  fun _ => ⟨_, (1 : BitVec 1) ++ fc, rfl, frame _ code extra, excByte fc⟩

theorem decodeResponseNrm (fc : Byte) (payload : List Byte) : Statement (.decodeResponseNrm fc payload) := by
  intro h
  simp only [WellFormed, normalCodeOk, payloadOk, Bool.and_eq_true, Bool.not_eq_true'] at h
  cases payload with
  | nil => simp at h
  | cons b1 rest =>
    refine ⟨_, rfl, ?_, h.1⟩
    have := frame fc b1 rest
    rwa [show 2 + rest.length = 1 + (b1 :: rest).length by simp; omega] at this

end Sys2Proof.Laws.Framing
end

