-- ==== Sys2Proof/Tests/Slice0.lean ====
section
/-! SUPPORT. Tests/Slice0.lean: the model's own tests. Expected values are the spec's (spec/95_test_vectors.md, the tables
named beside each test) or written out by hand from its formats (spec/30_encoding.md R82 to R96). The second half holds a
witness for the hypotheses of each statement that has some. -/

namespace Sys2Proof.Tests

open Sys2Proof Sys2Proof.Machine

/-! ## Helpers -/

/-- What `ENC_OUT` holds after a next state. -/
def encOutOf : Host.Outcome State Fault Refusal → Option (List EncOut)
  | .next s => some s.encOut
  | .fault _ => none
  | .refused _ => none

/-- What `DEC_OUT` holds after a next state. -/
def decOutOf : Host.Outcome State Fault Refusal → Option (List DecOut)
  | .next s => some s.decOut
  | .fault _ => none
  | .refused _ => none

/-- ENC's registers after a next state. -/
def encOf : Host.Outcome State Fault Refusal → Option Enc
  | .next s => some s.enc
  | .fault _ => none
  | .refused _ => none

/-- The launch state with a setting of `CFG.LEGACY_BYTE_COUNT`. -/
def launch (legacy : Bool) : State :=
  { State.reset with cfg := { Config.default with legacyByteCount := legacy } }

/-- The launch state with tokens in the two input channels and a schedule. -/
def withTokens (e : List EncIn) (d : List DecIn) (ts : List Turn) : State :=
  { State.reset with encIn := e, decIn := d, turns := ts }

/-! ## WellFormed: an ill-formed term for each check -/

/-- R21, U12: 65536 coils cannot be presented. -/
theorem test_wf_refuses_65536_coils : WellFormed (.writeMultipleCoils 0 (List.replicate 65536 true)) = false := by
  rw [WellFormed, List.length_replicate]; decide

/-- R21, U12: 65536 registers cannot be presented. -/
theorem test_wf_refuses_65536_registers : WellFormed (.writeMultipleRegisters 0 (List.replicate 65536 7)) = false := by
  rw [WellFormed, List.length_replicate]; decide

/-- The longest list that can be presented. -/
theorem test_wf_admits_65535_registers : WellFormed (.writeMultipleRegisters 0 (List.replicate 65535 7)) = true := by
  rw [WellFormed, List.length_replicate]; decide

/-- R86: bit 7 of a normal response's byte 0 is clear. -/
theorem test_wf_refuses_normal_with_bit7 : WellFormed (.decodeResponseNrm 0x83 [0x03]) = false := by decide

/-- R86, R180: a frame of one byte is no normal response. -/
theorem test_wf_refuses_empty_payload : WellFormed (.decodeResponseNrm 0x03 []) = false := by decide

/-! ## Decoding: words written out from the formats, one for each constructor -/

theorem test_decode_read_coils : decodeRequest [0x01, 0x00, 0x00, 0x00, 0x03] = .ok (.readCoils 0 3, []) := by decide

theorem test_decode_read_discrete_inputs :
    decodeRequest [0x02, 0x00, 0xC4, 0x00, 0x16] = .ok (.readDiscreteInputs 0x00C4 0x0016, []) := by decide

theorem test_decode_read_holding_registers :
    decodeRequest [0x03, 0x00, 0x6B, 0x00, 0x03] = .ok (.readHoldingRegisters 0x006B 3, []) := by decide

theorem test_decode_read_input_registers :
    decodeRequest [0x04, 0x12, 0x34, 0x00, 0x7D] = .ok (.readInputRegisters 0x1234 125, []) := by decide

theorem test_decode_write_single_coil :
    decodeRequest [0x05, 0x00, 0xAC, 0xFF, 0xFF] = .ok (.writeSingleCoil 0x00AC true, []) ∧
      decodeRequest [0x05, 0x00, 0xAC, 0x00, 0x00] = .ok (.writeSingleCoil 0x00AC false, []) := by decide

theorem test_decode_write_single_register :
    decodeRequest [0x06, 0x01, 0x00, 0x00, 0x01] = .ok (.writeSingleRegister 0x0100 0x0001, []) := by decide

theorem test_decode_write_multiple_coils :
    decodeRequest [0x0F, 0x00, 0x13, 0x00, 0x0A, 0x02, 0xCD, 0x01] =
      .ok (.writeMultipleCoils 0x0013 [true, false, true, true, false, false, true, true, true, false], []) := by decide

theorem test_decode_write_multiple_registers :
    decodeRequest [0x10, 0x00, 0x10, 0x00, 0x02, 0x04, 0x12, 0x34, 0xAB, 0xCD] =
      .ok (.writeMultipleRegisters 0x0010 [0x1234, 0xABCD], []) := by decide

theorem test_decode_exception : decodeFrame [0x90, 0x04, 0xAA] = .ok (.decodeResponseExc 0x10 4 [0xAA]) := by decide

theorem test_decode_normal : decodeFrame [0x7F, 0x00] = .ok (.decodeResponseNrm 0x7F [0x00]) := by decide

/-- R94, R95: the tokens of a function 16 command and of a coil command, and what follows them. -/
theorem test_decode_command_tokens :
    decodeCommand [.c 16 0x0010 2, .v 0x1234, .v 0xABCD, .c 5 0x00AC 1] =
      .ok (.writeMultipleRegisters 0x0010 [0x1234, 0xABCD], [.c 5 0x00AC 1]) ∧
    decodeCommand [.c 15 0x0020 1, .v 1] = .ok (.writeMultipleCoils 0x0020 [true], []) := by decide

/-- R96, R66: the tokens of a frame. -/
theorem test_decode_frame_tokens :
    decodeResponseTokens [.b 0x8F false, .b 0x02 true, .empty] = .ok (.decodeResponseExc 15 2 [], [.empty]) := by decide

/-- Rejections of bytes, each by its name. -/
theorem test_decode_rejects_bytes :
    decodeRequest [0x07, 0, 0, 0, 0] = .error (.illegalFunctionCode 7) ∧
    decodeRequest [0x05, 0x00, 0xAC, 0xFF, 0x00] = .error (.coilWord 0xFF00) ∧
    decodeRequest [0x0F, 0, 0, 0, 9, 3, 0x0D, 0x01, 0] = .error (.byteCount 3) ∧
    decodeRequest [0x0F, 0, 0, 0, 9, 2, 0x0D, 0x03] = .error .padding ∧
    decodeRequest [0x10, 0, 0, 0, 1, 2, 0xFF] = .error .tooShort ∧
    decodeFrame [0x83] = .error .malformedFrame := by decide

/-- Rejections of tokens, each by its name. -/
theorem test_decode_rejects_tokens :
    decodeCommand [.v 1] = .error .valueToken ∧
    decodeCommand [.c 5 0x00AC 2] = .error (.coilToken 2) ∧
    decodeCommand [.c 15 0 2, .v 1, .v 2] = .error (.coilToken 2) ∧
    decodeCommand [.c 15 0 2, .v 1, .c 1 0 0] = .error .commandToken ∧
    decodeResponseTokens [.b 0x83 false, .empty] = .error .emptyInFrame ∧
    decodeResponseTokens [.empty] = .error .malformedFrame := by decide

/-- The table's own words: bit 0 is bit 0 of byte 0. -/
theorem test_decode_table_words :
    decodeTableWord 40 0x0300000001 = some (.readCoils 0 3) ∧ decodeTableWord 40 0x7D00341204 = some (.readInputRegisters 0x1234 125) ∧
      decodeTableWord 48 0x10 = some (.writeMultipleRegisters 0 []) ∧
      decodeTableWord 16 0x0383 = some (.decodeResponseExc 3 3 []) := by decide

/-! ## One step from reset, the instruction fetched as a table word (spec/95_test_vectors.md parts 1 to 4) -/

theorem test_read_coils :
    encOutOf (step (State.reset.withFetchWord 40 0x0300000001)) =
      some [.b 0x01 false, .b 0x00 false, .b 0x00 false, .b 0x00 false, .b 0x03 true] := by decide

theorem test_read_discrete_inputs :
    encOutOf (step (State.reset.withFetchWord 40 0x1600C40002)) =
      some [.b 0x02 false, .b 0x00 false, .b 0xC4 false, .b 0x00 false, .b 0x16 true] := by decide

theorem test_read_holding_registers :
    encOutOf (step (State.reset.withFetchWord 40 0x03006B0003)) =
      some [.b 0x03 false, .b 0x00 false, .b 0x6B false, .b 0x00 false, .b 0x03 true] := by decide

/-- No validation of the quantity: 126 is encoded (D9). -/
theorem test_read_input_registers :
    encOutOf (exec (.readInputRegisters 0x1234 126) State.reset) =
      some [.b 0x04 false, .b 0x12 false, .b 0x34 false, .b 0x00 false, .b 0x7E true] := by decide

theorem test_write_single_coil_on :
    encOutOf (exec (.writeSingleCoil 0x00AC true) State.reset) =
      some [.b 0x05 false, .b 0x00 false, .b 0xAC false, .b 0xFF false, .b 0xFF true] := by decide

theorem test_write_single_coil_off :
    encOutOf (step (State.reset.withFetchWord 40 0x0000AC0005)) =
      some [.b 0x05 false, .b 0x00 false, .b 0xAC false, .b 0x00 false, .b 0x00 true] := by decide

/-- "distinguishes byte order: little-endian would give 06 00 01 01 00". -/
theorem test_write_single_register :
    encOutOf (exec (.writeSingleRegister 0x0100 0x0001) State.reset) =
      some [.b 0x06 false, .b 0x01 false, .b 0x00 false, .b 0x00 false, .b 0x01 true] := by decide

/-- Example S3 of part 1. -/
theorem test_write_multiple_coils :
    encOutOf (exec (.writeMultipleCoils 0 [true, false, true, true, false, false, false, false, true]) State.reset) =
      some [.b 0x0F false, .b 0x00 false, .b 0x00 false, .b 0x00 false, .b 0x09 false, .b 0x02 false, .b 0x0D false,
        .b 0x01 true] := by decide

/-- Program P4, run B: the legacy setting appends a zero byte when 8 divides the coil count. -/
theorem test_write_multiple_coils_legacy :
    encOutOf (exec (.writeMultipleCoils 0x0013 (List.replicate 8 true)) (launch true)) =
      some [.b 0x0F false, .b 0x00 false, .b 0x13 false, .b 0x00 false, .b 0x08 false, .b 0x02 false, .b 0xFF false,
        .b 0x00 true] := by decide

theorem test_write_multiple_registers :
    encOutOf (exec (.writeMultipleRegisters 0x0010 [0x1234, 0xABCD]) State.reset) =
      some [.b 0x10 false, .b 0x00 false, .b 0x10 false, .b 0x00 false, .b 0x02 false, .b 0x04 false, .b 0x12 false,
        .b 0x34 false, .b 0xAB false, .b 0xCD true] := by decide

set_option maxRecDepth 20000 in
/-- 128 values do not fit: `F(2)`, the values drained. -/
theorem test_write_multiple_registers_overflow :
    encOutOf (exec (.writeMultipleRegisters 0 (List.replicate 128 7)) State.reset) = some [.f 2] := by decide

theorem test_decode_response_exception :
    decOutOf (exec (.decodeResponseExc 3 3 [0xAA, 0xBB]) State.reset) = some [.exception 3 3 .illegalDataValue] := by decide

theorem test_decode_response_unknown_code :
    decOutOf (step (State.reset.withFetchWord 16 0x0B90)) = some [.exception 16 11 .unknownModbusException] := by decide

theorem test_decode_response_normal :
    decOutOf (exec (.decodeResponseNrm 3 [0x02, 0x00, 0x2A]) State.reset) = some [.normal 3] := by decide

/-- Bit 7 matters in byte 0 only. -/
theorem test_decode_response_normal_bit7_of_byte1 :
    decOutOf (exec (.decodeResponseNrm 3 [0x83]) State.reset) = some [.normal 3] := by decide

/-! ## Frames and commands that are no instruction -/

/-- `C(7, 0x1234, 0x5678)` gives `F(1)`. -/
theorem test_illegal_function : encOutOf (step (withTokens [.c 7 0x1234 0x5678] [] [.encRun])) = some [.f 1] := by decide

/-- A frame of one byte and the empty frame are malformed, whatever bit 7 is. -/
theorem test_malformed :
    decOutOf (step (withTokens [] [.b 0x83 true] [.decRun])) = some [.malformed] ∧
      decOutOf (step (withTokens [] [.empty] [.decRun])) = some [.malformed] := by decide

/-- Program P1, the registers at the end of ENC's trace. -/
theorem test_registers_after_read_coils :
    encOf (exec (.readCoils 0 3) State.reset) =
      some { Enc.reset with fc := 1, addr := 0, arg := 3, len := 5, idx := 5, rem := 0 } := by decide

/-! ## Witnesses: for each statement with hypotheses, a state and operands that meet all of them -/

/-- An outcome is a next state. -/
def goesOn : Host.Outcome State Fault Refusal → Bool
  | .next _ => true
  | .fault _ => false
  | .refused _ => false

theorem next_of_goesOn {o : Host.Outcome State Fault Refusal} (h : goesOn o = true) : ∃ t, o = .next t := by
  cases o with
  | next t => exact ⟨t, rfl⟩
  | fault => simp [goesOn] at h
  | refused => simp [goesOn] at h

/-- A tick has moved a token. -/
def moves : Tick → Bool
  | .moved _ => true
  | .waiting => false
  | .stuck _ => false
  | .refused _ => false

theorem moved_of_moves {o : Tick} (h : moves o = true) : ∃ t, o = .moved t := by
  cases o with
  | moved t => exact ⟨t, rfl⟩
  | waiting => simp [moves] at h
  | stuck => simp [moves] at h
  | refused => simp [moves] at h

/-- The launch state with every channel at capacity `c`. -/
def withCap (c : Nat) : State :=
  { State.reset with
    cfg := { Config.default with capEncIn := some c, capEncOut := some c, capDecIn := some c, capDecOut := some c } }

/-- ENC in the middle of `read_coils(0, 3)`, two header bytes out. -/
def encBusy : State :=
  { State.reset with
    enc := { Enc.reset with ph := .hdr, fc := 1, arg := 3, len := 5, idx := 2 }, encOut := [.b 1 false, .b 0 false] }

/-- ENC in the middle of a function 15 command with 9 coils, its header out and none taken. -/
def encFetching : State :=
  { State.reset with
    enc := { Enc.reset with ph := .fetch, fc := 15, arg := 9, bc := 2, len := 8, idx := 6, rem := 9 }
    encOut := [.b 15 false, .b 0 false, .b 0 false, .b 0 false, .b 9 false, .b 2 false] }

/-- DEC with one byte of a frame taken. -/
def decBusy : State := { State.reset with dec := { Dec.reset with b0 := 0x83, cnt := 1 } }

theorem witness_ResetPin :
    (quiet (withTokens [] [] [.reset]) = true ∧ (withTokens [] [] [.reset]).turns = .reset :: []) ∧
      quiet (withTokens [.c 1 0 3] [] [.reset]) = false ∧ quiet encBusy = false ∧ quiet decBusy = false := by decide

theorem witness_Restart : ({ encBusy with turns := [.restart [.c 1 0 3] [.empty]] } : State).turns =
    .restart [.c 1 0 3] [.empty] :: [] := rfl

theorem witness_ConfigurationNeverChanges : ∃ t, step (withTokens [.c 1 0 3] [] [.enc]) = .next t :=
  next_of_goesOn (by decide)

theorem witness_EncRunTurnExecutes :
    (Request.writeMultipleCoils 0 [true]).wf = true ∧ (withTokens [.c 15 0 1, .v 1, .v 9] [] [.encRun]).enc.ph = .idle ∧
      (withTokens [.c 15 0 1, .v 1, .v 9] [] [.encRun]).encIn = (Request.writeMultipleCoils 0 [true]).tokens ++ [.v 9] := by
  decide

theorem witness_DecRunTurnExecutes :
    WellFormed (.decodeResponseExc 3 3 []) = true ∧ encode (.decodeResponseExc 3 3 []) = .dec [.b 0x83 false, .b 3 true] ∧
      decIdle (withTokens [] [.b 0x83 false, .b 3 true, .empty] [.decRun]).dec = true := by decide

theorem witness_AFetchWord :
    (decodeTableWord 40 0x0300000001 = some (.readCoils 0 3) ∧ (Instr.readCoils 0 3).codecUnit = .enc) ∧
      decodeTableWord 16 0x0383 = some (.decodeResponseExc 3 3 []) ∧ (Instr.decodeResponseExc 3 3 []).codecUnit = .dec := by
  decide

theorem witness_RunTurnIsItsTokenSteps :
    (∃ t, step (withTokens [.c 1 0 3] [] [.encRun, .dec]) = .next t) ∧
      ∃ t, step (withTokens [] [.b 3 false, .b 2 true] [.decRun, .enc]) = .next t :=
  ⟨next_of_goesOn (by decide), next_of_goesOn (by decide)⟩

theorem witness_StepMovesExactlyOneToken :
    (∃ t, encTick (withTokens [.c 1 0 3] [] []) = .moved t) ∧ (∃ t, encTick encBusy = .moved t) ∧
      (∃ t, decTick (withTokens [] [.b 3 true] []) = .moved t) ∧
      ∃ t, decTick { State.reset with dec := { Dec.reset with ph := .result, cnt := 1 } } = .moved t :=
  ⟨moved_of_moves (by decide), moved_of_moves (by decide), moved_of_moves (by decide), moved_of_moves (by decide)⟩

/-- The boundary counts of function 15 and 16, and the illegal codes at the ends of their ranges; `C(5, addr, 1)`. -/
theorem witness_AcceptStep :
    (withTokens [.c 5 0xAC 1] [] []).enc.ph = .idle ∧ (withTokens [.c 5 0xAC 1] [] []).encIn = .c 5 0xAC 1 :: [] ∧
      (1 : U16).toNat ≤ 1 ∧ ((2040 : U16).toNat + 7) / 8 ≤ 255 ∧ 255 < ((2041 : U16).toNat + 7) / 8 ∧
      (2039 : U16).toNat / 8 + 1 ≤ 255 ∧ 255 < (2040 : U16).toNat / 8 + 1 ∧ 2 * (127 : U16).toNat ≤ 255 ∧
      255 < 2 * (128 : U16).toNat ∧ (0 : Byte).toNat = 0 ∧ 7 ≤ (7 : Byte).toNat ∧ (14 : Byte).toNat ≤ 14 ∧
      17 ≤ (17 : Byte).toNat ∧ 17 ≤ (255 : Byte).toNat := by decide

/-- The first and the last header byte of `read_coils`, and the sixth of a function 16 command. -/
theorem witness_HeaderStep :
    encBusy.enc.ph = .hdr ∧ hasRoom encBusy.cfg.capEncOut encBusy.encOut.length = true ∧
      ([0x01, hiByte 0, loByte 0, hiByte 3, loByte 3] ++ [] : List Byte)[0]? = some 0x01 ∧
      ([0x01, hiByte 0, loByte 0, hiByte 3, loByte 3] ++ [] : List Byte)[4]? = some 0x03 ∧
      ([0x10, hiByte 0, loByte 0, hiByte 2, loByte 2] ++ [0x04] : List Byte)[5]? = some 0x04 := by decide

/-- ENC in each phase of a function 15 command, a coil at the head of `ENC_IN`. -/
theorem witness_CoilSteps :
    let s := { encFetching with encIn := [.v (coilArg true)] }
    s.enc.ph = .fetch ∧ s.enc.fc = 15 ∧ s.enc.rem ≠ 0 ∧ s.encIn = .v (coilArg true) :: [] ∧
      moves (encTick { s with enc := { s.enc with ph := .flush } }) = true ∧
      moves (encTick { s with enc := { s.enc with ph := .pad } }) = true := by decide

/-- ENC in each phase of a function 16 command, a value at the head of `ENC_IN`. -/
theorem witness_RegisterSteps :
    let s := { State.reset with
      enc := { Enc.reset with ph := .fetch, fc := 16, arg := 2, bc := 4, len := 10, idx := 6, rem := 2 }, encIn := [.v 0x1234] }
    s.enc.ph = .fetch ∧ s.enc.fc = 16 ∧ s.enc.rem ≠ 0 ∧ s.encIn = .v 0x1234 :: [] ∧
      moves (encTick { s with enc := { s.enc with ph := .hi } }) = true ∧
      moves (encTick { s with enc := { s.enc with ph := .lo } }) = true := by decide

/-- ENC draining the last value of an overflowing command. -/
def encDraining (fc : Byte) (v : U16) : State :=
  { State.reset with enc := { Enc.reset with ph := .drain, fc := fc, arg := 2041, rem := 1, flt := 2 }, encIn := [.v v] }

/-- ENC in `FAULT` and in `DRAIN` with the last value due: any value of function 16, the coils 0 and 1 of function 15. -/
theorem witness_FaultStep :
    (encDraining 16 0xFFFF).enc.ph = .drain ∧ (encDraining 16 0xFFFF).enc.rem ≠ 0 ∧
      (encDraining 16 0xFFFF).encIn = .v 0xFFFF :: [] ∧ (encDraining 16 0xFFFF).enc.fc ≠ 15 ∧
      (encDraining 15 0).enc.fc = 15 ∧ (0 : U16).toNat ≤ 1 ∧ moves (encTick (encDraining 15 0)) = true ∧
      (1 : U16).toNat ≤ 1 ∧ moves (encTick (encDraining 15 1)) = true ∧
      moves (encTick { encDraining 15 1 with enc := { (encDraining 15 1).enc with ph := .fault } }) = true := by decide

/-- DEC before a byte, before `EMPTY`, and in `RESULT`. -/
theorem witness_DecSteps :
    (withTokens [] [.b 0x83 false] []).dec.ph = .recv ∧ (withTokens [] [.empty] []).dec.cnt = 0 ∧
      moves (decTick { State.reset with dec := { Dec.reset with ph := .result, b0 := 0x83, b1 := 3, cnt := 2 } }) = true := by
  decide

/-- Exactly room for the longer of the two empty function 15 PDUs. -/
theorem witness_EmptySequences : roomFor (withCap 7).cfg.capEncOut (withCap 7).encOut.length 7 := Nat.le.refl

/-- Exactly room for a five-byte PDU. -/
theorem witness_FixedRequests : (withCap 5).enc.ph = .idle ∧ roomFor (withCap 5).cfg.capEncOut (withCap 5).encOut.length 5 :=
  ⟨rfl, Nat.le.refl⟩

/-- The boundary values of the refused arguments of function 5. -/
theorem witness_WriteSingleCoil_refused :
    2 ≤ (2 : U16).toNat ∧ 2 ≤ (0xFFFF : U16).toNat ∧ (withTokens [.c 5 0xAC 2] [] []).encIn = .c 0x05 0xAC 2 :: [] := by
  decide

theorem byteCount_boundaries :
    byteCount15 false 2040 = 255 ∧ byteCount15 true 2039 = 255 ∧ byteCount15 false 2041 = 256 ∧ byteCount15 true 2040 = 256 ∧
      byteCount15 false 0 = 0 ∧ byteCount15 true 0 = 1 := by decide

/-- The longest function 15 PDU of each setting, and exactly room for it. -/
theorem witness_WriteMultipleCoils :
    (∃ vs : List Bool, vs.length ≤ 65535 ∧ byteCount15 (withCap 261).cfg.legacyByteCount vs.length ≤ 255 ∧
      roomFor (withCap 261).cfg.capEncOut (withCap 261).encOut.length
        (6 + byteCount15 (withCap 261).cfg.legacyByteCount vs.length)) ∧
    ∃ vs : List Bool, vs.length ≤ 65535 ∧ byteCount15 (launch true).cfg.legacyByteCount vs.length ≤ 255 :=
  ⟨⟨List.replicate 2040 true, by rw [List.length_replicate]; decide,
      by rw [List.length_replicate]; exact byteCount_boundaries.1.le,
      by rw [List.length_replicate]; show 0 + (6 + byteCount15 false 2040) ≤ 261; decide⟩,
    ⟨List.replicate 2039 true, by rw [List.length_replicate]; decide,
      by rw [List.length_replicate]; exact byteCount_boundaries.2.1.le⟩⟩

/-- 127 registers, and exactly room for their PDU. -/
theorem witness_WriteMultipleRegisters :
    ∃ vs : List U16, vs.length ≤ 127 ∧
      roomFor (withCap 260).cfg.capEncOut (withCap 260).encOut.length (6 + 2 * vs.length) :=
  ⟨List.replicate 127 1, by rw [List.length_replicate], by rw [List.length_replicate]; show 0 + (6 + 2 * 127) ≤ 260; decide⟩

/-- The shortest overflowing sequences: 2041 coils, 2040 in the legacy setting, 128 registers. -/
theorem witness_Overflow :
    (withCap 1).enc.ph = .idle ∧ roomFor (withCap 1).cfg.capEncOut (withCap 1).encOut.length 1 ∧
      (∃ vs : List Bool, vs.length ≤ 65535 ∧ 255 < byteCount15 (withCap 1).cfg.legacyByteCount vs.length) ∧
      (∃ vs : List Bool, vs.length ≤ 65535 ∧ 255 < byteCount15 (launch true).cfg.legacyByteCount vs.length) ∧
      ∃ vs : List U16, vs.length ≤ 65535 ∧ 255 < 2 * vs.length :=
  ⟨rfl, Nat.le.refl,
    ⟨List.replicate 2041 true, by rw [List.length_replicate]; decide, by rw [List.length_replicate]; decide⟩,
    ⟨List.replicate 2040 true, by rw [List.length_replicate]; decide, by rw [List.length_replicate]; decide⟩,
    ⟨List.replicate 128 1, by rw [List.length_replicate]; decide, by rw [List.length_replicate]; decide⟩⟩

theorem witness_IllegalFunction :
    functionCodeOf 0 = none ∧ functionCodeOf 7 = none ∧ functionCodeOf 14 = none ∧ functionCodeOf 17 = none ∧
      functionCodeOf 0x81 = none ∧ (withTokens [.c 7 1 2, .c 1 0 3] [] []).encIn = .c 7 1 2 :: [.c 1 0 3] := by decide

theorem witness_HeaderNeedsNoValueToken :
    (2040 : U16) ≠ 0 ∧ byteCount15 State.reset.cfg.legacyByteCount (2040 : U16).toNat ≤ 255 ∧ (127 : U16).toNat ≤ 127 ∧
      (withTokens [.c 0x0F 0 2040] [] []).encIn = [.c 0x0F 0 2040] := by decide

theorem witness_TokenMachineMeetsEncode :
    ((Command.request (.writeMultipleRegisters 0x10 [1, 2])).wf = true ∧ (Command.illegal 7 1 2).wf = true) ∧
      (withTokens [.c 7 1 2, .v 3] [] []).encIn = (Command.illegal 7 1 2).tokens ++ [.v 3] ∧
      (withTokens [.c 16 0x10 2, .v 1, .v 2] [] []).encIn =
        (Command.request (.writeMultipleRegisters 0x10 [1, 2])).tokens ++ [] := by decide

theorem witness_ABusyUnit :
    encode (.readCoils 0 3) = .enc [.c 1 0 3] ∧ encBusy.enc.ph ≠ .idle ∧
      encode (.decodeResponseNrm 3 [2]) = .dec [.b 3 false, .b 2 true] ∧ decIdle decBusy.dec = false := by decide

theorem witness_EveryInstruction :
    WellFormed (.writeMultipleCoils 0 []) = true ∧ WellFormed (.decodeResponseNrm 0x7F [0]) = true := by decide

theorem witness_NonBooleanCoils :
    ({ encFetching with encIn := [.v 2] } : State).enc.ph = .fetch ∧ encFetching.enc.fc = 0x0F ∧ encFetching.enc.rem ≠ 0 ∧
      2 ≤ (2 : U16).toNat ∧ 2 ≤ (0xFFFF : U16).toNat ∧ (encDraining 15 2).enc.ph = .drain ∧
      (encDraining 15 2).enc.fc = 0x0F ∧ (encDraining 15 2).enc.rem ≠ 0 ∧ (encDraining 15 2).encIn = .v 2 :: [] := by decide

/-- R95, R239: of an overflowing function 15 command too; a function 16 command drains the same value. -/
theorem test_drained_coil_is_refused :
    encTick (encDraining 15 2) = .refused .coilValue ∧ moves (encTick (encDraining 16 2)) = true := by decide

theorem witness_ProtocolBreaks :
    (withTokens [.v 1] [] []).enc.ph = .idle ∧ ({ encFetching with encIn := [.c 1 0 3] } : State).enc.ph = .fetch ∧
      ({ encFetching with enc := { encFetching.enc with ph := .drain }, encIn := [.c 1 0 3] } : State).enc.ph = .drain ∧
      ({ decBusy with decIn := [.empty] } : State).dec.ph = .recv ∧ decBusy.dec.cnt ≠ 0 := by decide

/-- ENC is stuck on a value token while DEC takes its turn; DEC is stuck on `EMPTY` while ENC takes its turn. -/
theorem witness_OnlyRestartLiftsAStuckEnc :
    (encTick (withTokens [.v 1] [.empty] [.dec]) = .stuck .encStuckOnValue ∧
      (∀ x ∈ (withTokens [.v 1] [.empty] [.dec]).turns, sameRun x = true) ∧
      ∃ t, step (withTokens [.v 1] [.empty] [.dec]) = .next t) ∧
    let s := { decBusy with decIn := [.empty], encIn := [.c 1 0 3], turns := [.enc] }
    decTick s = .stuck .decStuckOnEmpty ∧ (∀ x ∈ s.turns, sameRun x = true) ∧ ∃ t, step s = .next t :=
  ⟨⟨by decide, by decide, next_of_goesOn (by decide)⟩, by decide, by decide, next_of_goesOn (by decide)⟩

/-- Waiting on an empty input, and on a full output. -/
theorem witness_AWaitingUnitHolds :
    encTick (withTokens [] [] [.enc]) = .waiting ∧ decTick (withTokens [] [] [.dec]) = .waiting ∧
      encTick { encBusy with cfg := { Config.default with capEncOut := some 2 } } = .waiting ∧
      decTick { withCap 1 with dec := { Dec.reset with ph := .result }, decOut := [.malformed] } = .waiting := by decide

/-- Exactly room for one result. -/
theorem witness_Responses :
    decIdle (withCap 1).dec = true ∧ roomFor (withCap 1).cfg.capDecOut (withCap 1).decOut.length 1 ∧
      (0x7F : Byte).getLsbD 7 = false :=
  ⟨by decide, Nat.le.refl, by decide⟩

/-- Frames of 0, 1 and 2 bytes. -/
theorem witness_TokenMachineMeetsDecode :
    (withTokens [] [.empty, .empty] []).decIn = frameTokens [] ++ [.empty] ∧
      (withTokens [] [.b 0x83 true] []).decIn = frameTokens [0x83] ++ [] ∧
      (withTokens [] [.b 0x83 false, .b 3 true] []).decIn = frameTokens [0x83, 3] ++ [] := by decide

theorem witness_EncodedRequests :
    encodeRequest Config.default (.readCoils 0 3) = .pdu [0x01, 0x00, 0x00, 0x00, 0x03] := by decide

theorem witness_DecodeOfEncodedTokens :
    (WellFormed (.readCoils 0xFFFF 0xFFFF) = true ∧ encode (.readCoils 0xFFFF 0xFFFF) = .enc [.c 1 0xFFFF 0xFFFF]) ∧
      WellFormed (.decodeResponseNrm 0x7F [0]) = true ∧
      encode (.decodeResponseNrm 0x7F [0]) = .dec [.b 0x7F false, .b 0 true] := by decide

theorem witness_DecodeOfPduBytes :
    (Request.writeMultipleCoils 0x13 (List.replicate 8 true)).wf = true ∧
      (Request.writeMultipleCoils 0x13 (List.replicate 8 true)).toInstr.bytes true =
        some [0x0F, 0x00, 0x13, 0x00, 0x08, 0x02, 0xFF, 0x00] := by decide

theorem witness_DecodeOfFrameBytes :
    WellFormed (.decodeResponseExc 0x7F 0xFF [1]) = true ∧ (Instr.decodeResponseExc 0x7F 0xFF [1]).codecUnit = .dec ∧
      (Instr.decodeResponseExc 0x7F 0xFF [1]).bytes false = some [0xFF, 0xFF, 1] := by decide

/-- The invariant in the middle of a function 15 command, and a step from there. -/
theorem witness_Invariant : MachineInv encFetching ∧ ∃ t, step { encFetching with encIn := [.v 1], turns := [.enc] } = .next t :=
  ⟨by simp [MachineInv, EncInv, CoilsInFlight, byteCount15, encFetching, State.reset, Config.default, Dec.reset, encObserved,
      openFrame, bytesOut, withinCap, Enc.reset],
    next_of_goesOn (by decide)⟩

/-- The invariant where ENC's beat is a coil that is refused, a step of ENC from a coil, and one of DEC. -/
theorem witness_ATransferOnTheWires :
    (MachineInv { encFetching with encIn := [.v 2] } ∧ rst { encFetching with encIn := [.v 2] } = false ∧
      encTick { encFetching with encIn := [.v 2] } = .refused .coilValue) ∧
      (∃ t, encTick { encFetching with encIn := [.v 1] } = .moved t) ∧
      ∃ t, decTick { encFetching with decIn := [.b 3 true] } = .moved t :=
  ⟨⟨by simp [MachineInv, EncInv, CoilsInFlight, byteCount15, encFetching, State.reset, Config.default, Dec.reset, encObserved,
      openFrame, bytesOut, withinCap, Enc.reset], by decide, by decide⟩,
    moved_of_moves (by decide), moved_of_moves (by decide)⟩

/-- `rst` is 1 at the reset turn and at `restart`, in a quiet state and in mid-run, and 0 elsewhere. -/
theorem witness_AnEdgeWithRst :
    (rst (withTokens [] [] [.reset]) = true ∧ ∃ t, step (withTokens [] [] [.reset]) = .next t) ∧
      (rst { encBusy with turns := [.restart [.c 1 0 3] []] } = true ∧
        ∃ t, step { encBusy with turns := [.restart [.c 1 0 3] []] } = .next t) ∧
      rst { encBusy with turns := [.reset] } = true ∧ rst { encBusy with turns := [.enc, .reset] } = false :=
  ⟨⟨rfl, _, rfl⟩, ⟨rfl, _, rfl⟩, rfl, rfl⟩

/-- The coils of the input set, and ENC where a value token is a coil and where it is not. -/
theorem witness_TokensSurviveThePins :
    (0 : U16).toNat ≤ 1 ∧ (1 : U16).toNat ≤ 1 ∧ encFetching.enc.fc = 15 ∧ (encDraining 16 2).enc.fc ≠ 15 := by decide

/-- At an edge with `rst = 1` ENC's waiting byte does not move. -/
theorem test_rst_holds_the_byte :
    encOutTransfers encBusy = true ∧ encOutTransfers { encBusy with turns := [.reset] } = false := by decide

/-- R104: `enc_in_ready` is 0 for a `V` beat in `IDLE`, and a full `ENC_OUT` drops its ready. -/
theorem test_ready_lines :
    encInTransfers 0 (withTokens [.v 1] [] []) = false ∧ encInTransfers 0 (withTokens [.c 1 0 3] [] []) = true ∧
      encOutTransfers encBusy = true ∧
      encOutTransfers { encBusy with cfg := { Config.default with capEncOut := some 2 } } = false := by decide

/-- Two different states that no step tells apart: `BC`, `VAL` and `B1` are stale. -/
theorem witness_StaleRegisters :
    let s := withTokens [.c 1 0 3] [] [.enc]
    let t := { s with enc := { s.enc with bc := 7, val := 0xABCD, flt := 3 }, dec := { s.dec with b0 := 1, b1 := 2 } }
    live s = live t ∧ s ≠ t := by decide

theorem witness_StepsCommute :
    (∃ t, encTick (withTokens [.c 1 0 3] [.b 3 true] []) = .moved t) ∧
      ∃ t, decTick (withTokens [.c 1 0 3] [.b 3 true] []) = .moved t :=
  ⟨moved_of_moves (by decide), moved_of_moves (by decide)⟩

theorem witness_AUnitsTurn :
    (∃ t, step (withTokens [.c 1 0 3] [.empty] [.enc]) = .next t) ∧
      (∃ t, step (withTokens [.c 1 0 3] [.empty] [.encRun]) = .next t) ∧
      (∃ t, step (withTokens [.c 1 0 3] [.empty] [.dec]) = .next t) ∧
      ∃ t, step (withTokens [.c 1 0 3] [.empty] [.decRun]) = .next t :=
  ⟨next_of_goesOn (by decide), next_of_goesOn (by decide), next_of_goesOn (by decide), next_of_goesOn (by decide)⟩

/-- A host with a token to put on each input, on channels of capacity 1. -/
def hostBusy : State :=
  { withCap 1 with host := { encProg := [.v 1], decProg := [.empty], encGot := [], decGot := [] } }

/-- Each of the four host moves with a token to move and room for it, and the puts on a full channel. -/
theorem witness_HostMoves :
    (hostBusy.host.encProg = .v 1 :: [] ∧ hasRoom hostBusy.cfg.capEncIn hostBusy.encIn.length = true ∧
      hostBusy.host.decProg = .empty :: [] ∧ hasRoom hostBusy.cfg.capDecIn hostBusy.decIn.length = true) ∧
    (hasRoom hostBusy.cfg.capEncIn [EncIn.v 0].length = false ∧ hasRoom hostBusy.cfg.capDecIn [DecIn.empty].length = false) ∧
    encBusy.encOut = .b 1 false :: [.b 0 false] ∧ ({ State.reset with decOut := [.malformed] } : State).decOut = .malformed :: [] ∧
    State.reset.host.encProg = [] ∧ State.reset.host.decProg = [] ∧ State.reset.encOut = [] ∧ State.reset.decOut = [] := by
  decide

/-- Each of the four host moves moves its own token. -/
theorem test_host_moves :
    (hostPutEnc hostBusy).encIn = [.v 1] ∧ (hostPutDec hostBusy).decIn = [.empty] ∧
      (hostTakeEnc encBusy).host.encGot = [.b 1 false] ∧
      (hostTakeDec { State.reset with decOut := [.malformed] }).host.decGot = [.malformed] := by decide

/-- A whole run: `write_single_register(0x0100, 1)`, an illegal command, and an exception response, on channels of
capacity 5. -/
def run0 : State :=
  { withCap 5 with
    host := { encProg := [.c 6 0x0100 1, .c 7 1 2], decProg := [.b 0x83 false, .b 3 true], encGot := [], decGot := [] }
    turns := [.putEnc, .putDec, .encRun, .putEnc, .takeEnc, .putDec, .encRun, .decRun] }

/-- The end of `run0`. -/
def run0End : State :=
  { withCap 5 with
    enc := { Enc.reset with fc := 7, addr := 1, arg := 2, len := 5, flt := 1 }
    dec := { Dec.reset with b0 := 0x83, b1 := 3 }
    encOut := [.b 0x01 false, .b 0x00 false, .b 0x00 false, .b 0x01 true, .f 1]
    decOut := [.exception 3 3 .illegalDataValue]
    host := { encProg := [], decProg := [], encGot := [.b 0x06 false], decGot := [] } }

theorem witness_ARunThatEndsWell :
    Launch run0 ∧ (∀ c ∈ [Command.request (.writeSingleRegister 0x0100 1), .illegal 7 1 2], c.wf = true) ∧
      run0.host.encProg = [Command.request (.writeSingleRegister 0x0100 1), .illegal 7 1 2].flatMap Command.tokens ∧
      run0.host.decProg = [[0x83, 3]].flatMap frameTokens ∧ (∀ x ∈ run0.turns, sameRun x = true ∧ x ≠ .reset) ∧
      core.run 8 run0 = .next run0End ∧ EndedWell run0End :=
  ⟨by simp [Launch, run0, withCap, State.reset, Enc.reset, Dec.reset, decIdle], by decide, by decide, by decide, by decide, rfl,
    by simp [EndedWell, run0End, withCap, State.reset, Enc.reset, Dec.reset, decIdle]⟩

theorem witness_CommandsFinish :
    let s := withTokens [.c 1 0 3, .c 7 1 2] [] []
    s.turns = [] ∧ s.enc.ph = .idle ∧
      s.encIn = [Command.request (.readCoils 0 3), .illegal 7 1 2].flatMap Command.tokens := by decide

end Sys2Proof.Tests
end

section
/-! PROOFS. HostMoves.lean: what each of the host's four moves does (R58, R63, R64), and that none loses, adds or reorders
a token. -/

namespace Sys2Proof.Machine

/-- The first turn of the schedule is taken off it and made. -/
theorem step_of_turns_cons {s : State} {x : Turn} {ts : List Turn} (h : s.turns = x :: ts) :
    step s = turnStep x (s.setTurns ts) := by
  simp [step, h]

/-! ## Each move with a token to move, and blocked -/

theorem hostPutEnc_of_room {s : State} {x : EncIn} {rest : List EncIn} (hp : s.host.encProg = x :: rest)
    (hr : hasRoom s.cfg.capEncIn s.encIn.length = true) :
    hostPutEnc s = { s with encIn := s.encIn ++ [x], host := { s.host with encProg := rest } } := by
  simp [hostPutEnc, hp, hr, State.setEncIn, State.setHost]

theorem hostPutEnc_of_blocked {s : State}
    (h : s.host.encProg = [] ∨ hasRoom s.cfg.capEncIn s.encIn.length = false) : hostPutEnc s = s := by
  obtain hp | hr := h
  · simp [hostPutEnc, hp]
  · cases hp : s.host.encProg <;> simp [hostPutEnc, hp, hr]

theorem hostPutDec_of_room {s : State} {x : DecIn} {rest : List DecIn} (hp : s.host.decProg = x :: rest)
    (hr : hasRoom s.cfg.capDecIn s.decIn.length = true) :
    hostPutDec s = { s with decIn := s.decIn ++ [x], host := { s.host with decProg := rest } } := by
  simp [hostPutDec, hp, hr, State.setDecIn, State.setHost]

theorem hostPutDec_of_blocked {s : State}
    (h : s.host.decProg = [] ∨ hasRoom s.cfg.capDecIn s.decIn.length = false) : hostPutDec s = s := by
  obtain hp | hr := h
  · simp [hostPutDec, hp]
  · cases hp : s.host.decProg <;> simp [hostPutDec, hp, hr]

theorem hostTakeEnc_of_cons {s : State} {x : EncOut} {rest : List EncOut} (h : s.encOut = x :: rest) :
    hostTakeEnc s = { s with encOut := rest, host := { s.host with encGot := s.host.encGot ++ [x] } } := by
  simp [hostTakeEnc, h, State.setEncOut, State.setHost]

theorem hostTakeEnc_of_nil {s : State} (h : s.encOut = []) : hostTakeEnc s = s := by
  simp [hostTakeEnc, h]

theorem hostTakeDec_of_cons {s : State} {x : DecOut} {rest : List DecOut} (h : s.decOut = x :: rest) :
    hostTakeDec s = { s with decOut := rest, host := { s.host with decGot := s.host.decGot ++ [x] } } := by
  simp [hostTakeDec, h, State.setDecOut, State.setHost]

theorem hostTakeDec_of_nil {s : State} (h : s.decOut = []) : hostTakeDec s = s := by
  simp [hostTakeDec, h]

/-! ## No token is lost, added or reordered -/

/-- `t` differs from `s` in the channels and the host's side alone, and each of the four token sequences is the same: those
still to come on an input (on the channel, then in the program) and those put on an output (observed, then on the
channel). -/
def SameTokens (s t : State) : Prop :=
  t = { s with encIn := t.encIn, encOut := t.encOut, decIn := t.decIn, decOut := t.decOut, host := t.host } ∧
    t.encIn ++ t.host.encProg = s.encIn ++ s.host.encProg ∧ t.decIn ++ t.host.decProg = s.decIn ++ s.host.decProg ∧
    encObserved t = encObserved s ∧ decObserved t = decObserved s

theorem SameTokens.refl (s : State) : SameTokens s s := ⟨rfl, rfl, rfl, rfl, rfl⟩

theorem hostPutEnc_sameTokens (s : State) : SameTokens s (hostPutEnc s) := by
  cases hp : s.host.encProg with
  | nil => rw [hostPutEnc_of_blocked (.inl hp)]; exact .refl s
  | cons x rest =>
    cases hr : hasRoom s.cfg.capEncIn s.encIn.length with
    | false => rw [hostPutEnc_of_blocked (.inr hr)]; exact .refl s
    | true =>
      rw [hostPutEnc_of_room hp hr]
      exact ⟨rfl, by simp [hp], rfl, rfl, rfl⟩

theorem hostPutDec_sameTokens (s : State) : SameTokens s (hostPutDec s) := by
  cases hp : s.host.decProg with
  | nil => rw [hostPutDec_of_blocked (.inl hp)]; exact .refl s
  | cons x rest =>
    cases hr : hasRoom s.cfg.capDecIn s.decIn.length with
    | false => rw [hostPutDec_of_blocked (.inr hr)]; exact .refl s
    | true =>
      rw [hostPutDec_of_room hp hr]
      exact ⟨rfl, rfl, by simp [hp], rfl, rfl⟩

theorem hostTakeEnc_sameTokens (s : State) : SameTokens s (hostTakeEnc s) := by
  cases h : s.encOut with
  | nil => rw [hostTakeEnc_of_nil h]; exact .refl s
  | cons x rest =>
    rw [hostTakeEnc_of_cons h]
    exact ⟨rfl, rfl, rfl, by simp [encObserved, h], rfl⟩

theorem hostTakeDec_sameTokens (s : State) : SameTokens s (hostTakeDec s) := by
  cases h : s.decOut with
  | nil => rw [hostTakeDec_of_nil h]; exact .refl s
  | cons x rest =>
    rw [hostTakeDec_of_cons h]
    exact ⟨rfl, rfl, rfl, rfl, by simp [decObserved, h]⟩

/-- A host turn answers a next state with the same tokens. -/
theorem turnStep_host_sameTokens {x : Turn} (hx : x = .putEnc ∨ x = .putDec ∨ x = .takeEnc ∨ x = .takeDec) (s : State) :
    ∃ t, turnStep x s = .next t ∧ SameTokens s t := by
  obtain rfl | rfl | rfl | rfl := hx
  · exact ⟨_, rfl, hostPutEnc_sameTokens s⟩
  · exact ⟨_, rfl, hostPutDec_sameTokens s⟩
  · exact ⟨_, rfl, hostTakeEnc_sameTokens s⟩
  · exact ⟨_, rfl, hostTakeDec_sameTokens s⟩

/-- Settles O54: each host move by its two equations, conservation by the four sequences it keeps. -/
theorem hostMovesLoseNoToken : Obligations.HostMovesLoseNoToken := by
  refine ⟨fun s ts h => ?putEnc, fun s ts h => ?putDec, fun s ts h => ?takeEnc, fun s ts h => ?takeDec,
    fun s x ts h hx => ?conserved⟩ <;> rw [step_of_turns_cons h]
  case putEnc =>
    exact ⟨fun x rest hp hr => congrArg _ (hostPutEnc_of_room (s := s.setTurns ts) hp hr),
      fun hb => congrArg _ (hostPutEnc_of_blocked (s := s.setTurns ts) hb)⟩
  case putDec =>
    exact ⟨fun x rest hp hr => congrArg _ (hostPutDec_of_room (s := s.setTurns ts) hp hr),
      fun hb => congrArg _ (hostPutDec_of_blocked (s := s.setTurns ts) hb)⟩
  case takeEnc =>
    exact ⟨fun x rest ho => congrArg _ (hostTakeEnc_of_cons (s := s.setTurns ts) ho),
      fun ho => congrArg _ (hostTakeEnc_of_nil (s := s.setTurns ts) ho)⟩
  case takeDec =>
    exact ⟨fun x rest ho => congrArg _ (hostTakeDec_of_cons (s := s.setTurns ts) ho),
      fun ho => congrArg _ (hostTakeDec_of_nil (s := s.setTurns ts) ho)⟩
  case conserved => exact turnStep_host_sameTokens hx (s.setTurns ts)

end Sys2Proof.Machine
end

section
/-! PROOFS. RunTurns.lean: a run turn is the unit's run to the end of its transaction. The instruction it fetches is put
back, token for token, at the head of the channel it came from (R62, R65, R66). -/

namespace Sys2Proof

/-! ## What was decoded encodes to the tokens it was decoded from -/

theorem coilArg_of_coilOfArg {x : U16} {v : Bool} (h : coilOfArg x = some v) : coilArg v = x := by
  unfold coilOfArg at h
  split_ifs at h with h0 h1
  · cases h; exact h0.symm
  · cases h; exact h1.symm

theorem takeCoils_tokens {n : Nat} {ts rest : List EncIn} {vs : List Bool} (h : takeCoils n ts = .ok (vs, rest)) :
    vs.length = n ∧ ts = vs.map (fun v => .v (coilArg v)) ++ rest := by
  induction n, ts using takeCoils.induct generalizing vs with
  | case1 ts => cases h; exact ⟨rfl, rfl⟩
  | case2 n x ts v hv ih =>
    simp only [takeCoils, hv] at h
    cases hr : takeCoils n ts with
    | error e => rw [hr] at h; cases h
    | ok r =>
      obtain ⟨ws, rest'⟩ := r
      rw [hr] at h; cases h
      obtain ⟨hl, ht⟩ := ih hr
      exact ⟨congrArg Nat.succ hl, by rw [ht, List.map_cons, coilArg_of_coilOfArg hv]; rfl⟩
  | case3 n x ts hv => simp [takeCoils, hv] at h
  | case4 n fc a g ts => cases h
  | case5 n => cases h

theorem takeRegisters_tokens {n : Nat} {ts rest : List EncIn} {vs : List U16}
    (h : takeRegisters n ts = .ok (vs, rest)) :
    vs.length = n ∧ ts = vs.map .v ++ rest := by
  induction n, ts using takeRegisters.induct generalizing vs with
  | case1 ts => cases h; exact ⟨rfl, rfl⟩
  | case2 n x ts ih =>
    simp only [takeRegisters] at h
    cases hr : takeRegisters n ts with
    | error e => rw [hr] at h; cases h
    | ok r =>
      obtain ⟨ws, rest'⟩ := r
      rw [hr] at h; cases h
      obtain ⟨hl, ht⟩ := ih hr
      exact ⟨congrArg Nat.succ hl, by rw [ht]; rfl⟩
  | case3 n fc a g ts => cases h
  | case4 n => cases h

theorem functionCodeOf_value (c : FunctionCode) : functionCodeOf c.value = some c := by
  cases c <;> rfl

theorem eq_value_of_functionCodeOf {fc : Byte} {c : FunctionCode} (h : functionCodeOf fc = some c) : fc = c.value := by
  unfold functionCodeOf at h
  split_ifs at h <;> cases h <;> assumption

theorem functionCodeOf_eq_some_iff {fc : Byte} {c : FunctionCode} : functionCodeOf fc = some c ↔ fc = c.value :=
  ⟨eq_value_of_functionCodeOf, fun h => h ▸ functionCodeOf_value c⟩

/-- A command that decodes is the tokens of a request. -/
theorem decodeCommand_tokens {ts rest : List EncIn} {i : Instr} (h : decodeCommand ts = .ok (i, rest)) :
    ∃ r : Request, i = r.toInstr ∧ ts = r.tokens ++ rest := by
  match ts, h with
  | .c fc a g :: ts, h =>
    simp only [decodeCommand] at h
    split at h
    case h_1 hc => cases h; exact ⟨.readCoils a g, rfl, by rw [eq_value_of_functionCodeOf hc]; rfl⟩
    case h_2 hc => cases h; exact ⟨.readDiscreteInputs a g, rfl, by rw [eq_value_of_functionCodeOf hc]; rfl⟩
    case h_3 hc => cases h; exact ⟨.readHoldingRegisters a g, rfl, by rw [eq_value_of_functionCodeOf hc]; rfl⟩
    case h_4 hc => cases h; exact ⟨.readInputRegisters a g, rfl, by rw [eq_value_of_functionCodeOf hc]; rfl⟩
    case h_5 hc =>
      split at h
      · rename_i v hv
        cases h
        exact ⟨.writeSingleCoil a v, rfl, by rw [eq_value_of_functionCodeOf hc, ← coilArg_of_coilOfArg hv]; rfl⟩
      · cases h
    case h_6 hc => cases h; exact ⟨.writeSingleRegister a g, rfl, by rw [eq_value_of_functionCodeOf hc]; rfl⟩
    case h_7 hc =>
      cases hr : takeCoils g.toNat ts with
      | error e => rw [hr] at h; cases h
      | ok r =>
        obtain ⟨vs, rest'⟩ := r
        rw [hr] at h; cases h
        obtain ⟨hl, rfl⟩ := takeCoils_tokens hr
        exact ⟨.writeMultipleCoils a vs, rfl, by
          rw [eq_value_of_functionCodeOf hc, Request.tokens, hl, BitVec.ofNat_toNat, BitVec.setWidth_eq]; rfl⟩
    case h_8 hc =>
      cases hr : takeRegisters g.toNat ts with
      | error e => rw [hr] at h; cases h
      | ok r =>
        obtain ⟨vs, rest'⟩ := r
        rw [hr] at h; cases h
        obtain ⟨hl, rfl⟩ := takeRegisters_tokens hr
        exact ⟨.writeMultipleRegisters a vs, rfl, by
          rw [eq_value_of_functionCodeOf hc, Request.tokens, hl, BitVec.ofNat_toNat, BitVec.setWidth_eq]; rfl⟩
    case h_9 => cases h

theorem byteTokens_cons {x : Byte} {bs : List Byte} (h : bs ≠ []) :
    byteTokens (x :: bs) = .b x false :: byteTokens bs := by
  cases bs with
  | nil => exact absurd rfl h
  | cons y bs => rfl

theorem takeFrame_tokens {ts rest : List DecIn} {bs : List Byte} (h : takeFrame ts = .ok (bs, rest)) :
    bs ≠ [] ∧ ts = byteTokens bs ++ rest := by
  induction ts using takeFrame.induct generalizing bs with
  | case1 x ts => cases h; exact ⟨List.cons_ne_nil _ _, rfl⟩
  | case2 x ts ih =>
    simp only [takeFrame] at h
    cases hr : takeFrame ts with
    | error e => rw [hr] at h; cases h
    | ok r =>
      obtain ⟨bs', rest'⟩ := r
      rw [hr] at h; cases h
      obtain ⟨hne, ht⟩ := ih hr
      exact ⟨List.cons_ne_nil _ _, by rw [byteTokens_cons hne, ht]; rfl⟩
  | case3 ts => cases h
  | case4 => cases h

theorem frameTokens_of_ne_nil {bs : List Byte} (h : bs ≠ []) : frameTokens bs = byteTokens bs := by
  cases bs with
  | nil => exact absurd rfl h
  | cons x bs => rfl

/-- R180: an exception byte is its clear code under a set bit 7. -/
theorem exceptionByte_eq :
    ∀ b : Byte, exceptionBit b = true → ((1 : BitVec 1) ++ clearCode b : BitVec 8) = b := by decide

end Sys2Proof

namespace Sys2Proof.Machine

/-! ## ENC's run turn -/

theorem exec_toInstr (r : Request) (s : State) : exec r.toInstr s = runCommand r.tokens s := by
  cases r <;> rfl

theorem runCommand_of_idle {ts : List EncIn} {s : State} (h : s.enc.ph = .idle) :
    runCommand ts s = encRunToEnd (s.setEncIn (ts ++ s.encIn)) := by
  simp only [runCommand, h]

/-- What ENC fetches is a request whose tokens stood at the head of its channel. -/
theorem fetchEnc_eq_some {i : Instr} {s s' : State} (h : fetchEnc s = some (i, s')) :
    s.enc.ph = .idle ∧ ∃ (q : Request) (rest : List EncIn),
      i = q.toInstr ∧ s' = s.setEncIn rest ∧ s.encIn = q.tokens ++ rest := by
  unfold fetchEnc at h
  split at h
  · rename_i hph
    split at h
    · rename_i rest hd
      cases h
      obtain ⟨q, hq, htok⟩ := decodeCommand_tokens hd
      exact ⟨hph, q, rest, hq, rfl, htok⟩
    · cases h
  · cases h

theorem encRunTurn_eq_encRunToEnd (s : State) : encRunTurn s = encRunToEnd s := by
  unfold encRunTurn
  cases hf : fetchEnc s with
  | none => rfl
  | some r =>
    obtain ⟨hph, q, rest, hi, hs, htok⟩ := fetchEnc_eq_some (i := r.1) (s' := r.2) hf
    calc exec r.1 r.2
        = runCommand q.tokens (s.setEncIn rest) := by rw [hi, hs, exec_toInstr]
      _ = encRunToEnd (s.setEncIn (q.tokens ++ rest)) := runCommand_of_idle (s := s.setEncIn rest) hph
      _ = encRunToEnd s := by rw [← htok]; rfl

/-! ## DEC's run turn -/

/-- A frame that decodes to an instruction is run as its own tokens. -/
theorem exec_of_decodeFrame {bs : List Byte} {i : Instr} (h : decodeFrame bs = .ok i) (s : State) :
    exec i s = runFrame (frameTokens bs) s := by
  match bs, h with
  | b0 :: b1 :: rest, h =>
    simp only [decodeFrame] at h
    split_ifs at h with hx
    · cases h
      exact congrArg (fun b => runFrame (frameTokens (b :: b1 :: rest)) s) (exceptionByte_eq b0 hx)
    · cases h; rfl

/-- A response that decodes is the tokens of a frame. -/
theorem exec_of_decodeResponseTokens {ts rest : List DecIn} {i : Instr} (h : decodeResponseTokens ts = .ok (i, rest)) :
    ∃ toks, ts = toks ++ rest ∧ ∀ s, exec i s = runFrame toks s := by
  match ts, h with
  | .b x last :: ts, h =>
    simp only [decodeResponseTokens] at h
    split at h
    · rename_i bs rest' hf
      cases hd : decodeFrame bs with
      | error e => rw [hd] at h; cases h
      | ok i' =>
        rw [hd] at h; cases h
        obtain ⟨hne, ht⟩ := takeFrame_tokens hf
        exact ⟨frameTokens bs, by rw [frameTokens_of_ne_nil hne, ht], exec_of_decodeFrame hd⟩
    · cases h

theorem runFrame_of_idle {ts : List DecIn} {s : State} (h : decIdle s.dec = true) :
    runFrame ts s = decRunToEnd (s.setDecIn (ts ++ s.decIn)) := by
  simp only [runFrame, h, if_true]

/-- What DEC fetches is run as the tokens of a frame that stood at the head of its channel. -/
theorem fetchDec_eq_some {i : Instr} {s s' : State} (h : fetchDec s = some (i, s')) :
    decIdle s.dec = true ∧ ∃ toks rest : List DecIn,
      (∀ u, exec i u = runFrame toks u) ∧ s' = s.setDecIn rest ∧ s.decIn = toks ++ rest := by
  unfold fetchDec at h
  split_ifs at h with hidle
  split at h
  · rename_i rest hd
    cases h
    obtain ⟨toks, htok, hexec⟩ := exec_of_decodeResponseTokens hd
    exact ⟨hidle, toks, rest, hexec, rfl, htok⟩
  · cases h

theorem decRunTurn_eq_decRunToEnd (s : State) : decRunTurn s = decRunToEnd s := by
  unfold decRunTurn
  cases hf : fetchDec s with
  | none => rfl
  | some r =>
    obtain ⟨hidle, toks, rest, hexec, hs, htok⟩ := fetchDec_eq_some (i := r.1) (s' := r.2) hf
    calc exec r.1 r.2
        = runFrame toks (s.setDecIn rest) := by rw [hs, hexec]
      _ = decRunToEnd (s.setDecIn (toks ++ rest)) := runFrame_of_idle (s := s.setDecIn rest) hidle
      _ = decRunToEnd s := by rw [← htok]; rfl

end Sys2Proof.Machine
end

section
/-! PROOFS. StepRule.lean: what a step of the machine is made of (R55, R60): single steps of the two units, moves of the
host, and resets. A property that each of these keeps is kept by every step. -/

namespace Sys2Proof.Machine

/-- A unit's turn answers the unit's next state, or the same state. -/
theorem tickOutcome_eq_next {x : Tick} {s t : State} (h : tickOutcome x s = .next t) : x = .moved t ∨ t = s := by
  cases x with
  | moved u => exact .inl (congrArg Tick.moved (Host.Outcome.next.inj h))
  | waiting => exact .inr (Host.Outcome.next.inj h).symm
  | stuck f => cases h
  | refused r => cases h

/-- Everything that can happen within a step keeps `P`. -/
structure StepKeeps (P : State → Prop) : Prop where
  turns : ∀ {s} ts, P s → P (s.setTurns ts)
  enc : ∀ {s t}, P s → encTick s = .moved t → P t
  dec : ∀ {s t}, P s → decTick s = .moved t → P t
  putEnc : ∀ {s}, P s → P (hostPutEnc s)
  putDec : ∀ {s}, P s → P (hostPutDec s)
  takeEnc : ∀ {s}, P s → P (hostTakeEnc s)
  takeDec : ∀ {s}, P s → P (hostTakeDec s)
  reset : ∀ {s}, quiet s = true → P s → P (resetUnits s)
  restart : ∀ {s} ep dp, P s → P (restart ep dp s)

namespace StepKeeps

variable {P : State → Prop} (hP : StepKeeps P)
include hP

theorem encRun {k : Nat} {s t : State} (hs : P s) (h : encRun k s = .next t) : P t := by
  induction k generalizing s with
  | zero => cases h; exact hs
  | succ k ih =>
    simp only [Machine.encRun] at h
    split at h
    · rename_i u hu
      split_ifs at h
      · cases h; exact hP.enc hs hu
      · exact ih (hP.enc hs hu) h
    · cases h; exact hs
    · cases h
    · cases h

theorem decRun {k : Nat} {s t : State} (hs : P s) (h : decRun k s = .next t) : P t := by
  induction k generalizing s with
  | zero => cases h; exact hs
  | succ k ih =>
    simp only [Machine.decRun] at h
    split at h
    · rename_i u hu
      split_ifs at h
      · cases h; exact hP.dec hs hu
      · exact ih (hP.dec hs hu) h
    · cases h; exact hs
    · cases h
    · cases h

theorem unitsAlone {s t : State} (hs : P s) (h : unitsAlone s = .next t) : P t := by
  unfold Machine.unitsAlone at h
  split at h
  · rename_i u hu; cases h; exact hP.enc hs hu
  · cases h
  · exact (tickOutcome_eq_next h).elim (hP.dec hs) (fun ht => ht ▸ hs)
  · split at h
    · rename_i u hu; cases h; exact hP.dec hs hu
    · cases h

theorem turnStep {x : Turn} {s t : State} (hs : P s) (h : turnStep x s = .next t) : P t := by
  cases x with
  | enc => exact (tickOutcome_eq_next h).elim (hP.enc hs) (fun ht => ht ▸ hs)
  | dec => exact (tickOutcome_eq_next h).elim (hP.dec hs) (fun ht => ht ▸ hs)
  | encRun => exact hP.encRun hs ((encRunTurn_eq_encRunToEnd s).symm.trans h)
  | decRun => exact hP.decRun hs ((decRunTurn_eq_decRunToEnd s).symm.trans h)
  | putEnc => cases h; exact hP.putEnc hs
  | putDec => cases h; exact hP.putDec hs
  | takeEnc => cases h; exact hP.takeEnc hs
  | takeDec => cases h; exact hP.takeDec hs
  | reset =>
    simp only [Machine.turnStep, resetPin] at h
    split_ifs at h with hq
    cases h; exact hP.reset hq hs
  | restart ep dp => cases h; exact hP.restart ep dp hs

theorem step {s t : State} (hs : P s) (h : step s = .next t) : P t := by
  cases hts : s.turns with
  | nil => exact hP.unitsAlone hs (by simpa only [Machine.step, hts] using h)
  | cons x ts => exact hP.turnStep (hP.turns ts hs) ((step_of_turns_cons hts).symm.trans h)

end StepKeeps

/-! ## A unit's step moves one token (R55, R56, R58) -/

theorem encTick_moves_one_token {s t : State} (h : encTick s = .moved t) :
    (∃ x rest, s.encIn = x :: rest ∧ t = { s with enc := t.enc, encIn := rest }) ∨
    (∃ x, hasRoom s.cfg.capEncOut s.encOut.length = true ∧ t = { s with enc := t.enc, encOut := s.encOut ++ [x] }) := by
  obtain ⟨_, _, _, _, _, hin, _, rfl⟩ | ⟨_, _, _, _, _, hin, rfl⟩ | ⟨_, _, _, _, _, hin, rfl⟩ |
    ⟨_, _, _, _, _, hin, rfl⟩ | ⟨hr, hput⟩ := encTick_moved_cases h
  · exact .inl ⟨_, _, hin, rfl⟩
  · exact .inl ⟨_, _, hin, rfl⟩
  · exact .inl ⟨_, _, hin, rfl⟩
  · exact .inl ⟨_, _, hin, rfl⟩
  · obtain ⟨_, _, _, rfl⟩ | ⟨_, rfl⟩ | ⟨_, rfl⟩ | ⟨_, rfl⟩ | ⟨_, rfl⟩ | ⟨_, rfl⟩ := hput <;> exact .inr ⟨_, hr, rfl⟩

theorem decTick_moves_one_token {s t : State} (h : decTick s = .moved t) :
    (∃ x rest, s.decIn = x :: rest ∧ t = { s with dec := t.dec, decIn := rest }) ∨
    (∃ x, hasRoom s.cfg.capDecOut s.decOut.length = true ∧ t = { s with dec := t.dec, decOut := s.decOut ++ [x] }) := by
  obtain ⟨_, _, _, _, hin, rfl⟩ | ⟨_, _, _, hin, rfl⟩ | ⟨_, hr, rfl⟩ := decTick_moved_cases h
  · exact .inl ⟨_, _, hin, rfl⟩
  · exact .inl ⟨_, _, hin, rfl⟩
  · exact .inr ⟨_, hr, rfl⟩

/-! ## The configuration (R28, R238) -/

theorem cfg_of_encTick {s t : State} (h : encTick s = .moved t) : t.cfg = s.cfg := by
  obtain ⟨_, _, _, ht⟩ | ⟨_, _, ht⟩ := encTick_moves_one_token h <;> rw [ht]

theorem cfg_of_decTick {s t : State} (h : decTick s = .moved t) : t.cfg = s.cfg := by
  obtain ⟨_, _, _, ht⟩ | ⟨_, _, ht⟩ := decTick_moves_one_token h <;> rw [ht]

theorem SameTokens.cfg {s t : State} (h : SameTokens s t) : t.cfg = s.cfg := by
  rw [h.1]

theorem stepKeeps_cfg (c : Config) : StepKeeps (fun s => s.cfg = c) where
  turns _ hs := hs
  enc hs h := (cfg_of_encTick h).trans hs
  dec hs h := (cfg_of_decTick h).trans hs
  putEnc hs := (hostPutEnc_sameTokens _).cfg.trans hs
  putDec hs := (hostPutDec_sameTokens _).cfg.trans hs
  takeEnc hs := (hostTakeEnc_sameTokens _).cfg.trans hs
  takeDec hs := (hostTakeDec_sameTokens _).cfg.trans hs
  reset _ hs := hs
  restart _ _ hs := hs

/-- Settles O4: nothing that happens within a step writes the configuration. -/
theorem configurationNeverChanges : Obligations.ConfigurationNeverChanges :=
  fun s _ h => (stepKeeps_cfg s.cfg).step rfl h

end Sys2Proof.Machine
end

section
/-! PROOFS. Invariant.lean: the machine's invariant in three parts, each kept by every step: ENC's counts and the frame it
has open (R26, R96, R125, R128, R168, R210), `DEC.CNT` (R27), and the capacities of the channels (R64). -/

namespace Sys2Proof.Machine

/-! ## Reading `ENC_OUT` token by token -/

theorem openFrame_append (k : Nat) (l r : List EncOut) :
    openFrame k (l ++ r) = (openFrame k l).bind (fun j => openFrame j r) := by
  induction l generalizing k with
  | nil => rfl
  | cons x l ih =>
    cases x with
    | b byte last => cases last <;> exact ih _
    | f code =>
      simp only [List.cons_append, openFrame]
      split_ifs
      · exact ih 0
      · rfl

theorem openFrame_byteToken (k : Nat) (e : Enc) (byte : Byte) :
    openFrame k [byteToken e byte] = some (if e.idx.toNat + 1 = e.len.toNat then 0 else k + 1) := by
  by_cases h : e.idx.toNat + 1 = e.len.toNat <;> simp [byteToken, lastByte, openFrame, h]

/-! ## Counting up `IDX`, counting down `REM` -/

theorem toNat_succ {x : BitVec 9} (h : x.toNat < 511) : (x + 1).toNat = x.toNat + 1 := by bv_omega

theorem toNat_pred {x : BitVec 16} (h : x ≠ 0) : (x - 1).toNat = x.toNat - 1 := by bv_omega

theorem toNat_pos {x : BitVec 16} (h : x ≠ 0) : 0 < x.toNat := by bv_omega

theorem toNat_pred_le {x : BitVec 16} {n : Nat} (h : x ≠ 0) (hn : x.toNat ≤ n) : (x - 1).toNat ≤ n := by
  rw [toNat_pred h]; omega

theorem idx_succ_eq_len_iff {e : Enc} (h : e.idx.toNat < 511) :
    e.idx + 1 = e.len ↔ e.idx.toNat + 1 = e.len.toNat := by
  rw [← BitVec.toNat_inj, toNat_succ h]

/-! ## ENC's registers and the frame it has open, step by step -/

/-- ENC's registers `e` meet the invariant, and are those of an ENC that has put `out` with `k` bytes of a frame out. -/
def EncOk (legacy : Bool) (k : Nat) (out : List EncOut) (e : Enc) : Prop :=
  EncInv legacy e ∧ openFrame k out = some (bytesOut e)

theorem afterEmit_cases (e : Enc) :
    (e.idx = e.len ∧ afterEmit e = .idle) ∨ (e.idx ≠ e.len ∧ e.rem = 0 ∧ afterEmit e = .pad) ∨
      (e.idx ≠ e.len ∧ e.rem ≠ 0 ∧ afterEmit e = .fetch) := by
  unfold afterEmit
  split_ifs with hend hrem
  · exact .inl ⟨hend, rfl⟩
  · exact .inr <| .inl ⟨hend, hrem, rfl⟩
  · exact .inr <| .inr ⟨hend, hrem, rfl⟩

/-- R125: after a byte the frame is closed, or the pad byte is due, or a value. -/
theorem encOk_afterByte {legacy : Bool} {e : Enc} {byte : Byte} (hidx : e.idx.toNat < 511)
    (hpad : e.idx.toNat + 1 ≠ e.len.toNat → e.rem = 0 → EncInv legacy { e with idx := e.idx + 1, ph := .pad })
    (hfetch : e.idx.toNat + 1 ≠ e.len.toNat → e.rem ≠ 0 → EncInv legacy { e with idx := e.idx + 1, ph := .fetch }) :
    EncOk legacy e.idx.toNat [byteToken e byte] (afterByte e) := by
  have hlast := idx_succ_eq_len_iff hidx
  rw [EncOk, openFrame_byteToken, afterByte]
  obtain ⟨hend, hph⟩ | ⟨hend, hrem, hph⟩ | ⟨hend, hrem, hph⟩ := afterEmit_cases { e with idx := e.idx + 1 } <;>
    simp only [hph]
  · rw [if_pos (hlast.mp hend)]
    exact ⟨trivial, rfl⟩
  · rw [if_neg (mt hlast.mpr hend), ← toNat_succ hidx]
    exact ⟨hpad (mt hlast.mpr hend) hrem, rfl⟩
  · rw [if_neg (mt hlast.mpr hend), ← toNat_succ hidx]
    exact ⟨hfetch (mt hlast.mpr hend) hrem, rfl⟩

/-- R121: which of the four forms of the accept step a command gets. -/
theorem accept_cases (legacy : Bool) (e : Enc) :
    (e.fc = 0x0F ∧ accept legacy e = acceptCoils legacy e) ∨ (e.fc = 0x10 ∧ accept legacy e = acceptRegisters e) ∨
      (functionCodeOf e.fc = none ∧ accept legacy e = acceptIllegal e) ∨
      ((functionCodeOf e.fc).isSome = true ∧ e.fc ≠ 0x0F ∧ e.fc ≠ 0x10 ∧ accept legacy e = acceptFixed e) := by
  by_cases h15 : e.fc = 0x0F
  · exact .inl ⟨h15, by rw [accept, h15]; rfl⟩
  by_cases h16 : e.fc = 0x10
  · exact .inr <| .inl ⟨h16, by rw [accept, h16]; rfl⟩
  cases hc : functionCodeOf e.fc with
  | none => exact .inr <| .inr <| .inl ⟨rfl, by simp only [accept, hc]⟩
  | some c =>
    refine .inr <| .inr <| .inr ⟨rfl, h15, h16, ?_⟩
    cases c <;> simp only [accept, hc]
    case writeMultipleCoils => exact absurd (eq_value_of_functionCodeOf hc) h15
    case writeMultipleRegisters => exact absurd (eq_value_of_functionCodeOf hc) h16

theorem overflow15_iff {legacy : Bool} {n : Nat} : overflow15 legacy n = true ↔ 255 < byteCount15 legacy n :=
  decide_eq_true_iff

theorem overflow16_iff {m : Nat} : overflow16 m = true ↔ 255 < byteCount16 m := decide_eq_true_iff

theorem encOk_acceptCoils {legacy : Bool} {e : Enc} (hfc : e.fc = 0x0F) (hidx : e.idx = 0) :
    EncOk legacy 0 [] (acceptCoils legacy e) := by
  simp only [acceptCoils]
  split_ifs with hover
  · exact ⟨.inr ⟨rfl, rfl, .inl ⟨hfc, hover⟩⟩, rfl⟩
  · have hfit : byteCount15 legacy e.arg.toNat ≤ 255 := Nat.not_lt.mp (mt overflow15_iff.mpr hover)
    refine ⟨.inl ⟨⟨hfc, hfit, ?_, ?_, le_rfl⟩, rfl, by simp [hidx], rfl, rfl⟩, by simp [openFrame, bytesOut, hidx]⟩ <;>
      simp only [BitVec.toNat_ofNat] <;> omega

theorem encOk_acceptRegisters {legacy : Bool} {e : Enc} (hfc : e.fc = 0x10) (hidx : e.idx = 0) :
    EncOk legacy 0 [] (acceptRegisters e) := by
  simp only [acceptRegisters]
  split_ifs with hover
  · exact ⟨.inr ⟨rfl, rfl, .inr ⟨hfc, hover⟩⟩, rfl⟩
  · have hfit : byteCount16 e.arg.toNat ≤ 255 := Nat.not_lt.mp (mt overflow16_iff.mpr hover)
    refine ⟨.inr <| .inl ⟨⟨hfc, hfit, ?_, ?_, le_rfl⟩, rfl, by simp [hidx]⟩, by simp [openFrame, bytesOut, hidx]⟩ <;>
      simp only [BitVec.toNat_ofNat] <;> omega

/-- R121: an accepted command has put nothing. -/
theorem encOk_accept {legacy : Bool} {e : Enc} (hidx : e.idx = 0) : EncOk legacy 0 [] (accept legacy e) := by
  obtain ⟨hfc, h⟩ | ⟨hfc, h⟩ | ⟨hfc, h⟩ | ⟨hfc, h15, h16, h⟩ := accept_cases legacy e <;> rw [h]
  · exact encOk_acceptCoils hfc hidx
  · exact encOk_acceptRegisters hfc hidx
  · exact ⟨.inl ⟨rfl, hfc, rfl⟩, rfl⟩
  · exact ⟨.inr <| .inr ⟨hfc, h15, h16, rfl, rfl, by simp [acceptFixed, hidx]⟩,
      by simp [openFrame, bytesOut, acceptFixed, hidx]⟩

theorem afterHeader_of_last {e : Enc} (h : (e.idx + 1).toNat = headerLength e.fc) : afterHeader e = afterByte e :=
  if_pos h

theorem afterHeader_of_inner {e : Enc} (h : (e.idx + 1).toNat ≠ headerLength e.fc) :
    afterHeader e = { e with idx := e.idx + 1 } := if_neg h

/-- R122, R168: a header byte is out. The frame is open until the last byte of a header with nothing after it. -/
theorem encOk_header_of_length {legacy : Bool} {e : Enc} {byte : Byte} (hlow : e.idx.toNat < headerLength e.fc)
    (hhigh : headerLength e.fc ≤ e.len.toNat) (hph : e.ph = .hdr)
    (hin : e.idx.toNat + 1 < headerLength e.fc → EncInv legacy { e with idx := e.idx + 1 })
    (hpad : e.idx.toNat + 1 = headerLength e.fc → e.idx.toNat + 1 ≠ e.len.toNat → e.rem = 0 →
      EncInv legacy { e with idx := e.idx + 1, ph := .pad })
    (hfetch : e.idx.toNat + 1 = headerLength e.fc → e.rem ≠ 0 → EncInv legacy { e with idx := e.idx + 1, ph := .fetch }) :
    EncOk legacy e.idx.toNat [byteToken e byte] (afterHeader e) := by
  have hbound : e.idx.toNat < 511 := by
    have : headerLength e.fc ≤ 6 := by unfold headerLength; split_ifs <;> omega
    omega
  by_cases hend : e.idx.toNat + 1 = headerLength e.fc
  · rw [afterHeader_of_last ((toNat_succ hbound).trans hend)]
    exact encOk_afterByte hbound (hpad hend) (fun _ => hfetch hend)
  · rw [afterHeader_of_inner (toNat_succ hbound ▸ hend), EncOk, openFrame_byteToken, if_neg (by omega)]
    exact ⟨hin (by omega), by simp only [bytesOut, hph, toNat_succ hbound]⟩

/-- R90, R125: with the last group of coils out and the frame still open, the legacy pad byte is all that is missing. -/
theorem encInv_pad_of_groups_out {legacy : Bool} {e : Enc} (hc : CoilsInFlight legacy e) (hrem : e.rem = 0)
    (hbound : e.idx.toNat < 511) (hgroups : e.idx.toNat + 1 = 6 + (e.arg.toNat + 7) / 8)
    (hopen : e.idx.toNat + 1 ≠ e.len.toNat) : EncInv legacy { e with idx := e.idx + 1, ph := .pad } := by
  obtain ⟨-, -, -, hlen, -⟩ := id hc
  have hsucc := toNat_succ hbound
  have hcount := byteCount15_cases legacy e.arg.toNat
  split_ifs at hcount with hextra
  · exact ⟨hc, hextra.1, hextra.2, hrem, by simp only [hsucc]; omega⟩
  · omega

theorem encOk_afterHeader_coils {legacy : Bool} {e : Enc} {byte : Byte} (hph : e.ph = .hdr)
    (hc : CoilsInFlight legacy e) (hrem : e.rem = e.arg) (hidx : e.idx.toNat < 6) (hacc : e.acc = 0) (hpos : e.pos = 0) :
    EncOk legacy e.idx.toNat [byteToken e byte] (afterHeader e) := by
  obtain ⟨hfc, -, -, hlen, -⟩ := id hc
  have hh : headerLength e.fc = 6 := by rw [hfc]; rfl
  have hsucc := toNat_succ (x := e.idx) (by omega)
  have hremNat : e.rem.toNat = e.arg.toNat := congrArg BitVec.toNat hrem
  refine encOk_header_of_length (by omega) (by omega) hph (fun h => ?hdr) (fun h hopen h0 => ?pad) (fun h h0 => ?fetch)
  case hdr =>
    simp only [EncInv, hph]
    exact .inl ⟨hc, hrem, by omega, hacc, hpos⟩
  case pad =>
    have : e.rem.toNat = 0 := congrArg BitVec.toNat h0
    exact encInv_pad_of_groups_out hc h0 (by omega) (by omega) hopen
  case fetch =>
    have hpos0 : e.pos.toNat = 0 := congrArg BitVec.toNat hpos
    exact ⟨h0, .inl ⟨hc, by simp only [hsucc]; omega, by simp only [hsucc]; omega, by simp [hacc]⟩⟩

theorem encOk_afterHeader_registers {legacy : Bool} {e : Enc} {byte : Byte} (hph : e.ph = .hdr)
    (hr : RegistersInFlight e) (hrem : e.rem = e.arg) (hidx : e.idx.toNat < 6) :
    EncOk legacy e.idx.toNat [byteToken e byte] (afterHeader e) := by
  obtain ⟨hfc, -, -, hlen, -⟩ := id hr
  have hh : headerLength e.fc = 6 := by rw [hfc]; rfl
  have hsucc := toNat_succ (x := e.idx) (by omega)
  have hcount : byteCount16 e.arg.toNat = 2 * e.arg.toNat := rfl
  have hremNat : e.rem.toNat = e.arg.toNat := congrArg BitVec.toNat hrem
  refine encOk_header_of_length (by omega) (by omega) hph (fun h => ?hdr) (fun h hopen h0 => ?pad) (fun h h0 => ?fetch)
  case hdr =>
    simp only [EncInv, hph]
    exact .inr <| .inl ⟨hr, hrem, by omega⟩
  case pad =>
    have : e.rem.toNat = 0 := congrArg BitVec.toNat h0
    omega
  case fetch => exact ⟨h0, .inr ⟨hr, by simp only [hsucc]; omega⟩⟩

theorem encOk_afterHeader_fixed {legacy : Bool} {e : Enc} {byte : Byte} (hph : e.ph = .hdr)
    (hcode : (functionCodeOf e.fc).isSome = true) (h15 : e.fc ≠ 0x0F) (h16 : e.fc ≠ 0x10) (hlen : e.len = 5)
    (hrem : e.rem = 0) (hidx : e.idx.toNat < 5) : EncOk legacy e.idx.toNat [byteToken e byte] (afterHeader e) := by
  have hh : headerLength e.fc = 5 := if_neg (not_or.mpr ⟨h15, h16⟩)
  have hsucc := toNat_succ (x := e.idx) (by omega)
  have hlenNat : e.len.toNat = 5 := congrArg BitVec.toNat hlen
  refine encOk_header_of_length (by omega) (by omega) hph (fun h => ?hdr) (fun h hopen => absurd (by omega) hopen)
    (fun _ h0 => absurd hrem h0)
  case hdr =>
    simp only [EncInv, hph]
    exact .inr <| .inr ⟨hcode, h15, h16, hlen, hrem, by omega⟩

/-- R122, R168: a header byte is out. -/
theorem encOk_afterHeader {legacy : Bool} {e : Enc} {byte : Byte} (hi : EncInv legacy e) (hph : e.ph = .hdr) :
    EncOk legacy (bytesOut e) [byteToken e byte] (afterHeader e) := by
  have hk : bytesOut e = e.idx.toNat := by simp only [bytesOut, hph]
  simp only [EncInv, hph] at hi
  rw [hk]
  obtain ⟨hc, hrem, hidx, hacc, hpos⟩ | ⟨hr, hrem, hidx⟩ | ⟨hcode, h15, h16, hlen, hrem, hidx⟩ := hi
  · exact encOk_afterHeader_coils hph hc hrem hidx hacc hpos
  · exact encOk_afterHeader_registers hph hr hrem hidx
  · exact encOk_afterHeader_fixed hph hcode h15 h16 hlen hrem hidx

/-- R161: the accumulator with one more coil. -/
theorem acc_or_coilBit_lt {acc : Byte} {pos : BitVec 3} (v : Bool) (h : acc.toNat < 2 ^ pos.toNat) :
    (acc ||| (coilBit v <<< pos.toNat)).toNat < 2 ^ (pos.toNat + 1) := by
  have hbit : (coilBit v <<< pos.toNat).toNat < 2 ^ (pos.toNat + 1) := by
    have hle : (coilBit v).toNat ≤ 1 := by cases v <;> decide
    calc (coilBit v <<< pos.toNat).toNat
        ≤ (coilBit v).toNat <<< pos.toNat := by rw [BitVec.toNat_shiftLeft]; exact Nat.mod_le _ _
      _ ≤ 1 * 2 ^ pos.toNat := by rw [Nat.shiftLeft_eq]; exact Nat.mul_le_mul_right _ hle
      _ < 2 ^ (pos.toNat + 1) := by rw [Nat.one_mul]; exact Nat.pow_lt_pow_succ Nat.one_lt_two
  rw [BitVec.toNat_or]
  exact Nat.or_lt_two_pow (h.trans (Nat.pow_lt_pow_succ Nat.one_lt_two)) hbit

/-- R161: a coil joins its group, which grows or is due to go out. -/
theorem encOk_fetchCoil {legacy : Bool} {e : Enc} (v : Bool) (hi : EncInv legacy e) (hph : e.ph = .fetch)
    (hfc : e.fc = 0x0F) : EncOk legacy (bytesOut e) [] (fetchCoil v e) := by
  simp only [EncInv, hph, CoilsInFlight, RegistersInFlight, hfc] at hi
  obtain ⟨hrem, ⟨⟨-, hfit, hbc, hlen, hle⟩, hidx, hcount, hacc⟩ | ⟨⟨h, _⟩, _⟩⟩ := hi
  · have hpred := toNat_pred hrem
    have hpos := toNat_pos hrem
    have hcoils : CoilsInFlight legacy { e with rem := e.rem - 1 } := ⟨hfc, hfit, hbc, hlen, toNat_pred_le hrem hle⟩
    unfold fetchCoil
    simp only
    split_ifs with hflush
    · refine ⟨⟨hcoils, hidx, ?_, ?_, ?_⟩, by simp only [bytesOut, hph, openFrame]⟩
      · simp only; omega
      · simp only; omega
      · obtain hpos7 | hrem0 := hflush
        · have : e.pos.toNat = 7 := congrArg BitVec.toNat hpos7
          exact .inr (by simp only; omega)
        · exact .inl hrem0
    · refine ⟨?_, by simp only [bytesOut, hph, openFrame]⟩
      simp only [EncInv, hph]
      obtain ⟨hpos7, hrem0⟩ := not_or.mp hflush
      have hnext : (e.pos + 1).toNat = e.pos.toNat + 1 := by bv_omega
      exact ⟨hrem0, .inl ⟨hcoils, hidx, by omega, by rw [hnext]; exact acc_or_coilBit_lt v hacc⟩⟩
  · exact absurd h (by decide)

/-- R165: a register is taken, and its two bytes are due. -/
theorem encOk_fetchRegister {legacy : Bool} {e : Enc} (v : U16) (hi : EncInv legacy e) (hph : e.ph = .fetch)
    (hfc : e.fc = 0x10) : EncOk legacy (bytesOut e) [] (fetchRegister v e) := by
  simp only [EncInv, hph, CoilsInFlight, RegistersInFlight, hfc] at hi
  obtain ⟨hrem, ⟨⟨h, _⟩, _⟩ | ⟨⟨-, hfit, hbc, hlen, hle⟩, hidx⟩⟩ := hi
  · exact absurd h (by decide)
  · have := toNat_pred hrem
    have := toNat_pos hrem
    refine ⟨⟨⟨hfc, hfit, hbc, hlen, toNat_pred_le hrem hle⟩, ?_, ?_⟩, by simp [bytesOut, hph, fetchRegister, openFrame]⟩
    · simp only [fetchRegister]; omega
    · simp only [fetchRegister]; omega

/-- R162: a group of coils is out; the next one, the pad byte or nothing follows. -/
theorem encOk_flush {legacy : Bool} {e : Enc} {byte : Byte} (hi : EncInv legacy e) (hph : e.ph = .flush) :
    EncOk legacy (bytesOut e) [byteToken e byte] (afterByte { e with acc := 0, pos := 0 }) := by
  simp only [EncInv, hph] at hi
  obtain ⟨hc, hidx, hlow, hhigh, hdue⟩ := hi
  obtain ⟨-, hfit, -, -, -⟩ := id hc
  have hcount := byteCount15_cases legacy e.arg.toNat
  have hbound : e.idx.toNat < 511 := by omega
  have hsucc := toNat_succ hbound
  have hk : bytesOut e = e.idx.toNat := by simp only [bytesOut, hph]
  rw [hk]
  refine encOk_afterByte (e := { e with acc := 0, pos := 0 }) hbound (fun hopen hrem => ?pad) (fun _ hrem => ?fetch)
  case pad =>
    have h0 : e.rem.toNat = 0 := congrArg BitVec.toNat hrem
    exact encInv_pad_of_groups_out (e := { e with acc := 0, pos := 0 }) hc hrem hbound (by simp only; omega) hopen
  case fetch =>
    have hgroup := hdue.resolve_left hrem
    have hzero : (0 : BitVec 3).toNat = 0 := rfl
    exact ⟨hrem, .inl ⟨hc, by simp only [hsucc]; omega, by simp only [hsucc, hzero]; omega, Nat.one_pos⟩⟩

/-- R162: the pad byte is the last of the frame. -/
theorem encOk_pad {legacy : Bool} {e : Enc} {byte : Byte} (hi : EncInv legacy e) (hph : e.ph = .pad) :
    EncOk legacy (bytesOut e) [byteToken e byte] (afterByte e) := by
  simp only [EncInv, hph] at hi
  obtain ⟨⟨-, hfit, -, hlen, -⟩, -, -, -, hlast⟩ := hi
  have hk : bytesOut e = e.idx.toNat := by simp only [bytesOut, hph]
  rw [hk]
  exact encOk_afterByte (by omega) (fun hopen => absurd hlast hopen) (fun hopen => absurd hlast hopen)

/-- R165: the high byte of a register is never the last of the frame. -/
theorem encOk_hi {legacy : Bool} {e : Enc} {byte : Byte} (hi : EncInv legacy e) (hph : e.ph = .hi) :
    EncOk legacy (bytesOut e) [byteToken e byte] { e with idx := e.idx + 1, ph := .lo } := by
  simp only [EncInv, hph] at hi
  obtain ⟨hr, hlt, hidx⟩ := hi
  obtain ⟨-, hfit, -, hlen, -⟩ := id hr
  have hcount : byteCount16 e.arg.toNat = 2 * e.arg.toNat := rfl
  have hsucc := toNat_succ (x := e.idx) (by omega)
  refine ⟨⟨hr, hlt, by simp only [hsucc, hidx]; omega⟩, ?_⟩
  rw [openFrame_byteToken, if_neg (by omega)]
  simp only [bytesOut, hph, hsucc]

/-- R165: the low byte is out; the frame is closed, or a register is owed. -/
theorem encOk_lo {legacy : Bool} {e : Enc} {byte : Byte} (hi : EncInv legacy e) (hph : e.ph = .lo) :
    EncOk legacy (bytesOut e) [byteToken e byte] (afterByte e) := by
  simp only [EncInv, hph] at hi
  obtain ⟨hr, hlt, hidx⟩ := hi
  obtain ⟨-, hfit, -, hlen, -⟩ := id hr
  have hcount : byteCount16 e.arg.toNat = 2 * e.arg.toNat := rfl
  have hsucc := toNat_succ (x := e.idx) (by omega)
  have hk : bytesOut e = e.idx.toNat := by simp only [bytesOut, hph]
  rw [hk]
  refine encOk_afterByte (by omega) (fun hend hrem => ?pad) (fun hend hrem => ?fetch)
  case pad =>
    have : e.rem.toNat = 0 := congrArg BitVec.toNat hrem
    omega
  case fetch =>
    exact ⟨hrem, .inr ⟨hr, by simp only [hsucc]; omega⟩⟩

/-- R123, R210: the `F` token falls between frames. -/
theorem encOk_afterFault {legacy : Bool} {e : Enc} (hi : EncInv legacy e) (hph : e.ph = .fault) :
    EncOk legacy (bytesOut e) [.f e.flt] (afterFault e) := by
  simp only [EncInv, hph] at hi
  have hk : bytesOut e = 0 := by simp only [bytesOut, hph]
  rw [hk]
  unfold afterFault
  obtain ⟨hflt, -, hrem⟩ | ⟨hflt, hrem, hover⟩ := hi
  · rw [if_pos hrem, hflt]
    exact ⟨trivial, rfl⟩
  · have hput : openFrame 0 [.f e.flt] = some 0 := by rw [hflt]; rfl
    split_ifs with h0
    · exact ⟨trivial, hput⟩
    · exact ⟨⟨hflt, h0, by simp only [hrem, le_refl], hover⟩, hput⟩

/-- R124: a drained value leaves no trace but the count. -/
theorem encOk_afterDrain {legacy : Bool} {e : Enc} (hi : EncInv legacy e) (hph : e.ph = .drain) :
    EncOk legacy (bytesOut e) [] (afterDrain e) := by
  simp only [EncInv, hph] at hi
  obtain ⟨hflt, hrem, hle, hover⟩ := hi
  have hk : bytesOut e = 0 := by simp only [bytesOut, hph]
  rw [hk]
  unfold afterDrain
  simp only
  split_ifs with h0
  · exact ⟨trivial, rfl⟩
  · refine ⟨?_, by simp only [bytesOut, hph, openFrame]⟩
    simp only [EncInv, hph]
    exact ⟨hflt, h0, toNat_pred_le hrem hle, hover⟩

/-! ## The three parts of the invariant -/

/-- ENC's registers fit its phase, and the tokens put so far leave open the frame ENC has in flight. -/
def FramesInv (s : State) : Prop :=
  EncInv s.cfg.legacyByteCount s.enc ∧ openFrame 0 (encObserved s) = some (bytesOut s.enc)

/-- R64: no channel is over its capacity. -/
def WithinCaps (s : State) : Prop :=
  withinCap s.cfg.capEncIn s.encIn.length ∧ withinCap s.cfg.capEncOut s.encOut.length ∧
    withinCap s.cfg.capDecIn s.decIn.length ∧ withinCap s.cfg.capDecOut s.decOut.length

theorem machineInv_iff {s : State} : MachineInv s ↔ FramesInv s ∧ s.dec.cnt.toNat ≤ 2 ∧ WithinCaps s :=
  ⟨fun ⟨henc, hdec, hopen, hcaps⟩ => ⟨⟨henc, hopen⟩, hdec, hcaps⟩,
    fun ⟨⟨henc, hopen⟩, hdec, hcaps⟩ => ⟨henc, hdec, hopen, hcaps⟩⟩

/-! ### The frames -/

/-- ENC moves on, having put `out`. -/
theorem FramesInv.encAt {s : State} (hs : FramesInv s) {e : Enc} {ei : List EncIn} {eo out : List EncOut}
    (heo : eo = s.encOut ++ out) (hok : EncOk s.cfg.legacyByteCount (bytesOut s.enc) out e) :
    FramesInv (encAt s e ei eo) := by
  refine ⟨hok.1, ?_⟩
  have hobs : encObserved (Machine.encAt s e ei eo) = encObserved s ++ out := by
    rw [heo]; exact (List.append_assoc _ _ _).symm
  rw [hobs, openFrame_append, hs.2]
  exact hok.2

/-- A step that takes a token. -/
theorem FramesInv.encAt_take {s : State} (hs : FramesInv s) {e : Enc} {ei : List EncIn}
    (hok : EncOk s.cfg.legacyByteCount (bytesOut s.enc) [] e) : FramesInv (Machine.encAt s e ei s.encOut) :=
  hs.encAt (List.append_nil _).symm hok

theorem framesInv_encTick {s t : State} (hs : FramesInv s) (h : encTick s = .moved t) : FramesInv t := by
  have hi := hs.1
  obtain ⟨fc, a, g, ts, hph, -, -, rfl⟩ | ⟨v, ts, hph, -, hfc, -, rfl⟩ | ⟨v, ts, hph, -, hfc, -, rfl⟩ |
    ⟨v, ts, hph, -, -, -, rfl⟩ | ⟨-, ⟨byte, hph, -, rfl⟩ | ⟨hph, rfl⟩ | ⟨hph, rfl⟩ | ⟨hph, rfl⟩ | ⟨hph, rfl⟩ |
    ⟨hph, rfl⟩⟩ := encTick_moved_cases h
  · have hk : bytesOut s.enc = 0 := by simp only [bytesOut, hph]
    exact hs.encAt_take (hk ▸ encOk_accept rfl)
  · exact hs.encAt_take (encOk_fetchCoil v hi hph hfc)
  · exact hs.encAt_take (encOk_fetchRegister v hi hph hfc)
  · exact hs.encAt_take (encOk_afterDrain hi hph)
  · exact hs.encAt rfl (encOk_afterHeader hi hph)
  · exact hs.encAt rfl (encOk_flush hi hph)
  · exact hs.encAt rfl (encOk_pad hi hph)
  · exact hs.encAt rfl (encOk_hi hi hph)
  · exact hs.encAt rfl (encOk_lo hi hph)
  · exact hs.encAt rfl (encOk_afterFault hi hph)

/-- The frames depend on nothing but the configuration, ENC and what has been put. -/
theorem FramesInv.congr {s t : State} (hs : FramesInv s) (hcfg : t.cfg = s.cfg) (henc : t.enc = s.enc)
    (hobs : encObserved t = encObserved s) : FramesInv t := by
  rw [FramesInv, hcfg, henc, hobs]; exact hs

theorem FramesInv.sameTokens {s t : State} (hs : FramesInv s) (h : SameTokens s t) : FramesInv t :=
  hs.congr h.cfg (by rw [h.1]) h.2.2.2.1

/-- The registers are unspecified after a reset, but ENC is in `IDLE`. -/
theorem framesInv_resetUnits {s : State} (hopen : openFrame 0 (encObserved s) = some 0) : FramesInv (resetUnits s) :=
  ⟨trivial, hopen⟩

theorem enc_idle_of_quiet {s : State} (h : quiet s = true) : s.enc.ph = .idle := by
  simp only [quiet, Bool.and_eq_true, decide_eq_true_eq] at h
  tauto

theorem stepKeeps_framesInv : StepKeeps FramesInv where
  turns _ hs := hs
  enc := framesInv_encTick
  dec hs h := by
    obtain ⟨_, _, _, ht⟩ | ⟨_, _, ht⟩ := decTick_moves_one_token h <;> rw [ht] <;> exact hs
  putEnc hs := hs.sameTokens (hostPutEnc_sameTokens _)
  putDec hs := hs.sameTokens (hostPutDec_sameTokens _)
  takeEnc hs := hs.sameTokens (hostTakeEnc_sameTokens _)
  takeDec hs := hs.sameTokens (hostTakeDec_sameTokens _)
  reset hq hs := framesInv_resetUnits (by rw [hs.2]; simp only [bytesOut, enc_idle_of_quiet hq])
  restart _ _ _ := ⟨trivial, rfl⟩

/-! ### `DEC.CNT` -/

theorem receiveByte_cnt (byte : Byte) (last : Bool) (d : Dec) :
    (receiveByte byte last d).cnt = if d.cnt = 0 then 1 else if d.cnt = 1 then 2 else d.cnt := by
  unfold receiveByte
  cases last <;> (split_ifs <;> rfl)

theorem receiveByte_cnt_le (byte : Byte) (last : Bool) {d : Dec} (h : d.cnt.toNat ≤ 2) :
    (receiveByte byte last d).cnt.toNat ≤ 2 := by
  rw [receiveByte_cnt]
  split_ifs
  · decide
  · decide
  · exact h

theorem stepKeeps_decCnt : StepKeeps (fun s => s.dec.cnt.toNat ≤ 2) where
  turns _ hs := hs
  enc hs h := by
    obtain ⟨_, _, _, ht⟩ | ⟨_, _, ht⟩ := encTick_moves_one_token h <;> rw [ht] <;> exact hs
  dec hs h := by
    obtain ⟨byte, last, ts, -, -, rfl⟩ | ⟨ts, -, -, -, rfl⟩ | ⟨-, -, rfl⟩ := decTick_moved_cases h
    · exact receiveByte_cnt_le byte last hs
    · exact hs
    · exact Nat.zero_le 2
  putEnc {s} hs := by rw [(hostPutEnc_sameTokens s).1]; exact hs
  putDec {s} hs := by rw [(hostPutDec_sameTokens s).1]; exact hs
  takeEnc {s} hs := by rw [(hostTakeEnc_sameTokens s).1]; exact hs
  takeDec {s} hs := by rw [(hostTakeDec_sameTokens s).1]; exact hs
  reset _ _ := Nat.zero_le 2
  restart _ _ _ := Nat.zero_le 2

/-! ### The capacities -/

theorem withinCap_zero (cap : Option Nat) : withinCap cap 0 := by
  cases cap with
  | none => trivial
  | some c => exact Nat.zero_le c

theorem withinCap_append {α : Type} {cap : Option Nat} {l : List α} (x : α) (h : hasRoom cap l.length = true) :
    withinCap cap (l ++ [x]).length := by
  rw [List.length_append]; exact withinCap_put h

theorem withinCap_tail {α : Type} {cap : Option Nat} {l rest : List α} {x : α} (h : withinCap cap l.length)
    (hl : l = x :: rest) : withinCap cap rest.length :=
  withinCap_le h (by rw [hl]; exact Nat.le_succ _)

theorem stepKeeps_withinCaps : StepKeeps WithinCaps where
  turns _ hs := hs
  enc hs h := by
    obtain ⟨hei, heo, hd⟩ := hs
    obtain ⟨_, _, hin, ht⟩ | ⟨x, hr, ht⟩ := encTick_moves_one_token h <;> rw [ht]
    · exact ⟨withinCap_tail hei hin, heo, hd⟩
    · exact ⟨hei, withinCap_append x hr, hd⟩
  dec hs h := by
    obtain ⟨hei, heo, hdi, hdo⟩ := hs
    obtain ⟨_, _, hin, ht⟩ | ⟨x, hr, ht⟩ := decTick_moves_one_token h <;> rw [ht]
    · exact ⟨hei, heo, withinCap_tail hdi hin, hdo⟩
    · exact ⟨hei, heo, hdi, withinCap_append x hr⟩
  putEnc {s} hs := by
    cases hp : s.host.encProg with
    | nil => rw [hostPutEnc_of_blocked (.inl hp)]; exact hs
    | cons x rest =>
      cases hr : hasRoom s.cfg.capEncIn s.encIn.length with
      | false => rw [hostPutEnc_of_blocked (.inr hr)]; exact hs
      | true =>
        rw [hostPutEnc_of_room hp hr]
        exact ⟨withinCap_append x hr, hs.2⟩
  putDec {s} hs := by
    obtain ⟨hei, heo, hdi, hdo⟩ := hs
    cases hp : s.host.decProg with
    | nil => rw [hostPutDec_of_blocked (.inl hp)]; exact ⟨hei, heo, hdi, hdo⟩
    | cons x rest =>
      cases hr : hasRoom s.cfg.capDecIn s.decIn.length with
      | false => rw [hostPutDec_of_blocked (.inr hr)]; exact ⟨hei, heo, hdi, hdo⟩
      | true =>
        rw [hostPutDec_of_room hp hr]
        exact ⟨hei, heo, withinCap_append x hr, hdo⟩
  takeEnc {s} hs := by
    obtain ⟨hei, heo, hd⟩ := hs
    cases ho : s.encOut with
    | nil => rw [hostTakeEnc_of_nil ho]; exact ⟨hei, heo, hd⟩
    | cons x rest => rw [hostTakeEnc_of_cons ho]; exact ⟨hei, withinCap_tail heo ho, hd⟩
  takeDec {s} hs := by
    obtain ⟨hei, heo, hdi, hdo⟩ := hs
    cases ho : s.decOut with
    | nil => rw [hostTakeDec_of_nil ho]; exact ⟨hei, heo, hdi, hdo⟩
    | cons x rest => rw [hostTakeDec_of_cons ho]; exact ⟨hei, heo, hdi, withinCap_tail hdo ho⟩
  reset _ hs := hs
  restart _ _ _ := ⟨withinCap_zero _, withinCap_zero _, withinCap_zero _, withinCap_zero _⟩

/-! ## No phase without a rule (R128) -/

theorem encPutStep_ne_stuck (t : EncOut) (e : Enc) (s : State) (f : Fault) : encPutStep t e s ≠ .stuck f := by
  unfold encPutStep
  split_ifs <;> exact Tick.noConfusion

/-- The registers with which ENC's step meets no rule. -/
theorem encTick_noRule_cases {s : State} (h : encTick s = .stuck .encNoRule) :
    (s.enc.ph = .hdr ∧ headerByte s.enc = none) ∨ ((s.enc.ph = .fetch ∨ s.enc.ph = .drain) ∧ s.enc.rem = 0) ∨
      (s.enc.ph = .fetch ∧ s.enc.fc ≠ 0x0F ∧ s.enc.fc ≠ 0x10) := by
  cases hph : s.enc.ph <;> simp only [encTick, hph] at h
  case idle =>
    unfold encIdle at h
    split at h
    · cases h
    · cases h
    · split_ifs at h
  case hdr =>
    unfold encHdr at h
    split at h
    · rename_i hb; exact .inl ⟨rfl, hb⟩
    · exact absurd h (encPutStep_ne_stuck _ _ _ _)
  case fetch =>
    unfold encFetch at h
    split at h
    · cases h
    · cases h
    · split_ifs at h with hrem h15 h16
      · exact .inr <| .inl ⟨.inl rfl, hrem⟩
      · split at h <;> cases h
      · exact .inr <| .inr ⟨rfl, h15, h16⟩
  case drain =>
    unfold encDrain at h
    split at h
    · cases h
    · cases h
    · split_ifs at h with hrem hv
      exact .inr <| .inl ⟨.inr rfl, hrem⟩
  all_goals exact absurd h (encPutStep_ne_stuck _ _ _ _)

theorem headerByte_ne_none {e : Enc} (h : e.idx.toNat < headerLength e.fc) : headerByte e ≠ none := by
  unfold headerByte
  rw [if_neg (Nat.not_le.mpr h)]
  split_ifs <;> exact Option.some_ne_none _

theorem idx_lt_headerLength {legacy : Bool} {e : Enc} (hi : EncInv legacy e) (hph : e.ph = .hdr) :
    e.idx.toNat < headerLength e.fc := by
  simp only [EncInv, hph] at hi
  obtain ⟨⟨hfc, -⟩, -, hidx, -⟩ | ⟨⟨hfc, -⟩, -, hidx⟩ | ⟨-, h15, h16, -, -, hidx⟩ := hi
  · rw [hfc]; exact hidx
  · rw [hfc]; exact hidx
  · rw [headerLength, if_neg (not_or.mpr ⟨h15, h16⟩)]; exact hidx

theorem fetch_of_encInv {legacy : Bool} {e : Enc} (hi : EncInv legacy e) (hph : e.ph = .fetch) :
    e.rem ≠ 0 ∧ (e.fc = 0x0F ∨ e.fc = 0x10) := by
  simp only [EncInv, hph] at hi
  obtain ⟨hrem, ⟨⟨hfc, -⟩, -⟩ | ⟨⟨hfc, -⟩, -⟩⟩ := hi
  · exact ⟨hrem, .inl hfc⟩
  · exact ⟨hrem, .inr hfc⟩

theorem rem_ne_zero_of_drain {legacy : Bool} {e : Enc} (hi : EncInv legacy e) (hph : e.ph = .drain) : e.rem ≠ 0 := by
  simp only [EncInv, hph] at hi
  exact hi.2.1

/-! ## The obligations -/

/-- Settles O49: each of the invariant's three parts is kept by everything that happens within a step. -/
theorem everyStepKeepsTheInvariant : Obligations.EveryStepKeepsTheInvariant := by
  intro s t hs h
  obtain ⟨hframes, hcnt, hcaps⟩ := machineInv_iff.mp hs
  exact machineInv_iff.mpr
    ⟨stepKeeps_framesInv.step hframes h, stepKeeps_decCnt.step hcnt h, stepKeeps_withinCaps.step hcaps h⟩

/-- Settles O48: ENC is in `IDLE`, `DEC.CNT` is 0 and the channels are empty. -/
theorem invariantHoldsAtReset : Obligations.InvariantHoldsAtReset :=
  machineInv_iff.mpr ⟨⟨trivial, rfl⟩, Nat.zero_le 2, trivial, trivial, trivial, trivial⟩

/-- Settles O50: each combination of registers without a rule is one that the invariant excludes. -/
theorem invariantLeavesNoPhaseWithoutARule : Obligations.InvariantLeavesNoPhaseWithoutARule := by
  intro s hs h
  have hi : EncInv s.cfg.legacyByteCount s.enc := hs.1
  obtain ⟨hph, hb⟩ | ⟨hph | hph, hrem⟩ | ⟨hph, h15, h16⟩ := encTick_noRule_cases h
  · exact headerByte_ne_none (idx_lt_headerLength hi hph) hb
  · exact (fetch_of_encInv hi hph).1 hrem
  · exact rem_ne_zero_of_drain hi hph hrem
  · exact (fetch_of_encInv hi hph).2.elim h15 h16

end Sys2Proof.Machine
end

section
/-! PROOFS. LiveRegisters.lean: no step reads a register that is not live (R9, R31, R33). Each unit's step on the live
part of a state is its step on the state, up to registers that are not live; so is every run, turn and step. -/

namespace Sys2Proof.Machine

/-! ## What depends on the live registers alone -/

/-- `F` reads no register that is not live. -/
def ReadsLiveOnly {α : Type} (F : State → α) : Prop := ∀ ⦃s t : State⦄, live s = live t → F s = F t

theorem ReadsLiveOnly.of_live {α : Type} {F : State → α} (h : ∀ s, F (live s) = F s) : ReadsLiveOnly F :=
  fun s t hst => (h s).symm.trans ((congrArg F hst).trans (h t))

/-- One step of a unit with its next state seen through `f`. -/
def mapMoved (f : State → State) : Tick → Tick
  | .moved s => .moved (f s)
  | .waiting => .waiting
  | .stuck r => .stuck r
  | .refused r => .refused r

/-! ## Taking the live registers twice -/

theorem liveEnc_ph (e : Enc) : (liveEnc e).ph = e.ph := by
  cases h : e.ph <;> simp only [liveEnc, h, Enc.reset]

/-- Whether a drained command is function 15 can be told from what is kept of `FC` while values are owed. -/
theorem keptCode_keptCode {fc : Byte} {p q : Prop} [Decidable p] [Decidable q] (h : q → p) :
    (if (if fc = 0x0F ∧ p then fc else 0) = 0x0F ∧ q then (if fc = 0x0F ∧ p then fc else 0) else 0) =
      if fc = 0x0F ∧ q then fc else 0 := by
  by_cases hq : q
  · by_cases hfc : fc = 0x0F
    · simp only [hfc, hq, h hq, and_self, if_true]
    · simp only [hfc, false_and, if_false, ite_self]
  · simp only [hq, and_false, if_false]

theorem liveEnc_of_fault {e : Enc} (h : e.ph = .fault) :
    liveEnc e = { Enc.reset with
      ph := .fault, fc := if e.fc = 0x0F ∧ e.rem ≠ 0 then e.fc else 0, rem := e.rem, flt := e.flt } := by
  simp only [liveEnc, h]

theorem liveEnc_of_drain {e : Enc} (h : e.ph = .drain) :
    liveEnc e = { Enc.reset with
      ph := .drain, fc := if e.fc = 0x0F ∧ e.rem ≠ 0 then e.fc else 0, rem := e.rem } := by
  simp only [liveEnc, h]

theorem liveEnc_liveEnc (e : Enc) : liveEnc (liveEnc e) = liveEnc e := by
  cases hph : e.ph
  case fault => rw [liveEnc_of_fault hph, liveEnc_of_fault rfl]; simp only [keptCode_keptCode id]
  case drain => rw [liveEnc_of_drain hph, liveEnc_of_drain rfl]; simp only [keptCode_keptCode id]
  case idle => cases e; cases hph; rfl
  case flush => cases e; cases hph; rfl
  all_goals
    cases e; cases hph
    dsimp only [liveEnc]
    split_ifs <;> rfl

theorem liveDec_of_recv {d : Dec} (h : d.ph = .recv) :
    liveDec d = { d with b0 := if d.cnt = 0 then 0 else d.b0, b1 := if d.cnt.toNat < 2 then 0 else d.b1 } := by
  simp only [liveDec, h]

theorem liveDec_of_result {d : Dec} (h : d.ph = .result) :
    liveDec d = { d with
      b0 := if d.cnt.toNat < 2 then 0 else d.b0,
      b1 := if d.cnt.toNat < 2 ∨ exceptionBit d.b0 = false then 0 else d.b1 } := by
  simp only [liveDec, h]

theorem liveDec_liveDec (d : Dec) : liveDec (liveDec d) = liveDec d := by
  cases hph : d.ph with
  | recv =>
    rw [liveDec_of_recv hph, liveDec_of_recv (by exact hph)]
    dsimp only
    split_ifs <;> rfl
  | result =>
    rw [liveDec_of_result hph, liveDec_of_result (by exact hph)]
    by_cases h2 : d.cnt.toNat < 2
    · simp only [h2, true_or, if_true]
    · cases hx : exceptionBit d.b0 <;> simp [h2, hx]

/-! ## The steps of ENC -/

theorem liveEnc_accept (legacy : Bool) (fc : Byte) (a g : U16) (e e' : Enc) :
    liveEnc (accept legacy (latch fc a g e)) = liveEnc (accept legacy (latch fc a g e')) := by
  cases hc : functionCodeOf fc with
  | none => simp only [accept, latch, hc]; rfl
  | some c =>
    have hfc := eq_value_of_functionCodeOf hc
    subst hfc
    cases c
    case writeMultipleCoils =>
      show liveEnc (acceptCoils legacy (latch _ a g e)) = liveEnc (acceptCoils legacy (latch _ a g e'))
      by_cases ho : overflow15 legacy g.toNat = true
      · simp only [acceptCoils, latch, ho, if_true]; rfl
      · simp only [acceptCoils, latch, ho]; rfl
    case writeMultipleRegisters =>
      show liveEnc (acceptRegisters (latch _ a g e)) = liveEnc (acceptRegisters (latch _ a g e'))
      by_cases ho : overflow16 g.toNat = true
      · simp only [acceptRegisters, latch, ho, if_true]; rfl
      · simp only [acceptRegisters, latch, ho]; rfl
    all_goals rfl

/-- What `FETCH` and `PAD` still read: the frame's counts, and of function 15 the accumulator. -/
theorem liveEnc_congr_of_fetch_or_pad {e e' : Enc} (hph : e.ph = e'.ph) (hp : e'.ph = .fetch ∨ e'.ph = .pad)
    (hfc : e.fc = e'.fc) (hlen : e.len = e'.len) (hidx : e.idx = e'.idx) (hrem : e.rem = e'.rem)
    (hacc : e'.fc = 0x0F → e.acc = e'.acc ∧ e.pos = e'.pos) : liveEnc e = liveEnc e' := by
  have ha : (if e'.fc = 0x0F then e.acc else 0) = if e'.fc = 0x0F then e'.acc else 0 := by
    split_ifs with h
    · exact (hacc h).1
    · rfl
  have hpos : (if e'.fc = 0x0F then e.pos else 0) = if e'.fc = 0x0F then e'.pos else 0 := by
    split_ifs with h
    · exact (hacc h).2
    · rfl
  obtain hp | hp := hp <;> simp only [liveEnc, hph, hp, hfc, hlen, hidx, hrem, ha, hpos]

/-- So after a byte. -/
theorem liveEnc_afterByte_congr {e e' : Enc} (hfc : e.fc = e'.fc) (hlen : e.len = e'.len) (hidx : e.idx = e'.idx)
    (hrem : e.rem = e'.rem) (hacc : e'.fc = 0x0F → e.acc = e'.acc ∧ e.pos = e'.pos) :
    liveEnc (afterByte e) = liveEnc (afterByte e') := by
  have hph : (afterByte e).ph = (afterByte e').ph := by simp only [afterByte, afterEmit, hidx, hlen, hrem]
  have hidx' : (afterByte e).idx = (afterByte e').idx := congrArg (· + 1) hidx
  obtain ⟨-, hp⟩ | ⟨-, -, hp⟩ | ⟨-, -, hp⟩ := afterEmit_cases { e' with idx := e'.idx + 1 }
  · have hp' : (afterByte e').ph = .idle := hp
    simp only [liveEnc, hph, hp']
  · exact liveEnc_congr_of_fetch_or_pad hph (.inr hp) hfc hlen hidx' hrem hacc
  · exact liveEnc_congr_of_fetch_or_pad hph (.inl hp) hfc hlen hidx' hrem hacc

theorem liveEnc_of_hdr {e : Enc} (h : e.ph = .hdr) :
    liveEnc e = { e with
      bc := if headerLength e.fc = 6 then e.bc else 0, acc := if e.fc = 0x0F then e.acc else 0,
      pos := if e.fc = 0x0F then e.pos else 0, val := 0, flt := 0 } := by
  simp only [liveEnc, h]

/-- R122: `BC` is a byte of the header only if the header has six. -/
theorem headerByte_liveEnc {e : Enc} (hph : e.ph = .hdr) : headerByte (liveEnc e) = headerByte e := by
  have hlen : headerLength e.fc = 6 ∨ headerLength e.fc = 5 := by
    unfold headerLength; split_ifs <;> simp
  rw [liveEnc_of_hdr hph]
  obtain h6 | h5 := hlen
  · simp only [h6, if_true]; rfl
  · simp only [headerByte, h5, Nat.reduceEqDiff, if_false]
    split_ifs with hend h0 h1 h2 h3 h4
    any_goals rfl
    bv_omega

theorem liveEnc_afterByte {e : Enc} (hph : e.ph = .hdr ∨ e.ph = .pad ∨ e.ph = .lo) :
    liveEnc (afterByte (liveEnc e)) = liveEnc (afterByte e) := by
  obtain hph | hph | hph := hph <;> cases e <;> cases hph <;>
    exact liveEnc_afterByte_congr rfl rfl rfl rfl fun h => ⟨if_pos h, if_pos h⟩

theorem liveEnc_afterHeader {e : Enc} (hph : e.ph = .hdr) :
    liveEnc (afterHeader (liveEnc e)) = liveEnc (afterHeader e) := by
  have hnext : ((liveEnc e).idx + 1).toNat = (e.idx + 1).toNat ∧ headerLength (liveEnc e).fc = headerLength e.fc := by
    rw [liveEnc_of_hdr hph]; exact ⟨rfl, rfl⟩
  obtain ⟨hidx, hlen⟩ := hnext
  by_cases hend : (e.idx + 1).toNat = headerLength e.fc
  · rw [afterHeader_of_last hend, afterHeader_of_last (by rw [hidx, hlen, hend])]
    exact liveEnc_afterByte (.inl hph)
  · rw [afterHeader_of_inner hend, afterHeader_of_inner (by rw [hidx, hlen]; exact hend), liveEnc_of_hdr hph,
      liveEnc_of_hdr (by exact hph), liveEnc_of_hdr (by exact hph)]
    dsimp only
    split_ifs <;> rfl

theorem liveEnc_afterFlush {e : Enc} (hph : e.ph = .flush) :
    liveEnc (afterByte { liveEnc e with acc := 0, pos := 0 }) = liveEnc (afterByte { e with acc := 0, pos := 0 }) := by
  cases e; cases hph
  exact liveEnc_afterByte_congr rfl rfl rfl rfl fun _ => ⟨rfl, rfl⟩

theorem liveEnc_afterHi {e : Enc} (hph : e.ph = .hi) :
    liveEnc { liveEnc e with idx := (liveEnc e).idx + 1, ph := .lo } =
      liveEnc { e with idx := e.idx + 1, ph := .lo } := by
  cases e; cases hph
  dsimp only [liveEnc]
  split_ifs <;> rfl

theorem liveEnc_congr_of_flush {e e' : Enc} (hph : e.ph = .flush) (hph' : e'.ph = .flush) (hfc : e.fc = e'.fc)
    (hlen : e.len = e'.len) (hidx : e.idx = e'.idx) (hrem : e.rem = e'.rem) (hacc : e.acc = e'.acc) :
    liveEnc e = liveEnc e' := by
  simp only [liveEnc, hph, hph', hfc, hlen, hidx, hrem, hacc]

theorem liveEnc_of_fetchCoil {e : Enc} (hph : e.ph = .fetch) (hfc : e.fc = 0x0F) :
    liveEnc e = { e with addr := 0, arg := 0, bc := 0, val := 0, flt := 0 } := by
  simp only [liveEnc, hph, hfc, if_true]

theorem liveEnc_fetchCoil {e : Enc} (v : Bool) (hph : e.ph = .fetch) (hfc : e.fc = 0x0F) :
    liveEnc (fetchCoil v (liveEnc e)) = liveEnc (fetchCoil v e) := by
  rw [liveEnc_of_fetchCoil hph hfc]
  simp only [fetchCoil]
  split_ifs
  · exact liveEnc_congr_of_flush rfl rfl rfl rfl rfl rfl rfl
  · exact liveEnc_congr_of_fetch_or_pad rfl (.inl hph) rfl rfl rfl rfl fun _ => ⟨rfl, rfl⟩

theorem liveEnc_fetchRegister {e : Enc} (v : U16) (hph : e.ph = .fetch) :
    liveEnc (fetchRegister v (liveEnc e)) = liveEnc (fetchRegister v e) := by
  cases e; cases hph
  dsimp only [fetchRegister, liveEnc]
  split_ifs <;> rfl

theorem liveEnc_afterFault {e : Enc} (hph : e.ph = .fault) :
    liveEnc (afterFault (liveEnc e)) = liveEnc (afterFault e) := by
  rw [liveEnc_of_fault hph]
  by_cases hrem : e.rem = 0
  · simp only [afterFault, hrem, if_true]; rfl
  · simp only [afterFault, hrem, if_false]
    rw [liveEnc_of_drain rfl, liveEnc_of_drain rfl]
    simp only [keptCode_keptCode id]

theorem liveEnc_afterDrain {e : Enc} (hph : e.ph = .drain) (hrem : e.rem ≠ 0) :
    liveEnc (afterDrain (liveEnc e)) = liveEnc (afterDrain e) := by
  rw [liveEnc_of_drain hph]
  by_cases hlast : e.rem - 1 = 0
  · simp only [afterDrain, hlast, if_true]; rfl
  · simp only [afterDrain, hlast, if_false]
    rw [liveEnc_of_drain rfl, liveEnc_of_drain (by exact hph)]
    simp only [keptCode_keptCode (fun _ => hrem)]

/-! ## ENC's step on the live part of a state -/

theorem live_live (s : State) : live (live s) = live s := by
  show (s.setEnc (liveEnc (liveEnc s.enc))).setDec (liveDec (liveDec s.dec)) = live s
  rw [liveEnc_liveEnc, liveDec_liveDec]
  rfl

@[simp] theorem live_cfg (s : State) : (live s).cfg = s.cfg := rfl
@[simp] theorem live_enc (s : State) : (live s).enc = liveEnc s.enc := rfl
@[simp] theorem live_dec (s : State) : (live s).dec = liveDec s.dec := rfl
@[simp] theorem live_encIn (s : State) : (live s).encIn = s.encIn := rfl
@[simp] theorem live_encOut (s : State) : (live s).encOut = s.encOut := rfl
@[simp] theorem live_decIn (s : State) : (live s).decIn = s.decIn := rfl
@[simp] theorem live_decOut (s : State) : (live s).decOut = s.decOut := rfl
@[simp] theorem live_host (s : State) : (live s).host = s.host := rfl
@[simp] theorem live_turns (s : State) : (live s).turns = s.turns := rfl
@[simp] theorem live_free (s : State) : (live s).free = s.free := rfl

/-- ENC moves to registers that agree where they are live. -/
theorem moved_encAt_live (s : State) {e e' : Enc} (h : liveEnc e = liveEnc e') (ei : List EncIn) (eo : List EncOut) :
    mapMoved live (.moved (encAt (live s) e ei eo)) = mapMoved live (.moved (encAt s e' ei eo)) := by
  show Tick.moved (((encAt s e ei eo).setEnc (liveEnc e)).setDec (liveDec (liveDec s.dec))) =
    .moved (((encAt s e' ei eo).setEnc (liveEnc e')).setDec (liveDec s.dec))
  rw [h, liveDec_liveDec]
  rfl

theorem encPutStep_live (s : State) {x x' : EncOut} {e e' : Enc} (hx : x = x') (h : liveEnc e = liveEnc e') :
    mapMoved live (encPutStep x e (live s)) = mapMoved live (encPutStep x' e' s) := by
  simp only [encPutStep, live_cfg, live_encOut, hx]
  split_ifs
  · exact moved_encAt_live s h s.encIn (s.encOut ++ [x'])
  · rfl

theorem encIdle_live (s : State) : mapMoved live (encIdle (live s)) = mapMoved live (encIdle s) := by
  simp only [encIdle, live_encIn, live_cfg, live_enc]
  cases s.encIn with
  | nil => rfl
  | cons x ts =>
    cases x with
    | v x => rfl
    | c fc a g =>
      dsimp only
      split_ifs
      · rfl
      · exact moved_encAt_live s (liveEnc_accept _ fc a g _ _) ts s.encOut

/-- In a frame `FC`, `LEN`, `IDX` and `REM` are live. -/
theorem liveEnc_frame_fields {e : Enc} (h : e.ph ≠ .idle ∧ e.ph ≠ .fault ∧ e.ph ≠ .drain) :
    (liveEnc e).fc = e.fc ∧ (liveEnc e).len = e.len ∧ (liveEnc e).idx = e.idx ∧ (liveEnc e).rem = e.rem := by
  obtain ⟨hidle, hfault, hdrain⟩ := h
  cases hph : e.ph
  case idle => exact absurd hph hidle
  case fault => exact absurd hph hfault
  case drain => exact absurd hph hdrain
  all_goals simp only [liveEnc, hph, and_self]

theorem byteToken_congr {e e' : Enc} {byte byte' : Byte} (hidx : e.idx = e'.idx) (hlen : e.len = e'.len)
    (hb : byte = byte') : byteToken e byte = byteToken e' byte' := by
  simp only [byteToken, hidx, hlen, hb]

theorem encHdr_live {s : State} (hph : s.enc.ph = .hdr) :
    mapMoved live (encHdr (live s)) = mapMoved live (encHdr s) := by
  obtain ⟨-, hlen, hidx, -⟩ := liveEnc_frame_fields (e := s.enc) (by simp [hph])
  simp only [encHdr, live_enc, headerByte_liveEnc hph]
  cases headerByte s.enc with
  | none => rfl
  | some byte => exact encPutStep_live s (byteToken_congr hidx hlen rfl) (liveEnc_afterHeader hph)

theorem encFetch_live {s : State} (hph : s.enc.ph = .fetch) :
    mapMoved live (encFetch (live s)) = mapMoved live (encFetch s) := by
  obtain ⟨hfc, -, -, hrem⟩ := liveEnc_frame_fields (e := s.enc) (by simp [hph])
  simp only [encFetch, live_encIn, live_enc, hfc, hrem]
  cases s.encIn with
  | nil => rfl
  | cons x ts =>
    cases x with
    | c fc a g => rfl
    | v x =>
      dsimp only
      split_ifs with h0 h15 h16
      · rfl
      · cases coilOfArg x with
        | none => rfl
        | some v => exact moved_encAt_live s (liveEnc_fetchCoil v hph h15) ts s.encOut
      · exact moved_encAt_live s (liveEnc_fetchRegister x hph) ts s.encOut
      · rfl

theorem encDrain_live {s : State} (hph : s.enc.ph = .drain) :
    mapMoved live (encDrain (live s)) = mapMoved live (encDrain s) := by
  have hrem : (liveEnc s.enc).rem = s.enc.rem := by rw [liveEnc_of_drain hph]
  simp only [encDrain, live_encIn, live_enc, hrem]
  cases s.encIn with
  | nil => rfl
  | cons x ts =>
    cases x with
    | c fc a g => rfl
    | v x =>
      dsimp only
      by_cases h0 : s.enc.rem = 0
      · rw [if_pos h0, if_pos h0]
      · have hv : valueRefused (liveEnc s.enc).fc x = valueRefused s.enc.fc x := by
          rw [liveEnc_of_drain hph]
          by_cases h15 : s.enc.fc = 0x0F
          · simp only [h15, h0, ne_eq, not_false_eq_true, and_self, if_true]
          · simp only [valueRefused, h15, false_and, if_false]; rfl
        simp only [if_neg h0, hv]
        split_ifs
        · rfl
        · exact moved_encAt_live s (liveEnc_afterDrain hph h0) ts s.encOut

theorem encTick_live (s : State) : mapMoved live (encTick (live s)) = mapMoved live (encTick s) := by
  have hph' : (live s).enc.ph = s.enc.ph := liveEnc_ph s.enc
  have hframe := liveEnc_frame_fields (e := s.enc)
  cases hph : s.enc.ph <;> simp only [encTick, hph', hph]
  case idle => exact encIdle_live s
  case hdr => exact encHdr_live hph
  case fetch => exact encFetch_live hph
  case drain => exact encDrain_live hph
  case fault =>
    have hflt : (liveEnc s.enc).flt = s.enc.flt := by rw [liveEnc_of_fault hph]
    exact encPutStep_live s (congrArg EncOut.f hflt) (liveEnc_afterFault hph)
  case flush =>
    obtain ⟨-, hlen, hidx, -⟩ := hframe (by simp [hph])
    have hacc : (liveEnc s.enc).acc = s.enc.acc := by simp only [liveEnc, hph]
    exact encPutStep_live s (byteToken_congr hidx hlen hacc) (liveEnc_afterFlush hph)
  case pad =>
    obtain ⟨-, hlen, hidx, -⟩ := hframe (by simp [hph])
    exact encPutStep_live s (byteToken_congr hidx hlen rfl) (liveEnc_afterByte (.inr <| .inl hph))
  case hi =>
    obtain ⟨-, hlen, hidx, -⟩ := hframe (by simp [hph])
    have hval : (liveEnc s.enc).val = s.enc.val := by simp only [liveEnc, hph]
    exact encPutStep_live s (byteToken_congr hidx hlen (congrArg hiByte hval)) (liveEnc_afterHi hph)
  case lo =>
    obtain ⟨-, hlen, hidx, -⟩ := hframe (by simp [hph])
    have hval : (liveEnc s.enc).val = s.enc.val := by simp only [liveEnc, hph]
    exact encPutStep_live s (byteToken_congr hidx hlen (congrArg loByte hval)) (liveEnc_afterByte (.inr <| .inr hph))

/-! ## DEC's step on the live part of a state -/

theorem liveDec_ph (d : Dec) : (liveDec d).ph = d.ph := by
  unfold liveDec; split <;> rfl

theorem liveDec_cnt (d : Dec) : (liveDec d).cnt = d.cnt := by
  unfold liveDec; split <;> rfl

theorem moved_setDec_live (s : State) {d d' : Dec} (h : liveDec d = liveDec d') (di : List DecIn) (eo : List DecOut) :
    mapMoved live (.moved { live s with dec := d, decIn := di, decOut := eo }) =
      mapMoved live (.moved { s with dec := d', decIn := di, decOut := eo }) := by
  simp only [mapMoved, live, State.setEnc, State.setDec, liveEnc_liveEnc, h]

theorem liveDec_receiveByte {d : Dec} (byte : Byte) (last : Bool) (hph : d.ph = .recv) :
    liveDec (receiveByte byte last (liveDec d)) = liveDec (receiveByte byte last d) := by
  rw [liveDec_of_recv hph]
  by_cases h0 : d.cnt = 0
  · cases last <;> simp [liveDec, hph, receiveByte, h0]
  by_cases h1 : d.cnt = 1
  · cases last <;> simp [liveDec, hph, receiveByte, h1]
  · have h2 : ¬ d.cnt.toNat < 2 := by bv_omega
    rw [if_neg h0, if_neg h2]

theorem resultToken_liveDec {d : Dec} (hph : d.ph = .result) : resultToken (liveDec d) = resultToken d := by
  rw [liveDec_of_result hph]
  by_cases h2 : d.cnt.toNat < 2
  · simp only [resultToken, h2, if_true]
  · cases hx : exceptionBit d.b0 <;> simp [resultToken, h2, hx]

theorem decRecv_live {s : State} (hph : s.dec.ph = .recv) :
    mapMoved live (decRecv (live s)) = mapMoved live (decRecv s) := by
  simp only [decRecv, live_decIn, live_dec, liveDec_cnt]
  cases s.decIn with
  | nil => rfl
  | cons x ts =>
    cases x with
    | b byte last => exact moved_setDec_live s (liveDec_receiveByte byte last hph) ts s.decOut
    | empty =>
      dsimp only
      split_ifs with h0
      · refine moved_setDec_live s ?_ ts s.decOut
        rw [liveDec_of_recv hph, liveDec_of_result rfl, liveDec_of_result rfl]
        simp [h0]
      · rfl

theorem decResult_live {s : State} (hph : s.dec.ph = .result) :
    mapMoved live (decResult (live s)) = mapMoved live (decResult s) := by
  simp only [decResult, decPutStep, live_cfg, live_decOut, live_dec, resultToken_liveDec hph]
  split_ifs
  · refine moved_setDec_live s ?_ s.decIn (s.decOut ++ [resultToken s.dec])
    rw [liveDec_of_result hph]
    rfl
  · rfl

theorem decTick_live (s : State) : mapMoved live (decTick (live s)) = mapMoved live (decTick s) := by
  have hph' : (live s).dec.ph = s.dec.ph := liveDec_ph s.dec
  cases hph : s.dec.ph <;> simp only [decTick, hph', hph]
  case recv => exact decRecv_live hph
  case result => exact decResult_live hph

/-! ## Runs, turns and steps -/

/-- Ticks that agree up to stale registers: both move, to states that agree so, or they are the same. -/
theorem mapMoved_live_cases {x y : Tick} (h : mapMoved live x = mapMoved live y) :
    (∃ u v, x = .moved u ∧ y = .moved v ∧ live u = live v) ∨ (x = y ∧ ∀ u, x ≠ .moved u) := by
  cases x <;> cases y <;> simp_all [mapMoved]

theorem encTick_readsLiveOnly : ReadsLiveOnly (fun s => mapMoved live (encTick s)) := .of_live encTick_live

theorem decTick_readsLiveOnly : ReadsLiveOnly (fun s => mapMoved live (decTick s)) := .of_live decTick_live

theorem turns_readsLiveOnly : ReadsLiveOnly State.turns := .of_live live_turns

theorem decIn_readsLiveOnly : ReadsLiveOnly State.decIn := .of_live live_decIn

theorem encPhase_readsLiveOnly : ReadsLiveOnly (fun s => s.enc.ph) := .of_live fun s => liveEnc_ph s.enc

theorem decIdle_readsLiveOnly : ReadsLiveOnly (fun s => decIdle s.dec) :=
  .of_live fun s => by simp only [decIdle, live_dec, liveDec_ph, liveDec_cnt]

theorem encRun_readsLiveOnly (k : Nat) : ReadsLiveOnly (fun s => mapNext live (encRun k s)) := by
  induction k with
  | zero => exact fun _ _ h => congrArg Host.Outcome.next h
  | succ k ih =>
    intro s t hst
    obtain ⟨u, v, hs, ht, huv⟩ | ⟨heq, hne⟩ := mapMoved_live_cases (encTick_readsLiveOnly hst)
    · have hph : u.enc.ph = v.enc.ph := encPhase_readsLiveOnly huv
      simp only [encRun, hs, ht, hph]
      split_ifs
      · exact congrArg Host.Outcome.next huv
      · exact ih huv
    · simp only [encRun, ← heq]
      cases hx : encTick s with
      | moved u => exact absurd hx (hne u)
      | waiting => exact congrArg Host.Outcome.next hst
      | stuck f => rfl
      | refused r => rfl

theorem decRun_readsLiveOnly (k : Nat) : ReadsLiveOnly (fun s => mapNext live (decRun k s)) := by
  induction k with
  | zero => exact fun _ _ h => congrArg Host.Outcome.next h
  | succ k ih =>
    intro s t hst
    obtain ⟨u, v, hs, ht, huv⟩ | ⟨heq, hne⟩ := mapMoved_live_cases (decTick_readsLiveOnly hst)
    · have hidle : decIdle u.dec = decIdle v.dec := decIdle_readsLiveOnly huv
      simp only [decRun, hs, ht, hidle]
      split_ifs
      · exact congrArg Host.Outcome.next huv
      · exact ih huv
    · simp only [decRun, ← heq]
      cases hx : decTick s with
      | moved u => exact absurd hx (hne u)
      | waiting => exact congrArg Host.Outcome.next hst
      | stuck f => rfl
      | refused r => rfl

theorem valuesOwed_readsLiveOnly : ReadsLiveOnly valuesOwed := .of_live fun s => by
  have hph' : (live s).enc.ph = s.enc.ph := liveEnc_ph s.enc
  cases hph : s.enc.ph
  case idle => simp only [valuesOwed, hph', hph, live_encIn]
  all_goals
    have hrem : (live s).enc.rem = s.enc.rem := by simp only [live_enc, liveEnc, hph]
    simp only [valuesOwed, hph', hph, hrem]

theorem encRunTurn_readsLiveOnly : ReadsLiveOnly (fun s => mapNext live (encRunTurn s)) := by
  intro s t hst
  have hfuel : encFuel s = encFuel t := congrArg (9 + 3 * ·) (valuesOwed_readsLiveOnly hst)
  simp only [encRunTurn_eq_encRunToEnd, encRunToEnd, hfuel]
  exact encRun_readsLiveOnly _ hst

theorem decRunTurn_readsLiveOnly : ReadsLiveOnly (fun s => mapNext live (decRunTurn s)) := by
  intro s t hst
  have hin : s.decIn = t.decIn := decIn_readsLiveOnly hst
  simp only [decRunTurn_eq_decRunToEnd, decRunToEnd, hin]
  exact decRun_readsLiveOnly _ hst

theorem tickOutcome_live {x y : Tick} {s t : State} (hxy : mapMoved live x = mapMoved live y) (hst : live s = live t) :
    mapNext live (tickOutcome x s) = mapNext live (tickOutcome y t) := by
  obtain ⟨u, v, rfl, rfl, huv⟩ | ⟨rfl, hne⟩ := mapMoved_live_cases hxy
  · exact congrArg Host.Outcome.next huv
  · cases x with
    | moved u => exact absurd rfl (hne u)
    | waiting => exact congrArg Host.Outcome.next hst
    | stuck f => rfl
    | refused r => rfl

theorem unitsAlone_readsLiveOnly : ReadsLiveOnly (fun s => mapNext live (unitsAlone s)) := by
  intro s t hst
  have hdec := decTick_readsLiveOnly hst
  obtain ⟨u, v, hs, ht, huv⟩ | ⟨heq, hne⟩ := mapMoved_live_cases (encTick_readsLiveOnly hst)
  · simp only [unitsAlone, hs, ht]
    exact congrArg Host.Outcome.next huv
  · simp only [unitsAlone, ← heq]
    cases hx : encTick s with
    | moved u => exact absurd hx (hne u)
    | waiting => exact tickOutcome_live hdec hst
    | refused r => rfl
    | stuck f =>
      dsimp only
      obtain ⟨u, v, hs, ht, huv⟩ | ⟨heq', hne'⟩ := mapMoved_live_cases hdec
      · simp only [hs, ht]
        exact congrArg Host.Outcome.next huv
      · simp only [← heq']

theorem quiet_live (s : State) : quiet (live s) = quiet s := by
  simp only [quiet, live_enc, liveEnc_ph, live_dec, liveDec_ph, liveDec_cnt, live_encIn, live_encOut,
    live_decIn, live_decOut]

theorem hostPutEnc_live (s : State) : hostPutEnc (live s) = live (hostPutEnc s) := by
  cases hp : s.host.encProg with
  | nil => rw [hostPutEnc_of_blocked (.inl hp), hostPutEnc_of_blocked (s := live s) (.inl hp)]
  | cons x rest =>
    cases hr : hasRoom s.cfg.capEncIn s.encIn.length with
    | false => rw [hostPutEnc_of_blocked (.inr hr), hostPutEnc_of_blocked (s := live s) (.inr hr)]
    | true => rw [hostPutEnc_of_room hp hr, hostPutEnc_of_room (s := live s) hp hr]; rfl

theorem hostPutDec_live (s : State) : hostPutDec (live s) = live (hostPutDec s) := by
  cases hp : s.host.decProg with
  | nil => rw [hostPutDec_of_blocked (.inl hp), hostPutDec_of_blocked (s := live s) (.inl hp)]
  | cons x rest =>
    cases hr : hasRoom s.cfg.capDecIn s.decIn.length with
    | false => rw [hostPutDec_of_blocked (.inr hr), hostPutDec_of_blocked (s := live s) (.inr hr)]
    | true => rw [hostPutDec_of_room hp hr, hostPutDec_of_room (s := live s) hp hr]; rfl

theorem hostTakeEnc_live (s : State) : hostTakeEnc (live s) = live (hostTakeEnc s) := by
  simp only [hostTakeEnc, live_host, live_encOut]
  cases s.encOut <;> rfl

theorem hostTakeDec_live (s : State) : hostTakeDec (live s) = live (hostTakeDec s) := by
  simp only [hostTakeDec, live_host, live_decOut]
  cases s.decOut <;> rfl

/-- A move that commutes with `live` reads live registers alone. -/
theorem readsLiveOnly_of_commutes {F : State → State} (h : ∀ s, F (live s) = live (F s)) :
    ReadsLiveOnly (fun s => mapNext live (.next (F s))) :=
  fun s t hst => congrArg Host.Outcome.next ((h s).symm.trans ((congrArg F hst).trans (h t)))

theorem turnStep_readsLiveOnly (x : Turn) : ReadsLiveOnly (fun s => mapNext live (turnStep x s)) := by
  cases x with
  | enc => exact fun _ _ h => tickOutcome_live (encTick_readsLiveOnly h) h
  | dec => exact fun _ _ h => tickOutcome_live (decTick_readsLiveOnly h) h
  | encRun => exact encRunTurn_readsLiveOnly
  | decRun => exact decRunTurn_readsLiveOnly
  | putEnc => exact readsLiveOnly_of_commutes hostPutEnc_live
  | putDec => exact readsLiveOnly_of_commutes hostPutDec_live
  | takeEnc => exact readsLiveOnly_of_commutes hostTakeEnc_live
  | takeDec => exact readsLiveOnly_of_commutes hostTakeDec_live
  | reset =>
    refine .of_live fun s => ?_
    simp only [turnStep, resetPin, quiet_live]
    split_ifs <;> rfl
  | restart ep dp => exact .of_live fun s => rfl

/-- Settles O51: a step reads the schedule, and its turn reads only live registers. -/
theorem staleRegistersAreNeverRead : Obligations.StaleRegistersAreNeverRead := by
  intro s t hst
  have hturns : s.turns = t.turns := turns_readsLiveOnly hst
  cases hts : t.turns with
  | nil =>
    simp only [step, hturns, hts]
    exact unitsAlone_readsLiveOnly hst
  | cons x ts =>
    rw [step_of_turns_cons (hturns.trans hts), step_of_turns_cons hts]
    exact turnStep_readsLiveOnly x (congrArg (State.setTurns ts) hst)

end Sys2Proof.Machine
end

section
/-! PROOFS. ResetAndCodes.lean: the launch state (R33, R244) and the eight function codes (R20, R81, R98). -/

namespace Sys2Proof.Machine

/-- Settles O1: each field of the launch state is one of the fields of the state after reset. -/
theorem resetIsTheLaunchState : Obligations.ResetIsTheLaunchState :=
  ⟨⟨rfl, rfl, rfl, rfl, rfl, rfl, rfl, rfl⟩, rfl, rfl, rfl, rfl, rfl⟩

end Sys2Proof.Machine

namespace Sys2Proof

/-- R98: the illegal values are those between and around the eight. -/
theorem functionCodeOf_eq_none_iff {fc : Byte} :
    functionCodeOf fc = none ↔ (fc.toNat = 0 ∨ (7 ≤ fc.toNat ∧ fc.toNat ≤ 14) ∨ 17 ≤ fc.toNat) := by
  unfold functionCodeOf
  split_ifs <;> simp only [false_iff, true_iff] <;> bv_omega

/-- R98: nine illegal values below 17, and all 239 from there. -/
theorem illegalValues_length :
    ((List.range 256).filter (fun n => (functionCodeOf (BitVec.ofNat 8 n)).isNone)).length = 248 := by
  have hsplit : List.range 256 = List.range 17 ++ (List.range 239).map (17 + ·) :=
    List.range_add (n := 17) (m := 239)
  have hlow : ((List.range 17).filter (fun n => (functionCodeOf (BitVec.ofNat 8 n)).isNone)).length = 9 := by decide
  have hhigh : ∀ n ∈ (List.range 239).map (17 + ·), (functionCodeOf (BitVec.ofNat 8 n)).isNone = true := by
    simp only [List.mem_map, List.mem_range, Option.isNone_iff_eq_none, functionCodeOf_eq_none_iff, BitVec.toNat_ofNat]
    omega
  rw [hsplit, List.filter_append, List.length_append, hlow, List.filter_eq_self.mpr hhigh, List.length_map,
    List.length_range]

/-- R81: byte 0 of a request's PDU. -/
theorem head?_of_encodeRequest {cfg : Config} {r : Request} {bs : List Byte} (h : encodeRequest cfg r = .pdu bs) :
    ∃ c : FunctionCode, bs.head? = some c.value := by
  cases r with
  | readCoils a q => cases h; exact ⟨.readCoils, rfl⟩
  | readDiscreteInputs a q => cases h; exact ⟨.readDiscreteInputs, rfl⟩
  | readHoldingRegisters a q => cases h; exact ⟨.readHoldingRegisters, rfl⟩
  | readInputRegisters a q => cases h; exact ⟨.readInputRegisters, rfl⟩
  | writeSingleCoil a v => cases h; exact ⟨.writeSingleCoil, rfl⟩
  | writeSingleRegister a v => cases h; exact ⟨.writeSingleRegister, rfl⟩
  | writeMultipleCoils a vs =>
    simp only [encodeRequest] at h
    split_ifs at h
    cases h; exact ⟨.writeMultipleCoils, rfl⟩
  | writeMultipleRegisters a vs =>
    simp only [encodeRequest] at h
    split_ifs at h
    cases h; exact ⟨.writeMultipleRegisters, rfl⟩

/-- Settles O45: a code is selected by its value alone, the values between select none, and every PDU starts with a
code's value. -/
theorem eightFunctionCodesAnd248IllegalValues : Obligations.EightFunctionCodesAnd248IllegalValues :=
  ⟨rfl, fun _ _ => functionCodeOf_eq_some_iff, fun _ => functionCodeOf_eq_none_iff, illegalValues_length,
    fun _ _ _ => head?_of_encodeRequest⟩

end Sys2Proof
end

section
/-! PROOFS. UnitTurns.lean: a unit's step reads the configuration, its own registers and its own two channels alone, and
writes the last two alone (R2, R60). So its runs are single steps (R55), its turns leave the other unit alone, and the
steps of the two units commute; and when a unit waits (R64). -/

namespace Sys2Proof.Machine

/-! ## The part of the state that is a unit's own -/

/-- `s` with DEC's registers and channels replaced. -/
def decAt (s : State) (d : Dec) (di : List DecIn) (dout : List DecOut) : State :=
  { s with dec := d, decIn := di, decOut := dout }

theorem encTick_frame {s t : State} (h : encTick s = .moved t) : t = encAt s t.enc t.encIn t.encOut := by
  obtain ⟨_, _, _, ht⟩ | ⟨_, _, ht⟩ := encTick_moves_one_token h <;> rw [ht] <;> rfl

theorem decTick_frame {s t : State} (h : decTick s = .moved t) : t = decAt s t.dec t.decIn t.decOut := by
  obtain ⟨_, _, _, ht⟩ | ⟨_, _, ht⟩ := decTick_moves_one_token h <;> rw [ht] <;> rfl

/-- Settles O10: what ENC's step can do when it moves, phase by phase. -/
theorem encStepMovesExactlyOneToken : Obligations.EncStepMovesExactlyOneToken :=
  fun _ _ h => encTick_moves_one_token h

/-- Settles O11: what DEC's step can do when it moves, phase by phase. -/
theorem decStepMovesExactlyOneToken : Obligations.DecStepMovesExactlyOneToken :=
  fun _ _ h => decTick_moves_one_token h

theorem encPutStep_encAt_own {u s : State} (hcfg : u.cfg = s.cfg) (x : EncOut) (e : Enc) :
    encPutStep x e (encAt u s.enc s.encIn s.encOut) =
      mapMoved (fun t => encAt u t.enc t.encIn t.encOut) (encPutStep x e s) := by
  simp only [encPutStep, encAt_cfg, encAt_encOut, hcfg]
  split_ifs <;> rfl

/-- ENC steps alike in two states with the same configuration, registers and channels of ENC. -/
theorem encTick_encAt_own {u s : State} (hcfg : u.cfg = s.cfg) :
    encTick (encAt u s.enc s.encIn s.encOut) = mapMoved (fun t => encAt u t.enc t.encIn t.encOut) (encTick s) := by
  cases hph : s.enc.ph <;> simp only [encTick, encAt_enc, hph]
  case idle =>
    simp only [encIdle, encAt_encIn, encAt_cfg, encAt_enc, hcfg]
    split
    · rfl
    · rfl
    · split_ifs <;> rfl
  case hdr =>
    simp only [encHdr, encAt_enc]
    split
    · rfl
    · exact encPutStep_encAt_own hcfg _ _
  case fetch =>
    simp only [encFetch, encAt_encIn, encAt_enc]
    split
    · rfl
    · rfl
    · by_cases hrem : s.enc.rem = 0
      · simp only [hrem, if_true]; rfl
      by_cases h15 : s.enc.fc = 0x0F
      · simp only [hrem, h15, if_true, if_false]
        split <;> rfl
      by_cases h16 : s.enc.fc = 0x10
      · simp only [hrem, h16, if_true, if_false]; rfl
      · simp only [hrem, h15, h16, if_false]; rfl
  case drain =>
    simp only [encDrain, encAt_encIn, encAt_enc]
    split
    · rfl
    · rfl
    · rename_i x ts hin
      by_cases hrem : s.enc.rem = 0
      · simp only [hrem, if_true]; rfl
      by_cases hv : valueRefused s.enc.fc x = true
      · simp only [hrem, hv, if_true, if_false]; rfl
      · simp only [hrem, hv, if_false]; rfl
  all_goals exact encPutStep_encAt_own hcfg _ _

theorem decPutStep_decAt_own {u s : State} (hcfg : u.cfg = s.cfg) (x : DecOut) (d : Dec) :
    decPutStep x d (decAt u s.dec s.decIn s.decOut) =
      mapMoved (fun t => decAt u t.dec t.decIn t.decOut) (decPutStep x d s) := by
  simp only [decPutStep, decAt, hcfg]
  split_ifs <;> rfl

/-- DEC steps alike in two states with the same configuration, registers and channels of DEC. -/
theorem decTick_decAt_own {u s : State} (hcfg : u.cfg = s.cfg) :
    decTick (decAt u s.dec s.decIn s.decOut) = mapMoved (fun t => decAt u t.dec t.decIn t.decOut) (decTick s) := by
  cases hph : s.dec.ph <;> simp only [decTick, decAt, hph]
  case recv =>
    simp only [decRecv]
    split
    · rfl
    · rfl
    · split_ifs <;> rfl
  case result => exact decPutStep_decAt_own hcfg _ _

/-! ## The two units commute -/

/-- Settles O52: each unit's step is the same step with the other's registers and channels exchanged. -/
theorem encAndDecStepsCommute : Obligations.EncAndDecStepsCommute := by
  intro s t u ht hu
  have hts := encTick_frame ht
  have hus := decTick_frame hu
  refine ⟨decAt t u.dec u.decIn u.decOut, ?_, ?_⟩
  · have hdec := decTick_decAt_own (u := t) (s := s) (cfg_of_encTick ht)
    have hself : decAt t s.dec s.decIn s.decOut = t := by rw [hts]; rfl
    rw [hself, hu] at hdec
    exact hdec
  · have henc := encTick_encAt_own (u := u) (s := s) (cfg_of_decTick hu)
    have hself : encAt u s.enc s.encIn s.encOut = u := by rw [hus]; rfl
    have hboth : encAt u t.enc t.encIn t.encOut = decAt t u.dec u.decIn u.decOut := by rw [hts, hus]; rfl
    rw [hself, ht] at henc
    exact henc.trans (congrArg Tick.moved hboth)

/-! ## Runs are iterated steps -/

/-- A run of ENC that answers a next state has taken some number of steps to it. -/
theorem encTicks_of_encRun {fuel : Nat} {s t : State} (h : encRun fuel s = .next t) : ∃ k, encTicks k s = some t := by
  induction fuel generalizing s with
  | zero => cases h; exact ⟨0, rfl⟩
  | succ fuel ih =>
    simp only [encRun] at h
    split at h
    · rename_i u hu
      split_ifs at h
      · cases h; exact ⟨1, encTicks_succ hu 0⟩
      · obtain ⟨k, hk⟩ := ih h
        exact ⟨k + 1, (encTicks_succ hu k).trans hk⟩
    · cases h; exact ⟨0, rfl⟩
    · cases h
    · cases h

theorem decTicks_of_decRun {fuel : Nat} {s t : State} (h : decRun fuel s = .next t) : ∃ k, decTicks k s = some t := by
  induction fuel generalizing s with
  | zero => cases h; exact ⟨0, rfl⟩
  | succ fuel ih =>
    simp only [decRun] at h
    split at h
    · rename_i u hu
      split_ifs at h
      · cases h; exact ⟨1, decTicks_succ hu 0⟩
      · obtain ⟨k, hk⟩ := ih h
        exact ⟨k + 1, (decTicks_succ hu k).trans hk⟩
    · cases h; exact ⟨0, rfl⟩
    · cases h
    · cases h

theorem encTicks_succ_eq_some {k : Nat} {s t : State} (h : encTicks (k + 1) s = some t) :
    ∃ u, encTick s = .moved u ∧ encTicks k u = some t := by
  simp only [encTicks] at h
  split at h
  · exact ⟨_, ‹_›, h⟩
  · cases h

theorem decTicks_succ_eq_some {k : Nat} {s t : State} (h : decTicks (k + 1) s = some t) :
    ∃ u, decTick s = .moved u ∧ decTicks k u = some t := by
  simp only [decTicks] at h
  split at h
  · exact ⟨_, ‹_›, h⟩
  · cases h

theorem encTicks_frame {k : Nat} {s t : State} (h : encTicks k s = some t) : t = encAt s t.enc t.encIn t.encOut := by
  induction k generalizing s with
  | zero => cases h; rfl
  | succ k ih =>
    obtain ⟨u, hu, hk⟩ := encTicks_succ_eq_some h
    calc t = encAt u t.enc t.encIn t.encOut := ih hk
      _ = encAt s t.enc t.encIn t.encOut := by rw [encTick_frame hu]; rfl

theorem decTicks_frame {k : Nat} {s t : State} (h : decTicks k s = some t) : t = decAt s t.dec t.decIn t.decOut := by
  induction k generalizing s with
  | zero => cases h; rfl
  | succ k ih =>
    obtain ⟨u, hu, hk⟩ := decTicks_succ_eq_some h
    calc t = decAt u t.dec t.decIn t.decOut := ih hk
      _ = decAt s t.dec t.decIn t.decOut := by rw [decTick_frame hu]; rfl

theorem encRun_frame {fuel : Nat} {s t : State} (h : encRun fuel s = .next t) : t = encAt s t.enc t.encIn t.encOut :=
  let ⟨_, hk⟩ := encTicks_of_encRun h
  encTicks_frame hk

theorem decRun_frame {fuel : Nat} {s t : State} (h : decRun fuel s = .next t) : t = decAt s t.dec t.decIn t.decOut :=
  let ⟨_, hk⟩ := decTicks_of_decRun h
  decTicks_frame hk

theorem encRunTurn_eq_encRun (s : State) : encRunTurn s = encRun (encFuel s) s := encRunTurn_eq_encRunToEnd s

theorem decRunTurn_eq_decRun (s : State) : decRunTurn s = decRun (s.decIn.length + 1) s := decRunTurn_eq_decRunToEnd s

/-- Settles O53: a turn is some steps of its unit, each of which keeps to the unit's own part. -/
theorem aUnitsTurnLeavesTheOtherUnitAlone : Obligations.AUnitsTurnLeavesTheOtherUnitAlone := by
  intro s t ts h
  refine ⟨fun hts => ?_, fun hts => ?_⟩ <;> obtain hts | hts := hts <;> rw [step_of_turns_cons hts] at h
  · obtain h | rfl := tickOutcome_eq_next h
    · exact encTick_frame h
    · rfl
  · exact encRun_frame ((encRunTurn_eq_encRun _).symm.trans h)
  · obtain h | rfl := tickOutcome_eq_next h
    · exact decTick_frame h
    · rfl
  · exact decRun_frame ((decRunTurn_eq_decRun _).symm.trans h)

/-! ## Runs as turns of the schedule -/

theorem run_succ_of_step {s t : State} (h : step s = .next t) (k : Nat) : core.run (k + 1) s = core.run k t := by
  have hcore : core.step s = .next t := h
  simp only [Host.Core.run, hcore]

/-- A unit's step does not read the schedule. -/
theorem encTick_setTurns {s t : State} (h : encTick s = .moved t) (us : List Turn) :
    encTick (s.setTurns us) = .moved (t.setTurns us) := by
  have hown := encTick_encAt_own (u := s.setTurns us) (s := s) rfl
  rw [h] at hown
  calc encTick (s.setTurns us) = .moved (encAt (s.setTurns us) t.enc t.encIn t.encOut) := hown
    _ = .moved (t.setTurns us) := by rw [encTick_frame h]; rfl

theorem decTick_setTurns {s t : State} (h : decTick s = .moved t) (us : List Turn) :
    decTick (s.setTurns us) = .moved (t.setTurns us) := by
  have hown := decTick_decAt_own (u := s.setTurns us) (s := s) rfl
  rw [h] at hown
  calc decTick (s.setTurns us) = .moved (decAt (s.setTurns us) t.dec t.decIn t.decOut) := hown
    _ = .moved (t.setTurns us) := by rw [decTick_frame h]; rfl

theorem run_replicate_enc {k : Nat} {s t : State} (h : encTicks k s = some t) :
    core.run k (s.setTurns (List.replicate k .enc ++ s.turns)) = .next t := by
  induction k generalizing s with
  | zero => cases h; rfl
  | succ k ih =>
    obtain ⟨u, hu, hk⟩ := encTicks_succ_eq_some h
    have hturns : u.turns = s.turns := by rw [encTick_frame hu]; rfl
    have hstep : step (s.setTurns (.enc :: (List.replicate k .enc ++ s.turns))) =
        .next (u.setTurns (List.replicate k .enc ++ u.turns)) := by
      rw [step_of_turns_cons rfl, hturns]
      exact congrArg (tickOutcome · _) (encTick_setTurns hu _)
    exact (run_succ_of_step hstep k).trans (ih hk)

theorem run_replicate_dec {k : Nat} {s t : State} (h : decTicks k s = some t) :
    core.run k (s.setTurns (List.replicate k .dec ++ s.turns)) = .next t := by
  induction k generalizing s with
  | zero => cases h; rfl
  | succ k ih =>
    obtain ⟨u, hu, hk⟩ := decTicks_succ_eq_some h
    have hturns : u.turns = s.turns := by rw [decTick_frame hu]; rfl
    have hstep : step (s.setTurns (.dec :: (List.replicate k .dec ++ s.turns))) =
        .next (u.setTurns (List.replicate k .dec ++ u.turns)) := by
      rw [step_of_turns_cons rfl, hturns]
      exact congrArg (tickOutcome · _) (decTick_setTurns hu _)
    exact (run_succ_of_step hstep k).trans (ih hk)

/-- Settles O8: the run's steps, each scheduled as a turn of its own. -/
theorem encRunTurnIsItsTokenSteps : Obligations.EncRunTurnIsItsTokenSteps := by
  intro s t ts hts h
  rw [step_of_turns_cons hts] at h
  obtain ⟨k, hk⟩ := encTicks_of_encRun ((encRunTurn_eq_encRun _).symm.trans h)
  exact ⟨k, run_replicate_enc hk⟩

/-- Settles O9: the run's steps, each scheduled as a turn of its own. -/
theorem decRunTurnIsItsTokenSteps : Obligations.DecRunTurnIsItsTokenSteps := by
  intro s t ts hts h
  rw [step_of_turns_cons hts] at h
  obtain ⟨k, hk⟩ := decTicks_of_decRun ((decRunTurn_eq_decRun _).symm.trans h)
  exact ⟨k, run_replicate_dec hk⟩

/-! ## When a unit waits (R64) -/

theorem encPutStep_eq_waiting_iff {x : EncOut} {e : Enc} {s : State} :
    encPutStep x e s = .waiting ↔ hasRoom s.cfg.capEncOut s.encOut.length = false := by
  cases h : hasRoom s.cfg.capEncOut s.encOut.length <;> simp [encPutStep, h]

theorem decPutStep_eq_waiting_iff {x : DecOut} {d : Dec} {s : State} :
    decPutStep x d s = .waiting ↔ hasRoom s.cfg.capDecOut s.decOut.length = false := by
  cases h : hasRoom s.cfg.capDecOut s.decOut.length <;> simp [decPutStep, h]

theorem encIdle_eq_waiting_iff {s : State} : encIdle s = .waiting ↔ s.encIn = [] := by
  unfold encIdle
  split
  · simp [*]
  · simp [*]
  · split_ifs <;> simp [*]

theorem encFetch_eq_waiting_iff {s : State} : encFetch s = .waiting ↔ s.encIn = [] := by
  unfold encFetch
  split
  · simp [*]
  · simp [*]
  · split_ifs
    · simp [*]
    · split <;> simp [*]
    · simp [*]
    · simp [*]

theorem encDrain_eq_waiting_iff {s : State} : encDrain s = .waiting ↔ s.encIn = [] := by
  unfold encDrain
  split
  · simp [*]
  · simp [*]
  · split_ifs <;> simp [*]

theorem headerByte_eq_none_iff {e : Enc} : headerByte e = none ↔ headerLength e.fc ≤ e.idx.toNat :=
  ⟨fun h => Nat.le_of_not_lt fun hlt => headerByte_ne_none hlt h, fun h => if_pos h⟩

theorem encHdr_eq_waiting_iff {s : State} : encHdr s = .waiting ↔
    s.enc.idx.toNat < headerLength s.enc.fc ∧ hasRoom s.cfg.capEncOut s.encOut.length = false := by
  unfold encHdr
  split
  · rename_i hb
    simp [Nat.not_lt.mpr (headerByte_eq_none_iff.mp hb)]
  · rename_i byte hb
    have hidx : s.enc.idx.toNat < headerLength s.enc.fc := by
      refine Nat.lt_of_not_le fun hle => ?_
      rw [headerByte_eq_none_iff.mpr hle] at hb
      cases hb
    simp only [encPutStep_eq_waiting_iff, hidx, true_and]

theorem encTick_eq_waiting_iff {s : State} : encTick s = .waiting ↔
    (((s.enc.ph = .idle ∨ s.enc.ph = .fetch ∨ s.enc.ph = .drain) ∧ s.encIn = []) ∨
     (encOutValid s.enc = true ∧ (s.enc.ph = .hdr → s.enc.idx.toNat < headerLength s.enc.fc) ∧
       hasRoom s.cfg.capEncOut s.encOut.length = false)) := by
  cases hph : s.enc.ph <;> simp only [encTick, encOutValid, hph]
  case idle => simp [encIdle_eq_waiting_iff]
  case hdr => simp [encHdr_eq_waiting_iff]
  case fetch => simp [encFetch_eq_waiting_iff]
  case drain => simp [encDrain_eq_waiting_iff]
  case flush => simp [encFlush, encPutStep_eq_waiting_iff]
  case hi => simp [encHi, encPutStep_eq_waiting_iff]
  case lo => simp [encLo, encPutStep_eq_waiting_iff]
  case pad => simp [encPad, encPutStep_eq_waiting_iff]
  case fault => simp [encFault, encPutStep_eq_waiting_iff]

theorem decTick_eq_waiting_iff {s : State} : decTick s = .waiting ↔
    ((s.dec.ph = .recv ∧ s.decIn = []) ∨
     (s.dec.ph = .result ∧ hasRoom s.cfg.capDecOut s.decOut.length = false)) := by
  cases hph : s.dec.ph <;> simp only [decTick, hph]
  case recv =>
    unfold decRecv
    split
    · simp [*]
    · simp [*]
    · split_ifs <;> simp [*]
  case result => simp [decResult, decPutStep_eq_waiting_iff]

/-- Settles O32: in each phase the step waits for a token or for room, or does not wait. -/
theorem aWaitingUnitHolds : Obligations.AWaitingUnitHolds := by
  refine fun s ts => ⟨fun hts h => ?_, fun hts h => ?_, encTick_eq_waiting_iff, decTick_eq_waiting_iff⟩ <;>
    rw [step_of_turns_cons hts]
  · have hw : encTick (s.setTurns ts) = .waiting := by rwa [encTick_eq_waiting_iff] at h ⊢
    simp only [turnStep, hw]; rfl
  · have hw : decTick (s.setTurns ts) = .waiting := by rwa [decTick_eq_waiting_iff] at h ⊢
    simp only [turnStep, hw]; rfl

end Sys2Proof.Machine
end

section
/-! PROOFS. OwedTokens.lean: the tokens of a well-formed command or frame never stop the unit that takes them (R65, R66,
R235, R236, R239). What is on the way to a unit in mid-transaction begins with just the values, or the bytes, that the
transaction still needs; every step keeps this, and a step with its token at hand is never stuck or refused. -/

namespace Sys2Proof.Machine

/-! ## Going on: to wait, or to move to a state with a property -/

/-- The step waits, or it moves to a state with `I`. -/
def Proceeds (I : State → Prop) (x : Tick) : Prop := x = .waiting ∨ ∃ t, x = .moved t ∧ I t

theorem Proceeds.imp {I J : State → Prop} {x : Tick} (h : Proceeds I x) (hIJ : ∀ t, x = .moved t → I t → J t) :
    Proceeds J x :=
  h.imp_right fun ⟨t, ht, hI⟩ => ⟨t, ht, hIJ t ht hI⟩

theorem Proceeds.tickOutcome {I : State → Prop} {x : Tick} {s : State} (h : Proceeds I x) (hs : I s) :
    ∃ t, tickOutcome x s = .next t ∧ I t := by
  obtain rfl | ⟨t, rfl, ht⟩ := h
  · exact ⟨s, rfl, hs⟩
  · exact ⟨t, rfl, ht⟩

theorem encPutStep_proceeds {I : State → Prop} {x : EncOut} {e : Enc} {s : State}
    (h : I { s with enc := e, encOut := s.encOut ++ [x] }) : Proceeds I (encPutStep x e s) := by
  obtain ⟨-, hx⟩ | ⟨-, hx⟩ := encPutStep_cases x e s
  · exact .inr ⟨_, hx, h⟩
  · exact .inl hx

theorem decPutStep_proceeds {I : State → Prop} {x : DecOut} {d : Dec} {s : State}
    (h : I { s with dec := d, decOut := s.decOut ++ [x] }) : Proceeds I (decPutStep x d s) := by
  obtain ⟨-, hx⟩ | ⟨-, hx⟩ := decPutStep_cases x d s
  · exact .inr ⟨_, hx, h⟩
  · exact .inl hx

/-- A run of ENC goes on if its first step does, and every step from a state in mid-transaction that keeps `I`. -/
theorem encRun_proceeds {I : State → Prop} (hI : ∀ s, I s → s.enc.ph ≠ .idle → Proceeds I (encTick s)) {s : State}
    (hs : I s) (hfirst : Proceeds I (encTick s)) (fuel : Nat) : ∃ t, encRun fuel s = .next t ∧ I t := by
  induction fuel generalizing s with
  | zero => exact ⟨s, rfl, hs⟩
  | succ fuel ih =>
    obtain hw | ⟨u, hu, hIu⟩ := hfirst
    · exact ⟨s, by simp only [encRun, hw], hs⟩
    · by_cases hidle : u.enc.ph = .idle
      · exact ⟨u, by simp only [encRun, hu, hidle, if_true], hIu⟩
      · simp only [encRun, hu, hidle, if_false]
        exact ih hIu (hI u hIu hidle)

theorem decRun_proceeds {I : State → Prop} (hI : ∀ s, I s → decIdle s.dec = false → Proceeds I (decTick s)) {s : State}
    (hs : I s) (hfirst : Proceeds I (decTick s)) (fuel : Nat) : ∃ t, decRun fuel s = .next t ∧ I t := by
  induction fuel generalizing s with
  | zero => exact ⟨s, rfl, hs⟩
  | succ fuel ih =>
    obtain hw | ⟨u, hu, hIu⟩ := hfirst
    · exact ⟨s, by simp only [decRun, hw], hs⟩
    · cases hidle : decIdle u.dec
      · simp only [decRun, hu, hidle, Bool.false_eq_true, if_false]
        exact ih hIu (hI u hIu hidle)
      · exact ⟨u, by simp only [decRun, hu, hidle, if_true], hIu⟩

/-! ## The values ENC is owed -/

/-- ENC's registers fit its phase after a step, whatever is on the channels. -/
theorem encInv_encTick {s t : State} (hi : EncInv s.cfg.legacyByteCount s.enc) (h : encTick s = .moved t) :
    EncInv t.cfg.legacyByteCount t.enc := by
  obtain ⟨fc, a, g, ts, hph, -, -, rfl⟩ | ⟨v, ts, hph, -, hfc, -, rfl⟩ | ⟨v, ts, hph, -, hfc, -, rfl⟩ |
    ⟨v, ts, hph, -, -, -, rfl⟩ | ⟨-, ⟨byte, hph, -, rfl⟩ | ⟨hph, rfl⟩ | ⟨hph, rfl⟩ | ⟨hph, rfl⟩ | ⟨hph, rfl⟩ |
    ⟨hph, rfl⟩⟩ := encTick_moved_cases h
  · exact (encOk_accept rfl).1
  · exact (encOk_fetchCoil v hi hph hfc).1
  · exact (encOk_fetchRegister v hi hph hfc).1
  · exact (encOk_afterDrain hi hph).1
  · exact (encOk_afterHeader (byte := byte) hi hph).1
  · exact (encOk_flush (byte := 0) hi hph).1
  · exact (encOk_pad (byte := 0) hi hph).1
  · exact (encOk_hi (byte := 0) hi hph).1
  · exact (encOk_lo (byte := 0) hi hph).1
  · exact (encOk_afterFault hi hph).1

/-- `vs` are as many values as ENC still has to take, and coils if its command is a function 15 (R65, R95, R128). -/
def OwedValues (e : Enc) (vs : List U16) : Prop :=
  vs.length = (if e.ph = .idle then 0 else e.rem.toNat) ∧ (e.fc = 0x0F → ∀ v ∈ vs, ∃ b, v = coilArg b)

/-- The tokens `ts` on the way to ENC are the values it is owed, then `rest`. -/
def EncAwaits (e : Enc) (ts rest : List EncIn) : Prop := ∃ vs, OwedValues e vs ∧ ts = vs.map .v ++ rest

theorem owedValues_of_count {e : Enc} {vs : List U16} (hph : e.ph ≠ .idle) (hrem : vs.length = e.rem.toNat)
    (hcoil : e.fc = 0x0F → ∀ v ∈ vs, ∃ b, v = coilArg b) : OwedValues e vs :=
  ⟨by rw [if_neg hph, hrem], hcoil⟩

theorem OwedValues.length_of_busy {e : Enc} {vs : List U16} (h : OwedValues e vs) (hph : e.ph ≠ .idle) :
    vs.length = e.rem.toNat := by
  rw [h.1, if_neg hph]

theorem encAwaits_iff_of_idle {e : Enc} (hph : e.ph = .idle) {ts rest : List EncIn} : EncAwaits e ts rest ↔ ts = rest := by
  constructor
  · rintro ⟨vs, ⟨hlen, -⟩, rfl⟩
    rw [if_pos hph] at hlen
    rw [List.eq_nil_of_length_eq_zero hlen]; rfl
  · rintro rfl
    exact ⟨[], ⟨by rw [if_pos hph]; rfl, by simp⟩, rfl⟩

/-- A step that puts a token takes no value, and ends the transaction only when none is owed. -/
theorem OwedValues.of_put {e e' : Enc} {vs : List U16} (h : OwedValues e vs) (hph : e.ph ≠ .idle) (hfc : e'.fc = e.fc)
    (hrem : e'.rem = e.rem) (hend : e'.ph = .idle → e.rem = 0) : OwedValues e' vs := by
  refine ⟨?_, fun h15 => h.2 (hfc ▸ h15)⟩
  rw [h.length_of_busy hph, hrem]
  split_ifs with hidle
  · rw [hend hidle]; rfl
  · rfl

/-- A step that takes a value takes the first one owed. -/
theorem OwedValues.of_take {e e' : Enc} {v : U16} {vs : List U16} (h : OwedValues e (v :: vs)) (hph : e.ph ≠ .idle)
    (hfc : e'.fc = e.fc) (hrem : e'.rem = e.rem - 1) (hend : e'.ph = .idle → e'.rem = 0) : OwedValues e' vs := by
  have hlen : vs.length + 1 = e.rem.toNat := h.length_of_busy hph
  have hpred : e'.rem.toNat = vs.length := by rw [hrem]; bv_omega
  refine ⟨?_, fun h15 w hw => h.2 (hfc ▸ h15) w (List.mem_cons_of_mem v hw)⟩
  split_ifs with hidle
  · rw [← hpred, hend hidle]; rfl
  · exact hpred.symm

/-! ### No value is owed when the last byte of a frame goes out -/

theorem rem_eq_zero_of_frame_end {legacy : Bool} {e : Enc} (hi : EncInv legacy e)
    (hph : e.ph = .hdr ∨ e.ph = .flush ∨ e.ph = .pad ∨ e.ph = .lo) (hend : e.idx + 1 = e.len) : e.rem = 0 := by
  have hnat : (e.idx.toNat + 1) % 512 = e.len.toNat := by rw [← hend]; simp [BitVec.toNat_add]
  have zero : e.rem.toNat = 0 → e.rem = 0 := fun h => BitVec.eq_of_toNat_eq h
  obtain hph | hph | hph | hph := hph <;> simp only [EncInv, hph] at hi
  · obtain ⟨⟨-, -, -, hlen, -⟩, hrem, hidx, -⟩ | ⟨⟨-, -, -, hlen, -⟩, hrem, hidx⟩ | ⟨-, -, -, -, hrem, -⟩ := hi
    · rw [byteCount15_cases] at hlen
      exact zero (by rw [hrem]; omega)
    · rw [byteCount16] at hlen
      exact zero (by rw [hrem]; omega)
    · exact hrem
  · obtain ⟨⟨-, hfit, -, hlen, hle⟩, -, hlow, -, hrem | hfull⟩ := hi
    · exact hrem
    · rw [byteCount15_cases] at hlen hfit
      exact zero (by omega)
  · obtain ⟨-, -, -, hrem, -⟩ := hi
    exact hrem
  · obtain ⟨⟨-, hfit, -, hlen, -⟩, hlt, hidx⟩ := hi
    rw [byteCount16] at hlen hfit
    exact zero (by omega)

theorem afterEmit_eq_idle_iff {e : Enc} : afterEmit e = .idle ↔ e.idx = e.len := by
  unfold afterEmit
  split_ifs with hend <;> simp [hend]

theorem OwedValues.afterByte {e : Enc} {vs : List U16} (h : OwedValues e vs) (hph : e.ph ≠ .idle)
    (hend : e.idx + 1 = e.len → e.rem = 0) : OwedValues (afterByte e) vs :=
  h.of_put hph rfl rfl fun hidle => hend (afterEmit_eq_idle_iff.mp hidle)

theorem OwedValues.afterHeader {e : Enc} {vs : List U16} (h : OwedValues e vs) (hph : e.ph = .hdr)
    (hend : e.idx + 1 = e.len → e.rem = 0) : OwedValues (afterHeader e) vs := by
  have hbusy : e.ph ≠ .idle := by rw [hph]; decide
  by_cases hlast : (e.idx + 1).toNat = headerLength e.fc
  · rw [afterHeader_of_last hlast]
    exact h.afterByte hbusy hend
  · rw [afterHeader_of_inner hlast]
    exact h.of_put hbusy rfl rfl fun hidle => absurd hidle hbusy

theorem OwedValues.afterFault {e : Enc} {vs : List U16} (h : OwedValues e vs) (hph : e.ph ≠ .idle) :
    OwedValues (afterFault e) vs := by
  refine h.of_put hph rfl rfl fun hidle => ?_
  simpa [Machine.afterFault] using hidle

theorem OwedValues.fetchCoil {e : Enc} {v : U16} {vs : List U16} (h : OwedValues e (v :: vs)) (hph : e.ph = .fetch)
    (b : Bool) : OwedValues (fetchCoil b e) vs := by
  have hbusy : e.ph ≠ .idle := by rw [hph]; decide
  simp only [Machine.fetchCoil]
  split_ifs
  · exact h.of_take hbusy rfl rfl fun hidle => by cases hidle
  · exact h.of_take hbusy rfl rfl fun hidle => absurd hidle hbusy

theorem OwedValues.afterDrain {e : Enc} {v : U16} {vs : List U16} (h : OwedValues e (v :: vs)) (hph : e.ph ≠ .idle) :
    OwedValues (afterDrain e) vs := by
  simp only [Machine.afterDrain]
  split_ifs with hrem
  · exact h.of_take hph rfl rfl fun _ => hrem
  · exact h.of_take hph rfl rfl fun hidle => absurd hidle hph

/-! ### ENC's steps -/

/-- A value that is owed is the next token on `ENC_IN`, or `ENC_IN` is still empty. -/
theorem owed_value_next {s : State} {vs : List U16} {later rest : List EncIn} (howed : OwedValues s.enc vs)
    (hph : s.enc.ph ≠ .idle) (hrem : s.enc.rem ≠ 0) (hts : s.encIn ++ later = vs.map .v ++ rest) :
    s.encIn = [] ∨ ∃ v vs' ts, vs = v :: vs' ∧ s.encIn = .v v :: ts ∧ ts ++ later = vs'.map .v ++ rest := by
  cases vs with
  | nil => exact absurd (howed.length_of_busy hph).symm (toNat_pos hrem).ne'
  | cons v vs' =>
    obtain ⟨hin, -⟩ | ⟨ts, hin, hrest⟩ := List.append_eq_cons_iff.mp hts
    · exact .inl hin
    · exact .inr ⟨v, vs', ts, rfl, hin, hrest.symm⟩

/-- In mid-transaction, with the values it is owed on the way, ENC goes on. -/
theorem encTick_proceeds_of_busy {s : State} {later rest : List EncIn} (hi : EncInv s.cfg.legacyByteCount s.enc)
    (hbusy : s.enc.ph ≠ .idle) (h : EncAwaits s.enc (s.encIn ++ later) rest) :
    Proceeds (fun t => EncAwaits t.enc (t.encIn ++ later) rest) (encTick s) := by
  obtain ⟨vs, howed, hts⟩ := h
  cases hph : s.enc.ph
  case idle => exact absurd hph hbusy
  case hdr =>
    obtain ⟨byte, hb⟩ := Option.ne_none_iff_exists'.mp (headerByte_ne_none (idx_lt_headerLength hi hph))
    simp only [encTick, hph, encHdr, hb]
    exact encPutStep_proceeds ⟨vs, howed.afterHeader hph (rem_eq_zero_of_frame_end hi (.inl hph)), hts⟩
  case fetch =>
    obtain ⟨hrem, hfc⟩ := fetch_of_encInv hi hph
    obtain hin | ⟨v, vs', ts, rfl, hin, hts'⟩ := owed_value_next howed hbusy hrem hts
    · exact .inl (encTick_eq_waiting_iff.mpr (.inl ⟨.inr (.inl hph), hin⟩))
    · obtain hfc | hfc := hfc
      · obtain ⟨b, rfl⟩ := howed.2 hfc v List.mem_cons_self
        have hstep := encTick_fetchCoil (s := s) (v := b) (ts := ts) (eo := s.encOut) hph hfc hrem
        rw [← hin] at hstep
        exact .inr ⟨_, hstep, vs', howed.fetchCoil hph b, hts'⟩
      · have hstep := encTick_fetchRegister (s := s) (v := v) (ts := ts) (eo := s.encOut) hph hfc hrem
        rw [← hin] at hstep
        exact .inr ⟨_, hstep, vs', howed.of_take hbusy rfl rfl (fun hidle => by cases hidle), hts'⟩
  case flush =>
    have hend := rem_eq_zero_of_frame_end hi (.inr (.inl hph))
    simp only [encTick, hph]
    exact encPutStep_proceeds
      ⟨vs, howed.of_put hbusy rfl rfl (fun hidle => hend (afterEmit_eq_idle_iff.mp hidle)), hts⟩
  case hi =>
    simp only [encTick, hph]
    exact encPutStep_proceeds ⟨vs, howed.of_put hbusy rfl rfl (fun hidle => by cases hidle), hts⟩
  case lo =>
    simp only [encTick, hph]
    exact encPutStep_proceeds
      ⟨vs, howed.afterByte hbusy (rem_eq_zero_of_frame_end hi (.inr (.inr (.inr hph)))), hts⟩
  case pad =>
    simp only [encTick, hph]
    exact encPutStep_proceeds
      ⟨vs, howed.afterByte hbusy (rem_eq_zero_of_frame_end hi (.inr (.inr (.inl hph)))), hts⟩
  case fault =>
    simp only [encTick, hph]
    exact encPutStep_proceeds ⟨vs, howed.afterFault hbusy, hts⟩
  case drain =>
    have hrem := rem_ne_zero_of_drain hi hph
    obtain hin | ⟨v, vs', ts, rfl, hin, hts'⟩ := owed_value_next howed hbusy hrem hts
    · exact .inl (encTick_eq_waiting_iff.mpr (.inl ⟨.inr (.inr hph), hin⟩))
    · have hv : valueRefused s.enc.fc v = false := by
        by_cases hfc : s.enc.fc = 0x0F
        · obtain ⟨b, rfl⟩ := howed.2 hfc v List.mem_cons_self
          exact valueRefused_coilArg _ b
        · exact valueRefused_register hfc v
      have hstep := encTick_drain (s := s) (ts := ts) (eo := s.encOut) hph hrem hv
      rw [← hin] at hstep
      exact .inr ⟨_, hstep, vs', howed.afterDrain hbusy, hts'⟩

theorem acceptCoils_rem_and_busy (legacy : Bool) (e : Enc) :
    (acceptCoils legacy e).rem = e.arg ∧ (acceptCoils legacy e).ph ≠ .idle := by
  simp only [acceptCoils]
  split_ifs <;> exact ⟨rfl, fun hidle => by cases hidle⟩

theorem acceptRegisters_rem_and_busy (e : Enc) :
    (acceptRegisters e).rem = e.arg ∧ (acceptRegisters e).ph ≠ .idle ∧ (acceptRegisters e).fc = e.fc := by
  simp only [acceptRegisters]
  split_ifs <;> exact ⟨rfl, fun hidle => (by cases hidle), rfl⟩

theorem length_eq_toNat_of_countOk {n : Nat} (h : countOk n = true) : n = (BitVec.ofNat 16 n).toNat := by
  have hn : n ≤ 65535 := of_decide_eq_true h
  rw [BitVec.toNat_ofNat]; omega

/-- R65, R121: a well-formed command is a command token that is accepted, then the values owed from then on. -/
theorem command_tokens_accepted {c : Command} (hc : c.wf = true) :
    ∃ fc a g vs, c.tokens = .c fc a g :: vs.map .v ∧ commandRefused fc g = false ∧
      ∀ legacy e, OwedValues (accept legacy (latch fc a g e)) vs := by
  cases c with
  | illegal fc a g =>
    have hfc : functionCodeOf fc = none := Option.isNone_iff_eq_none.mp hc
    refine ⟨fc, a, g, [], rfl, ?_, fun legacy e => ?_⟩
    · rw [commandRefused, decide_eq_false (by rintro rfl; cases hfc)]; rfl
    · have haccept : accept legacy (latch fc a g e) = acceptIllegal (latch fc a g e) := by
        simp only [accept, latch, hfc]
      rw [haccept]
      exact owedValues_of_count (fun hidle => by cases hidle) rfl (by simp)
  | request r =>
    cases r with
    | readCoils a q => exact ⟨_, a, q, [], rfl, rfl, fun _ _ => ⟨rfl, by simp⟩⟩
    | readDiscreteInputs a q => exact ⟨_, a, q, [], rfl, rfl, fun _ _ => ⟨rfl, by simp⟩⟩
    | readHoldingRegisters a q => exact ⟨_, a, q, [], rfl, rfl, fun _ _ => ⟨rfl, by simp⟩⟩
    | readInputRegisters a q => exact ⟨_, a, q, [], rfl, rfl, fun _ _ => ⟨rfl, by simp⟩⟩
    | writeSingleCoil a v => exact ⟨_, a, coilArg v, [], rfl, by cases v <;> rfl, fun _ _ => ⟨rfl, by simp⟩⟩
    | writeSingleRegister a v => exact ⟨_, a, v, [], rfl, rfl, fun _ _ => ⟨rfl, by simp⟩⟩
    | writeMultipleCoils a bs =>
      refine ⟨_, a, _, bs.map coilArg, by rw [List.map_map]; rfl, rfl, fun legacy e => ?_⟩
      obtain ⟨hrem, hph⟩ := acceptCoils_rem_and_busy legacy (latch 0x0F a (BitVec.ofNat 16 bs.length) e)
      refine owedValues_of_count hph ?_ fun _ v hv => ?_
      · exact (List.length_map _).trans ((length_eq_toNat_of_countOk hc).trans (congrArg BitVec.toNat hrem.symm))
      · obtain ⟨b, -, rfl⟩ := List.mem_map.mp hv
        exact ⟨b, rfl⟩
    | writeMultipleRegisters a vs =>
      refine ⟨_, a, _, vs, rfl, rfl, fun legacy e => ?_⟩
      obtain ⟨hrem, hph, hfc⟩ := acceptRegisters_rem_and_busy (latch 0x10 a (BitVec.ofNat 16 vs.length) e)
      refine owedValues_of_count hph ?_ fun h15 => ?_
      · exact (length_eq_toNat_of_countOk hc).trans (congrArg BitVec.toNat hrem.symm)
      · cases hfc.symm.trans h15

/-- Between transactions, with a well-formed command on the way, ENC goes on, and is then owed that command's values. -/
theorem encTick_proceeds_of_command {s : State} {later rest : List EncIn} {c : Command} (hc : c.wf = true)
    (hph : s.enc.ph = .idle) (h : s.encIn ++ later = c.tokens ++ rest) :
    Proceeds (fun t => EncAwaits t.enc (t.encIn ++ later) rest) (encTick s) := by
  obtain ⟨fc, a, g, vs, htok, haccepted, howed⟩ := command_tokens_accepted hc
  rw [htok] at h
  obtain ⟨hin, -⟩ | ⟨ts, hin, hrest⟩ := List.append_eq_cons_iff.mp h
  · exact .inl (encTick_eq_waiting_iff.mpr (.inl ⟨.inl hph, hin⟩))
  · have hstep := encTick_accept (s := s) (a := a) (ts := ts) (eo := s.encOut) hph haccepted
    rw [← hin] at hstep
    exact .inr ⟨_, hstep, vs, howed _ _, hrest.symm⟩

/-! ## The bytes DEC is owed -/

/-- The tokens `ts` on the way to DEC are the rest of the frame it has begun, then `rest`. -/
def DecAwaits (d : Dec) (ts rest : List DecIn) : Prop :=
  ∃ bs : List Byte, (bs = [] ↔ d.ph = .result ∨ d.cnt = 0) ∧ ts = byteTokens bs ++ rest

theorem decIdle_iff {d : Dec} : decIdle d = true ↔ d.ph = .recv ∧ d.cnt = 0 := by
  simp [decIdle]

theorem decAwaits_iff_of_idle {d : Dec} (hd : decIdle d = true) {ts rest : List DecIn} :
    DecAwaits d ts rest ↔ ts = rest := by
  have hcnt := (decIdle_iff.mp hd).2
  constructor
  · rintro ⟨bs, hbs, rfl⟩
    rw [hbs.mpr (.inr hcnt)]; rfl
  · rintro rfl
    exact ⟨[], ⟨fun _ => .inr hcnt, fun _ => rfl⟩, rfl⟩

theorem byteTokens_cons_isEmpty (x : Byte) (bs : List Byte) :
    byteTokens (x :: bs) = .b x bs.isEmpty :: byteTokens bs := by
  cases bs <;> rfl

theorem receiveByte_ph (byte : Byte) (last : Bool) (d : Dec) :
    (receiveByte byte last d).ph = if last then .result else d.ph := by
  unfold receiveByte
  cases last <;> (split_ifs <;> rfl)

theorem receiveByte_cnt_ne_zero (byte : Byte) (last : Bool) (d : Dec) : (receiveByte byte last d).cnt ≠ 0 := by
  rw [receiveByte_cnt]
  split_ifs with h0
  · decide
  · decide
  · exact h0

/-- While it receives, with a byte of a frame on the way, DEC goes on, and is then owed the rest of the frame. -/
theorem decTick_proceeds_of_byte {s : State} {later rest : List DecIn} {x : Byte} {bs : List Byte}
    (hph : s.dec.ph = .recv) (h : s.decIn ++ later = byteTokens (x :: bs) ++ rest) :
    Proceeds (fun t => DecAwaits t.dec (t.decIn ++ later) rest) (decTick s) := by
  rw [byteTokens_cons_isEmpty] at h
  obtain ⟨hin, -⟩ | ⟨ts, hin, hrest⟩ := List.append_eq_cons_iff.mp h
  · exact .inl (decTick_eq_waiting_iff.mpr (.inl ⟨hph, hin⟩))
  · refine .inr ⟨_, decTick_byte hph hin, bs, ?_, hrest.symm⟩
    simp only [receiveByte_ph, receiveByte_cnt_ne_zero, hph, or_false]
    cases bs <;> simp

/-- Inside a transaction, with the rest of its frame on the way, DEC goes on. -/
theorem decTick_proceeds_of_busy {s : State} {later rest : List DecIn} (hbusy : decIdle s.dec = false)
    (h : DecAwaits s.dec (s.decIn ++ later) rest) :
    Proceeds (fun t => DecAwaits t.dec (t.decIn ++ later) rest) (decTick s) := by
  obtain ⟨bs, hbs, hts⟩ := h
  cases hph : s.dec.ph with
  | recv =>
    cases bs with
    | nil =>
      obtain hres | hcnt := hbs.mp rfl
      · rw [hph] at hres; cases hres
      · rw [decIdle_iff.mpr ⟨hph, hcnt⟩] at hbusy; cases hbusy
    | cons x bs => exact decTick_proceeds_of_byte hph hts
  | result =>
    rw [hbs.mpr (.inl hph)] at hts
    simp only [decTick, hph]
    exact decPutStep_proceeds ((decAwaits_iff_of_idle rfl).mpr hts)

/-- Between transactions, with a frame on the way, DEC goes on. -/
theorem decTick_proceeds_of_frame {s : State} {later rest : List DecIn} {bs : List Byte} (hidle : decIdle s.dec = true)
    (h : s.decIn ++ later = frameTokens bs ++ rest) :
    Proceeds (fun t => DecAwaits t.dec (t.decIn ++ later) rest) (decTick s) := by
  obtain ⟨hph, hcnt⟩ := decIdle_iff.mp hidle
  cases bs with
  | nil =>
    obtain ⟨hin, -⟩ | ⟨ts, hin, hrest⟩ := List.append_eq_cons_iff.mp h
    · exact .inl (decTick_eq_waiting_iff.mpr (.inl ⟨hph, hin⟩))
    · exact .inr ⟨_, decTick_empty hph hcnt hin, [], ⟨fun _ => .inl rfl, fun _ => rfl⟩, hrest.symm⟩
  | cons x bs => exact decTick_proceeds_of_byte hph h

end Sys2Proof.Machine
end

section
/-! PROOFS. Instructions.lean: an instruction is its unit's run of its own tokens: left waiting by a busy unit (R59), and
never stopped (R215). -/

namespace Sys2Proof.Machine

/-- An instruction is a request, or a response run as the tokens of its frame. -/
theorem exec_cases (i : Instr) :
    (∃ r : Request, i = r.toInstr) ∨
    (∃ bs : List Byte, i.codecUnit = .dec ∧ encode i = .dec (frameTokens bs) ∧
      ∀ s, exec i s = runFrame (frameTokens bs) s) := by
  cases i with
  | readCoils a q => exact .inl ⟨.readCoils a q, rfl⟩
  | readDiscreteInputs a q => exact .inl ⟨.readDiscreteInputs a q, rfl⟩
  | readHoldingRegisters a q => exact .inl ⟨.readHoldingRegisters a q, rfl⟩
  | readInputRegisters a q => exact .inl ⟨.readInputRegisters a q, rfl⟩
  | writeSingleCoil a v => exact .inl ⟨.writeSingleCoil a v, rfl⟩
  | writeSingleRegister a v => exact .inl ⟨.writeSingleRegister a v, rfl⟩
  | writeMultipleCoils a vs => exact .inl ⟨.writeMultipleCoils a vs, rfl⟩
  | writeMultipleRegisters a vs => exact .inl ⟨.writeMultipleRegisters a vs, rfl⟩
  | decodeResponseExc fc code extra => exact .inr ⟨_, rfl, rfl, fun _ => rfl⟩
  | decodeResponseNrm fc payload => exact .inr ⟨_, rfl, rfl, fun _ => rfl⟩

theorem encode_toInstr (r : Request) : encode r.toInstr = .enc r.tokens := by
  cases r <;> rfl

theorem codecUnit_toInstr (r : Request) : r.toInstr.codecUnit = .enc := by
  cases r <;> rfl

theorem runCommand_of_busy {ts : List EncIn} {s : State} (h : s.enc.ph ≠ .idle) :
    runCommand ts s = .next (s.setEncIn (ts ++ s.encIn)) := by
  unfold runCommand
  split
  · exact absurd ‹_› h
  · rfl

theorem runFrame_of_busy {ts : List DecIn} {s : State} (h : decIdle s.dec = false) :
    runFrame ts s = .next (s.setDecIn (ts ++ s.decIn)) := by
  simp only [runFrame, h, Bool.false_eq_true, if_false]

/-- Settles O27: a busy unit takes no new transaction. -/
theorem aBusyUnitLeavesTheInstructionWaiting : Obligations.ABusyUnitLeavesTheInstructionWaiting := by
  intro s i
  obtain ⟨r, rfl⟩ | ⟨bs, -, henc, hexec⟩ := exec_cases i
  · rw [encode_toInstr]
    refine ⟨fun ts hts hbusy => ?_, fun ts hts => by cases hts⟩
    cases hts
    exact (exec_toInstr r s).trans (runCommand_of_busy hbusy)
  · rw [henc]
    refine ⟨fun ts hts => (by cases hts), fun ts hts hbusy => ?_⟩
    cases hts
    exact (hexec s).trans (runFrame_of_busy hbusy)

/-- ENC runs on until `rest` is next: in mid-transaction it awaits the values it is owed, then `rest`. -/
def EncRunsOnTo (rest : List EncIn) (s : State) : Prop :=
  EncInv s.cfg.legacyByteCount s.enc ∧ (s.enc.ph ≠ .idle → EncAwaits s.enc (s.encIn ++ []) rest)

theorem encRunsOnTo_of_idle {s : State} (hph : s.enc.ph = .idle) (rest : List EncIn) : EncRunsOnTo rest s :=
  ⟨by simp only [EncInv, hph], fun hbusy => absurd hph hbusy⟩

theorem encRunsOnTo_of_awaits {s : State} {rest : List EncIn} (hi : EncInv s.cfg.legacyByteCount s.enc)
    (h : Proceeds (fun t => EncAwaits t.enc (t.encIn ++ []) rest) (encTick s)) :
    Proceeds (EncRunsOnTo rest) (encTick s) :=
  h.imp fun _ ht hawaits => ⟨encInv_encTick hi ht, fun _ => hawaits⟩

/-- A well-formed request goes on from every state, and touches ENC's part alone. -/
theorem runCommand_eq_next {r : Request} (hr : r.wf = true) (s : State) :
    ∃ t, runCommand r.tokens s = .next t ∧ t = encAt s t.enc t.encIn t.encOut := by
  by_cases hph : s.enc.ph = .idle
  · have hstart : EncRunsOnTo s.encIn (s.setEncIn (r.tokens ++ s.encIn)) :=
      encRunsOnTo_of_idle (s := s.setEncIn (r.tokens ++ s.encIn)) hph _
    have hfirst : Proceeds (EncRunsOnTo s.encIn) (encTick (s.setEncIn (r.tokens ++ s.encIn))) :=
      encRunsOnTo_of_awaits hstart.1 (encTick_proceeds_of_command (c := .request r) hr hph (List.append_nil _))
    have hstep : ∀ u, EncRunsOnTo s.encIn u → u.enc.ph ≠ .idle → Proceeds (EncRunsOnTo s.encIn) (encTick u) :=
      fun u hu hbusy => encRunsOnTo_of_awaits hu.1 (encTick_proceeds_of_busy hu.1 hbusy (hu.2 hbusy))
    obtain ⟨t, ht, -⟩ := encRun_proceeds hstep hstart hfirst (encFuel (s.setEncIn (r.tokens ++ s.encIn)))
    exact ⟨t, (runCommand_of_idle hph).trans ht, encRun_frame (s := s.setEncIn (r.tokens ++ s.encIn)) ht⟩
  · exact ⟨_, runCommand_of_busy hph, rfl⟩

/-- DEC runs on until `rest` is next: in mid-transaction it awaits the rest of its frame, then `rest`. -/
def DecRunsOnTo (rest : List DecIn) (s : State) : Prop :=
  decIdle s.dec = false → DecAwaits s.dec (s.decIn ++ []) rest

/-- A frame goes on from every state, and touches DEC's part alone. -/
theorem runFrame_eq_next (bs : List Byte) (s : State) :
    ∃ t, runFrame (frameTokens bs) s = .next t ∧ t = decAt s t.dec t.decIn t.decOut := by
  cases hidle : decIdle s.dec with
  | true =>
    have hstart : DecRunsOnTo s.decIn (s.setDecIn (frameTokens bs ++ s.decIn)) := fun hbusy => by
      rw [State.setDecIn_dec, hidle] at hbusy; cases hbusy
    have hfirst : Proceeds (DecRunsOnTo s.decIn) (decTick (s.setDecIn (frameTokens bs ++ s.decIn))) :=
      (decTick_proceeds_of_frame (s := s.setDecIn (frameTokens bs ++ s.decIn)) hidle (List.append_nil _)).imp
        fun _ _ hawaits _ => hawaits
    have hstep : ∀ u, DecRunsOnTo s.decIn u → decIdle u.dec = false → Proceeds (DecRunsOnTo s.decIn) (decTick u) :=
      fun u hu hbusy => (decTick_proceeds_of_busy hbusy (hu hbusy)).imp fun _ _ hawaits _ => hawaits
    obtain ⟨t, ht, -⟩ := decRun_proceeds hstep hstart hfirst ((frameTokens bs ++ s.decIn).length + 1)
    exact ⟨t, (runFrame_of_idle hidle).trans ht, decRun_frame (s := s.setDecIn (frameTokens bs ++ s.decIn)) ht⟩
  | false => exact ⟨_, runFrame_of_busy hidle, rfl⟩

/-- Settles O28: a request by the values it is owed, a response by the bytes of its frame. -/
theorem everyInstructionAnswersANextStateOfItsOwnUnit :
    Obligations.EveryInstructionAnswersANextStateOfItsOwnUnit := by
  intro s i hi
  obtain ⟨r, rfl⟩ | ⟨bs, hunit, -, hexec⟩ := exec_cases i
  · obtain ⟨t, ht, hframe⟩ := runCommand_eq_next (r := r) hi s
    exact ⟨t, (exec_toInstr r s).trans ht, fun _ => hframe, fun h => (by rw [codecUnit_toInstr] at h; cases h)⟩
  · obtain ⟨t, ht, hframe⟩ := runFrame_eq_next bs s
    exact ⟨t, (hexec s).trans ht, fun h => (by rw [hunit] at h; cases h), fun _ => hframe⟩

end Sys2Proof.Machine
end

section
/-! PROOFS. ProtocolRuns.lean: a host that keeps the token protocol (R65, R66) never stops the machine: the tokens still
to come stay on protocol in every step of a run without reset. -/

namespace Sys2Proof.Machine

/-- What a host that keeps the protocol keeps true: of the tokens on the way to each unit, those that the unit's
transaction still needs come first, and well-formed commands or frames follow; the schedule holds no reset. -/
structure OnProtocol (s : State) : Prop where
  inv : EncInv s.cfg.legacyByteCount s.enc
  enc : ∃ cmds : List Command, (∀ c ∈ cmds, c.wf = true) ∧
    EncAwaits s.enc (s.encIn ++ s.host.encProg) (cmds.flatMap Command.tokens)
  dec : ∃ frames : List (List Byte), DecAwaits s.dec (s.decIn ++ s.host.decProg) (frames.flatMap frameTokens)
  turns : ∀ x ∈ s.turns, sameRun x = true ∧ x ≠ .reset

namespace OnProtocol

variable {s : State}

theorem encTick (hs : OnProtocol s) : Proceeds OnProtocol (encTick s) := by
  obtain ⟨cmds, hwf, hawaits⟩ := hs.enc
  have keep : ∀ {cs : List Command}, (∀ c ∈ cs, c.wf = true) →
      Proceeds (fun t => EncAwaits t.enc (t.encIn ++ s.host.encProg) (cs.flatMap Command.tokens)) (Machine.encTick s) →
      Proceeds OnProtocol (Machine.encTick s) := fun hcs h => h.imp fun t ht hawaits' => by
    have hinv := encInv_encTick hs.inv ht
    rw [encTick_frame ht] at hinv hawaits' ⊢
    exact ⟨hinv, ⟨_, hcs, hawaits'⟩, hs.dec, hs.turns⟩
  by_cases hph : s.enc.ph = .idle
  · have hstream := (encAwaits_iff_of_idle hph).mp hawaits
    cases cmds with
    | nil =>
      exact .inl (encTick_eq_waiting_iff.mpr (.inl ⟨.inl hph, (List.append_eq_nil_iff.mp hstream).1⟩))
    | cons c cmds =>
      obtain ⟨hc, hcmds⟩ := List.forall_mem_cons.mp hwf
      exact keep hcmds (encTick_proceeds_of_command hc hph hstream)
  · exact keep hwf (encTick_proceeds_of_busy hs.inv hph hawaits)

theorem decTick (hs : OnProtocol s) : Proceeds OnProtocol (decTick s) := by
  obtain ⟨frames, hawaits⟩ := hs.dec
  have keep : ∀ {fs : List (List Byte)},
      Proceeds (fun t => DecAwaits t.dec (t.decIn ++ s.host.decProg) (fs.flatMap frameTokens)) (Machine.decTick s) →
      Proceeds OnProtocol (Machine.decTick s) := fun h => h.imp fun t ht hawaits' => by
    rw [decTick_frame ht] at hawaits' ⊢
    exact ⟨hs.inv, hs.enc, ⟨_, hawaits'⟩, hs.turns⟩
  cases hidle : decIdle s.dec with
  | true =>
    have hstream := (decAwaits_iff_of_idle hidle).mp hawaits
    cases frames with
    | nil =>
      exact .inl (decTick_eq_waiting_iff.mpr
        (.inl ⟨(decIdle_iff.mp hidle).1, (List.append_eq_nil_iff.mp hstream).1⟩))
    | cons bs frames => exact keep (decTick_proceeds_of_frame hidle hstream)
  | false => exact keep (decTick_proceeds_of_busy hidle hawaits)

theorem sameTokens {t : State} (hs : OnProtocol s) (h : SameTokens s t) : OnProtocol t := by
  obtain ⟨ht, henc, hdec, -⟩ := h
  rw [ht]
  exact ⟨hs.inv, henc ▸ hs.enc, hdec ▸ hs.dec, hs.turns⟩

theorem setTurns (hs : OnProtocol s) {ts : List Turn} (hts : ∀ x ∈ ts, sameRun x = true ∧ x ≠ .reset) :
    OnProtocol (s.setTurns ts) :=
  ⟨hs.inv, hs.enc, hs.dec, hts⟩

theorem unitsAlone (hs : OnProtocol s) : ∃ t, unitsAlone s = .next t ∧ OnProtocol t := by
  obtain hw | ⟨t, ht, hkept⟩ := hs.encTick
  · simp only [Machine.unitsAlone, hw]
    exact hs.decTick.tickOutcome hs
  · exact ⟨t, by simp only [Machine.unitsAlone, ht], hkept⟩

theorem turnStep (hs : OnProtocol s) {x : Turn} (hx : sameRun x = true ∧ x ≠ .reset) :
    ∃ t, turnStep x s = .next t ∧ OnProtocol t := by
  have host : ∀ {x : Turn}, (x = .putEnc ∨ x = .putDec ∨ x = .takeEnc ∨ x = .takeDec) →
      ∃ t, Machine.turnStep x s = .next t ∧ OnProtocol t := fun hx =>
    (turnStep_host_sameTokens hx s).imp fun _ ⟨ht, hsame⟩ => ⟨ht, hs.sameTokens hsame⟩
  cases x with
  | enc => exact hs.encTick.tickOutcome hs
  | dec => exact hs.decTick.tickOutcome hs
  | encRun =>
    rw [Machine.turnStep, encRunTurn_eq_encRun]
    exact encRun_proceeds (fun _ hu _ => hu.encTick) hs hs.encTick _
  | decRun =>
    rw [Machine.turnStep, decRunTurn_eq_decRun]
    exact decRun_proceeds (fun _ hu _ => hu.decTick) hs hs.decTick _
  | putEnc => exact host (.inl rfl)
  | putDec => exact host (.inr (.inl rfl))
  | takeEnc => exact host (.inr (.inr (.inl rfl)))
  | takeDec => exact host (.inr (.inr (.inr rfl)))
  | reset => exact absurd rfl hx.2
  | restart ep dp => cases hx.1

theorem step (hs : OnProtocol s) : ∃ t, step s = .next t ∧ OnProtocol t := by
  cases hts : s.turns with
  | nil => simpa only [Machine.step, hts] using hs.unitsAlone
  | cons x ts =>
    have hall : ∀ y ∈ x :: ts, sameRun y = true ∧ y ≠ .reset := hts ▸ hs.turns
    obtain ⟨hx, hrest⟩ := List.forall_mem_cons.mp hall
    rw [step_of_turns_cons hts]
    exact (hs.setTurns hrest).turnStep hx

theorem run (hs : OnProtocol s) (k : Nat) : ∃ t, core.run k s = .next t ∧ OnProtocol t := by
  induction k generalizing s with
  | zero => exact ⟨s, rfl, hs⟩
  | succ k ih =>
    obtain ⟨u, hu, hkept⟩ := hs.step
    rw [run_succ_of_step hu]
    exact ih hkept

end OnProtocol

theorem onProtocol_of_launch {s : State} {cmds : List Command} {frames : List (List Byte)} (hs : Launch s)
    (hwf : ∀ c ∈ cmds, c.wf = true) (henc : s.host.encProg = cmds.flatMap Command.tokens)
    (hdec : s.host.decProg = frames.flatMap frameTokens) (hturns : ∀ x ∈ s.turns, sameRun x = true ∧ x ≠ .reset) :
    OnProtocol s := by
  obtain ⟨hph, hidle, hencIn, -, hdecIn, -⟩ := hs
  exact ⟨by simp only [EncInv, hph], ⟨cmds, hwf, (encAwaits_iff_of_idle hph).mpr (by rw [hencIn, henc]; rfl)⟩,
    ⟨frames, (decAwaits_iff_of_idle hidle).mpr (by rw [hdecIn, hdec]; rfl)⟩, hturns⟩

/-- Settles O56: the launch state is on protocol, and every step answers a next state that is. -/
theorem aWellFormedProgramNeverStops : Obligations.AWellFormedProgramNeverStops := by
  intro s k cmds frames hs hwf henc hdec hturns
  obtain ⟨t, ht, -⟩ := (onProtocol_of_launch hs hwf henc hdec hturns).run k
  exact ⟨t, ht⟩

end Sys2Proof.Machine
end

section
/-! PROOFS. TokenRoundTrip.lean: decoding the tokens of a well-formed instruction gives it back (R94 to R96, R66), so a run
turn with those tokens at the head of its unit's channel is that instruction (R62, R103). -/

namespace Sys2Proof

/-! ## The value tokens of a command, and the bytes of a frame -/

theorem coilOfArg_coilArg (v : Bool) : coilOfArg (coilArg v) = some v := by
  cases v <;> rfl

theorem takeCoils_append (vs : List Bool) (rest : List EncIn) :
    takeCoils vs.length (vs.map (fun v => .v (coilArg v)) ++ rest) = .ok (vs, rest) := by
  induction vs with
  | nil => rfl
  | cons v vs ih => simp only [List.length_cons, List.map_cons, List.cons_append, takeCoils, coilOfArg_coilArg, ih]; rfl

theorem takeRegisters_append (vs : List U16) (rest : List EncIn) :
    takeRegisters vs.length (vs.map .v ++ rest) = .ok (vs, rest) := by
  induction vs with
  | nil => rfl
  | cons v vs ih => simp only [List.length_cons, List.map_cons, List.cons_append, takeRegisters, ih]; rfl

theorem takeFrame_byteTokens_append (x : Byte) (bs : List Byte) (rest : List DecIn) :
    takeFrame (byteTokens (x :: bs) ++ rest) = .ok (x :: bs, rest) := by
  induction bs generalizing x with
  | nil => rfl
  | cons y bs ih => simp only [byteTokens, List.cons_append, takeFrame, ih]; rfl

/-! ## Commands and frames -/

theorem toNat_ofNat_of_countOk {n : Nat} (h : countOk n = true) : (BitVec.ofNat 16 n).toNat = n :=
  (Machine.length_eq_toNat_of_countOk h).symm

/-- The tokens of a well-formed request decode to it, whatever follows. -/
theorem decodeCommand_tokens_append {r : Request} (hr : r.wf = true) (rest : List EncIn) :
    decodeCommand (r.tokens ++ rest) = .ok (r.toInstr, rest) := by
  cases r with
  | readCoils a q => rfl
  | readDiscreteInputs a q => rfl
  | readHoldingRegisters a q => rfl
  | readInputRegisters a q => rfl
  | writeSingleCoil a v => cases v <;> rfl
  | writeSingleRegister a v => rfl
  | writeMultipleCoils a vs =>
    simp only [Request.tokens, List.cons_append, decodeCommand, functionCodeOf_value, toNat_ofNat_of_countOk hr,
      takeCoils_append]
    rfl
  | writeMultipleRegisters a vs =>
    simp only [Request.tokens, List.cons_append, decodeCommand, functionCodeOf_value, toNat_ofNat_of_countOk hr,
      takeRegisters_append]
    rfl

/-- The tokens of a frame decode to the instruction that its bytes are. -/
theorem decodeResponseTokens_frameTokens_append {bs : List Byte} {i : Instr} (h : decodeFrame bs = .ok i)
    (rest : List DecIn) : decodeResponseTokens (frameTokens bs ++ rest) = .ok (i, rest) := by
  cases bs with
  | nil => cases h
  | cons x bs =>
    have htake := takeFrame_byteTokens_append x bs rest
    rw [Machine.byteTokens_cons_isEmpty, List.cons_append] at htake
    simp only [frameTokens, Machine.byteTokens_cons_isEmpty, List.cons_append, decodeResponseTokens, htake, h]
    rfl

/-- R85, R86: a well-formed instruction is a well-formed request, or a response, whose encodings are the bytes and the
tokens of one frame that decodes to it. -/
theorem wellFormed_cases {i : Instr} (hi : WellFormed i = true) :
    (∃ r : Request, r.wf = true ∧ i = r.toInstr) ∨
    (∃ bs : List Byte, decodeFrame bs = .ok i ∧ encode i = .dec (frameTokens bs) ∧ ∀ legacy, i.bytes legacy = some bs) := by
  cases i with
  | readCoils a q => exact .inl ⟨.readCoils a q, hi, rfl⟩
  | readDiscreteInputs a q => exact .inl ⟨.readDiscreteInputs a q, hi, rfl⟩
  | readHoldingRegisters a q => exact .inl ⟨.readHoldingRegisters a q, hi, rfl⟩
  | readInputRegisters a q => exact .inl ⟨.readInputRegisters a q, hi, rfl⟩
  | writeSingleCoil a v => exact .inl ⟨.writeSingleCoil a v, hi, rfl⟩
  | writeSingleRegister a v => exact .inl ⟨.writeSingleRegister a v, hi, rfl⟩
  | writeMultipleCoils a vs => exact .inl ⟨.writeMultipleCoils a vs, hi, rfl⟩
  | writeMultipleRegisters a vs => exact .inl ⟨.writeMultipleRegisters a vs, hi, rfl⟩
  | decodeResponseExc fc code extra =>
    obtain ⟨hbit, hclear⟩ := Laws.Framing.excByte fc
    exact .inr ⟨_, by simp only [decodeFrame, hbit, hclear, if_true], rfl, fun _ => rfl⟩
  | decodeResponseNrm fc payload =>
    obtain ⟨hfc, hpayload⟩ := Bool.and_eq_true_iff.mp hi
    cases payload with
    | nil => cases hpayload
    | cons b1 rest =>
      have hbit : exceptionBit fc = false := (Bool.not_eq_true' _).mp hfc
      exact .inr ⟨_, by simp only [decodeFrame, hbit, Bool.false_eq_true, if_false], rfl, fun _ => rfl⟩

/-- Settles O42: a request by its command token and its values, a response by the bytes of its frame. -/
theorem decodeOfEncodedTokensIsTheInstruction : Obligations.DecodeOfEncodedTokensIsTheInstruction := by
  intro i hi
  obtain ⟨r, hr, rfl⟩ | ⟨bs, hframe, henc, -⟩ := wellFormed_cases hi
  · rw [Machine.encode_toInstr]
    refine ⟨fun ts rest hts => ?_, fun ts rest hts => by cases hts⟩
    cases hts
    simp only [decode, decodeCommand_tokens_append hr]
    rfl
  · rw [henc]
    refine ⟨fun ts rest hts => (by cases hts), fun ts rest hts => ?_⟩
    cases hts
    simp only [decode, decodeResponseTokens_frameTokens_append hframe]
    rfl

end Sys2Proof

namespace Sys2Proof.Machine

/-! ## The run turns -/

theorem fetchEnc_of_tokens {s : State} {r : Request} {rest : List EncIn} (hr : r.wf = true) (hph : s.enc.ph = .idle)
    (hin : s.encIn = r.tokens ++ rest) : fetchEnc s = some (r.toInstr, s.setEncIn rest) := by
  simp only [fetchEnc, hph, hin, decodeCommand_tokens_append hr]

theorem fetchDec_of_frame {s : State} {bs : List Byte} {i : Instr} {rest : List DecIn} (hframe : decodeFrame bs = .ok i)
    (hidle : decIdle s.dec = true) (hin : s.decIn = frameTokens bs ++ rest) :
    fetchDec s = some (i, s.setDecIn rest) := by
  simp only [fetchDec, hidle, if_true, hin, decodeResponseTokens_frameTokens_append hframe]

/-- Settles O5: what ENC fetches is the request, by the round trip of its tokens. -/
theorem encRunTurnExecutesTheFetchedCommand : Obligations.EncRunTurnExecutesTheFetchedCommand := by
  intro s r rest ts hr hts hph hin
  have hfetch := fetchEnc_of_tokens (s := s.setTurns ts) hr hph hin
  rw [step_of_turns_cons hts]
  simp only [turnStep, encRunTurn, hfetch]
  rfl

/-- Settles O6: what DEC fetches is the response, by the round trip of its frame's tokens. -/
theorem decRunTurnExecutesTheFetchedFrame : Obligations.DecRunTurnExecutesTheFetchedFrame := by
  intro s i toks rest ts hi henc hts hidle hin
  obtain ⟨r, -, rfl⟩ | ⟨bs, hframe, hbs, -⟩ := wellFormed_cases hi
  · rw [encode_toInstr] at henc; cases henc
  · cases hbs.symm.trans henc
    have hfetch := fetchDec_of_frame (s := s.setTurns ts) hframe hidle hin
    rw [step_of_turns_cons hts]
    simp only [turnStep, decRunTurn, hfetch]
    rfl

/-- A presented request is run by the next step, on the state as it was with ENC between transactions. -/
theorem step_presentInstr_toInstr (r : Request) (s : State) :
    step (presentInstr r.toInstr s) = exec r.toInstr { s with enc := { s.enc with ph := .idle } } := by
  rw [presentInstr, encode_toInstr, exec_toInstr, runCommand_of_idle rfl]
  exact encRunTurn_eq_encRunToEnd _

/-- A presented frame is run by the next step, on the state as it was with DEC between frames. -/
theorem step_presentInstr_frame {i : Instr} {bs : List Byte} (henc : encode i = .dec (frameTokens bs))
    (hexec : ∀ s, exec i s = runFrame (frameTokens bs) s) (s : State) :
    step (presentInstr i s) = exec i { s with dec := { s.dec with ph := .recv, cnt := 0 } } := by
  rw [presentInstr, henc, hexec, runFrame_of_idle rfl]
  exact decRunTurn_eq_decRunToEnd _

/-- Settles O7: the placed instruction's tokens stand at the head of its unit's channel, and the unit's run is next. -/
theorem aFetchWordRunsItsInstruction : Obligations.AFetchWordRunsItsInstruction := by
  intro s nbits w i hi
  have hplaced : s.withFetchWord nbits w = presentInstr i s := by simp only [State.withFetchWord, hi]
  rw [hplaced]
  obtain ⟨r, rfl⟩ | ⟨bs, hunit, henc, hexec⟩ := exec_cases i
  · exact ⟨fun _ => step_presentInstr_toInstr r s, fun h => (by rw [codecUnit_toInstr] at h; cases h)⟩
  · exact ⟨fun h => (by rw [hunit] at h; cases h), fun _ => step_presentInstr_frame henc hexec s⟩

end Sys2Proof.Machine
end

section
/-! PROOFS. PduRoundTrip.lean: the packed field of function 15 (R89, R90), the PDUs and frames read back from their bytes
(R82 to R86, R93), and their lengths (R26, R86). -/

namespace Sys2Proof

/-! ## The packed field -/

/-- Settles O38: bit by bit. -/
theorem packThenUnpackIsIdentity : Obligations.PackThenUnpackIsIdentity := by
  refine fun vs => ⟨?_, pack_length vs, fun j k hk => pack_getLsbD vs j k hk⟩
  simpa using unpack_pack_append vs []

/-- R83, R90: the packed field, whatever follows it, unpacks to the sequence. -/
theorem unpack_packed15_append (legacy : Bool) (vs : List Bool) (bs : List Byte) :
    unpack (packed15 legacy vs ++ bs) vs.length = vs := by
  rw [packed15, List.append_assoc, unpack_pack_append]

/-- Settles O39: the field's length and content, and the two formulas of the byte count. -/
theorem packedFieldHasByteCountBytes : Obligations.PackedFieldHasByteCountBytes := by
  refine fun legacy vs => ⟨packed15_length legacy vs, ?_, ?_, rfl, rfl, ?_⟩
  · simpa using unpack_packed15_append legacy vs []
  · simp [packed15, legacyPad]
  · simp only [byteCount15_cases, true_and, Bool.false_eq_true, false_and, if_false, Nat.add_zero]

/-- R90: beyond the packing, the field is filled with zeros up to the byte count. -/
theorem packed15_eq_pack_append_replicate (legacy : Bool) (vs : List Bool) :
    packed15 legacy vs = pack vs ++ List.replicate (byteCount15 legacy vs.length - (vs.length + 7) / 8) 0 := by
  rw [byteCount15_cases, Nat.add_sub_cancel_left, packed15, legacyPad]
  by_cases h : legacy = true ∧ vs.length % 8 = 0
  · simp [h]
  · simp [h]

/-! ## Fields read back -/

theorem word16_hiByte_loByte (v : U16) : word16 (hiByte v) (loByte v) = v := by
  rw [word16, hiByte, loByte, BitVec.extractLsb'_append_extractLsb'_eq_extractLsb' (by rfl)]
  exact BitVec.extractLsb'_eq_self

theorem takeWords_append (vs : List U16) (rest : List Byte) :
    takeWords vs.length (vs.flatMap be16 ++ rest) = some (vs, rest) := by
  induction vs with
  | nil => rfl
  | cons v vs ih =>
    have hcons : (v :: vs).flatMap be16 ++ rest = hiByte v :: loByte v :: (vs.flatMap be16 ++ rest) := rfl
    simp only [hcons, List.length_cons, takeWords, ih, word16_hiByte_loByte]
    rfl

theorem coilOfWord_coilWord (v : Bool) : coilOfWord (coilWord v) = some v := by
  cases v <;> rfl

/-- R90, R91: a byte count that fits its byte is read back. -/
theorem toNat_ofNat_of_le_255 {n : Nat} (h : n ≤ 255) : (BitVec.ofNat 8 n).toNat = n := by
  rw [BitVec.toNat_ofNat]; omega

theorem decodeCoils_packed15 {legacy : Bool} {a : U16} {vs : List Bool} {rest : List Byte}
    (hfit : byteCount15 legacy vs.length ≤ 255) :
    decodeCoils a vs.length (BitVec.ofNat 8 (byteCount15 legacy vs.length)) (packed15 legacy vs ++ rest) =
      .ok (.writeMultipleCoils a vs, rest) := by
  have hcount : byteCount15 legacy vs.length = byteCount15 false vs.length ∨
      byteCount15 legacy vs.length = byteCount15 true vs.length := by
    cases legacy
    · exact .inl rfl
    · exact .inr rfl
  have htake : (packed15 legacy vs ++ rest).take (byteCount15 legacy vs.length) = packed15 legacy vs :=
    List.take_left' (packed15_length legacy vs)
  have hdrop : (packed15 legacy vs ++ rest).drop (byteCount15 legacy vs.length) = rest :=
    List.drop_left' (packed15_length legacy vs)
  simp only [decodeCoils, toNat_ofNat_of_le_255 hfit, if_pos hcount, htake, hdrop, packed15_length, Nat.lt_irrefl,
    if_false, unpack_packed15_append, ← packed15_eq_pack_append_replicate, if_true]

theorem decodeRegisters_be16 {a : U16} {vs : List U16} {rest : List Byte} (hfit : byteCount16 vs.length ≤ 255) :
    decodeRegisters a vs.length (BitVec.ofNat 8 (byteCount16 vs.length)) (vs.flatMap be16 ++ rest) =
      .ok (.writeMultipleRegisters a vs, rest) := by
  simp only [decodeRegisters, toNat_ofNat_of_le_255 hfit, if_true, takeWords_append]

/-- R82 to R84, R93: what the code `c`, the two fields `f1`, `f2` and the bytes `rest` after them are read as. -/
def decodeFields (c : FunctionCode) (f1 f2 : U16) (rest : List Byte) : Except Reject (Instr × List Byte) :=
  match c, rest with
  | .readCoils, rest => .ok (.readCoils f1 f2, rest)
  | .readDiscreteInputs, rest => .ok (.readDiscreteInputs f1 f2, rest)
  | .readHoldingRegisters, rest => .ok (.readHoldingRegisters f1 f2, rest)
  | .readInputRegisters, rest => .ok (.readInputRegisters f1 f2, rest)
  | .writeSingleCoil, rest => (coilOfWord f2).elim (.error (.coilWord f2)) fun v => .ok (.writeSingleCoil f1 v, rest)
  | .writeSingleRegister, rest => .ok (.writeSingleRegister f1 f2, rest)
  | .writeMultipleCoils, bc :: data => decodeCoils f1 f2.toNat bc data
  | .writeMultipleRegisters, bc :: data => decodeRegisters f1 f2.toNat bc data
  | .writeMultipleCoils, [] => .error .tooShort
  | .writeMultipleRegisters, [] => .error .tooShort

/-- Every PDU begins with its function code and two 16-bit fields. -/
theorem decodeRequest_rq5Bytes_append (c : FunctionCode) (f1 f2 : U16) (rest : List Byte) :
    decodeRequest (rq5Bytes c f1 f2 ++ rest) = decodeFields c f1 f2 rest := by
  simp only [rq5Bytes, be16, List.cons_append, List.nil_append, decodeRequest, functionCodeOf_value,
    word16_hiByte_loByte]
  cases c with
  | readCoils => rfl
  | readDiscreteInputs => rfl
  | readHoldingRegisters => rfl
  | readInputRegisters => rfl
  | writeSingleCoil => simp only [decodeFields]; cases coilOfWord f2 <;> rfl
  | writeSingleRegister => rfl
  | writeMultipleCoils => cases rest <;> rfl
  | writeMultipleRegisters => cases rest <;> rfl

theorem wmcBytes_append (legacy : Bool) (a : U16) (vs : List Bool) (rest : List Byte) :
    wmcBytes legacy a vs ++ rest = rq5Bytes .writeMultipleCoils a (BitVec.ofNat 16 vs.length) ++
      BitVec.ofNat 8 (byteCount15 legacy vs.length) :: (packed15 legacy vs ++ rest) := by
  simp only [wmcBytes, rq5Bytes, List.append_assoc, List.cons_append, List.nil_append]

theorem wmrBytes_append (a : U16) (vs : List U16) (rest : List Byte) :
    wmrBytes a vs ++ rest = rq5Bytes .writeMultipleRegisters a (BitVec.ofNat 16 vs.length) ++
      BitVec.ofNat 8 (byteCount16 vs.length) :: (vs.flatMap be16 ++ rest) := by
  simp only [wmrBytes, rq5Bytes, List.append_assoc, List.cons_append, List.nil_append]

/-! ## PDUs and frames read back -/

theorem byteCount15_le_of_not_overflow {legacy : Bool} {n : Nat} (h : ¬ overflow15 legacy n = true) :
    byteCount15 legacy n ≤ 255 :=
  Nat.le_of_not_lt fun hlt => h (Machine.overflow15_iff.mpr hlt)

theorem byteCount16_le_of_not_overflow {m : Nat} (h : ¬ overflow16 m = true) : byteCount16 m ≤ 255 :=
  Nat.le_of_not_lt fun hlt => h (Machine.overflow16_iff.mpr hlt)

/-- Settles O43: the fields all PDUs begin with, then the packed coils or the registers. -/
theorem decodeOfPduBytesIsTheRequest : Obligations.DecodeOfPduBytesIsTheRequest := by
  intro legacy r bs rest hr hbs
  cases r with
  | readCoils a q => cases hbs; exact decodeRequest_rq5Bytes_append .readCoils a q rest
  | readDiscreteInputs a q => cases hbs; exact decodeRequest_rq5Bytes_append .readDiscreteInputs a q rest
  | readHoldingRegisters a q => cases hbs; exact decodeRequest_rq5Bytes_append .readHoldingRegisters a q rest
  | readInputRegisters a q => cases hbs; exact decodeRequest_rq5Bytes_append .readInputRegisters a q rest
  | writeSingleCoil a v =>
    cases hbs
    rw [decodeRequest_rq5Bytes_append, decodeFields, coilOfWord_coilWord]
    rfl
  | writeSingleRegister a v => cases hbs; exact decodeRequest_rq5Bytes_append .writeSingleRegister a v rest
  | writeMultipleCoils a vs =>
    simp only [Request.toInstr, Instr.bytes] at hbs
    split_ifs at hbs with hover
    cases hbs
    rw [wmcBytes_append, decodeRequest_rq5Bytes_append, decodeFields, toNat_ofNat_of_countOk hr]
    exact decodeCoils_packed15 (byteCount15_le_of_not_overflow hover)
  | writeMultipleRegisters a vs =>
    simp only [Request.toInstr, Instr.bytes] at hbs
    split_ifs at hbs with hover
    cases hbs
    rw [wmrBytes_append, decodeRequest_rq5Bytes_append, decodeFields, toNat_ofNat_of_countOk hr]
    exact decodeRegisters_be16 (byteCount16_le_of_not_overflow hover)

/-- Settles O44: a response's bytes are a frame that decodes to it. -/
theorem decodeOfFrameBytesIsTheResponse : Obligations.DecodeOfFrameBytesIsTheResponse := by
  intro legacy i bs hi hunit hbs
  obtain ⟨r, -, rfl⟩ | ⟨frame, hframe, -, hbytes⟩ := wellFormed_cases hi
  · rw [Machine.codecUnit_toInstr] at hunit; cases hunit
  · cases (hbytes legacy).symm.trans hbs
    exact hframe

/-- Settles O46: each word is read by the decoder. -/
theorem writtenOutWordsDecode : Obligations.WrittenOutWordsDecode :=
  ⟨rfl, rfl, rfl, rfl, rfl, rfl, rfl⟩

/-! ## The PDUs of `encode` are normal frames -/

theorem length_rq5Bytes (c : FunctionCode) (f1 f2 : U16) : (rq5Bytes c f1 f2).length = 5 := rfl

theorem length_flatMap_be16 (vs : List U16) : (vs.flatMap be16).length = byteCount16 vs.length := by
  induction vs with
  | nil => rfl
  | cons v vs ih =>
    simp only [List.flatMap_cons, List.length_append, ih, be16, byteCount16, List.length_cons, List.length_nil]
    omega

theorem length_wmcBytes (legacy : Bool) (a : U16) (vs : List Bool) :
    (wmcBytes legacy a vs).length = 6 + byteCount15 legacy vs.length := by
  rw [← packed15_length]
  simp only [wmcBytes, be16, List.length_append, List.length_cons, List.length_nil]

theorem length_wmrBytes (a : U16) (vs : List U16) : (wmrBytes a vs).length = 6 + byteCount16 vs.length := by
  rw [← length_flatMap_be16]
  simp only [wmrBytes, be16, List.length_append, List.length_cons, List.length_nil]

/-- R26, R86: the shortest PDU is 5 bytes, the longest 6 + 255. -/
theorem length_of_encodeRequest {cfg : Config} {r : Request} {bs : List Byte} (h : encodeRequest cfg r = .pdu bs) :
    5 ≤ bs.length ∧ bs.length ≤ 261 := by
  cases r with
  | writeMultipleCoils a vs =>
    simp only [encodeRequest] at h
    split_ifs at h with hover
    cases h
    have hfit := byteCount15_le_of_not_overflow hover
    rw [length_wmcBytes]; omega
  | writeMultipleRegisters a vs =>
    simp only [encodeRequest] at h
    split_ifs at h with hover
    cases h
    have hfit := byteCount16_le_of_not_overflow hover
    rw [length_wmrBytes]; omega
  | _ => cases h; rw [length_rq5Bytes]; omega

theorem exceptionBit_value (c : FunctionCode) : exceptionBit c.value = false := by
  cases c <;> rfl

/-- Settles O37: byte 0 of a PDU is a function code, whose bit 7 is clear, and four bytes at least follow it. -/
theorem encodedRequestsAreNormalToDec : Obligations.EncodedRequestsAreNormalToDec := by
  intro cfg r bs h
  obtain ⟨hmin, hmax⟩ := length_of_encodeRequest h
  obtain ⟨c, hhead⟩ := head?_of_encodeRequest h
  refine ⟨hmin, hmax, ?_⟩
  match bs, hhead, hmin with
  | _ :: b1 :: rest, rfl, _ =>
    exact ⟨c.value, b1 :: rest, by simp only [decodeResponse, exceptionBit_value, Bool.false_eq_true, if_false], rfl⟩

end Sys2Proof
end

section
/-! PROOFS. PinBinding.lean: the default pin binding (R104): tokens sampled back from their wires (R97, R239), a transfer on a
valid/ready pair as the unit's step (R64, R235, R236), and the edge with `rst` (R230, R33). -/

namespace Sys2Proof.Machine

/-! ## Tokens on wires, sampled back -/

/-- Of a coil only bit 0 is sampled. -/
theorem sampleData_coil (g : U16) : sampleData true g = coilArg (g.getLsbD 0) := by
  rw [sampleData, if_pos rfl, ← BitVec.setWidth_eq_extractLsb' (by decide), BitVec.setWidth_one]
  cases g.getLsbD 0 <;> rfl

theorem coilArg_getLsbD_zero {g : U16} {v : Bool} (h : coilOfArg g = some v) : coilArg (g.getLsbD 0) = g := by
  rw [← coilArg_of_coilOfArg h]
  cases v <;> rfl

/-- Data survive the wires unless they are a coil that is not 0 or 1. -/
theorem sampleData_of_accepted {p : Prop} [Decidable p] {g : U16}
    (h : (decide p && (coilOfArg g).isNone) = false) : sampleData (decide p) g = g := by
  by_cases hp : p
  · rw [decide_eq_true hp, Bool.true_and, Option.isNone_eq_false_iff, Option.isSome_iff_exists] at h
    obtain ⟨v, hv⟩ := h
    rw [decide_eq_true hp, sampleData_coil, coilArg_getLsbD_zero hv]
  · rw [decide_eq_false hp]; rfl

theorem sampleEncIn_command_of_accepted {fc : Byte} {g : U16} (h : commandRefused fc g = false) (k : Nat) (e : Enc)
    (a : U16) : sampleEncIn e (encInPins k (.c fc a g)) = .c fc a g :=
  congrArg (EncIn.c fc a) (sampleData_of_accepted h)

theorem sampleEncIn_value_of_accepted {e : Enc} {v : U16} (h : valueRefused e.fc v = false) (k : Nat) :
    sampleEncIn e (encInPins k (.v v)) = .v v :=
  congrArg EncIn.v (sampleData_of_accepted h)

theorem sampleEncIn_coilCommand (k : Nat) (e : Enc) (a g : U16) :
    sampleEncIn e (encInPins k (.c 5 a g)) = .c 5 a (coilArg (g.getLsbD 0)) :=
  congrArg (EncIn.c 5 a) (sampleData_coil g)

theorem sampleEncIn_coilValue {e : Enc} (hfc : e.fc = 0x0F) (k : Nat) (v : U16) :
    sampleEncIn e (encInPins k (.v v)) = .v (coilArg (v.getLsbD 0)) := by
  rw [← sampleData_coil, ← decide_eq_true hfc]; rfl

theorem sampleEncOut_encOutPins (k : Nat) (t : EncOut) : sampleEncOut (encOutPins k t) = t := by
  cases t with
  | b byte last => rfl
  | f code => exact congrArg EncOut.f BitVec.extractLsb'_append_eq_right

theorem sampleDecIn_decInPins (k : Nat) (t : DecIn) : sampleDecIn (decInPins k t) = t := by
  cases t <;> rfl

theorem errClassOf_number (cls : ErrClass) : errClassOf cls.number = cls := by
  cases cls <;> rfl

theorem sampleDecOut_decOutPins (k : Nat) (t : DecOut) : sampleDecOut (decOutPins k t) = some t := by
  cases t with
  | normal fc => rfl
  | exception fc code cls => exact congrArg (fun c => some (DecOut.exception fc code c)) (errClassOf_number cls)
  | malformed => rfl

/-- A coil of 0 or 1 is in the input set. -/
theorem coilRefused_eq_false {p : Prop} [Decidable p] {g : U16} (h : p → g.toNat ≤ 1) :
    (decide p && (coilOfArg g).isNone) = false := by
  by_cases hp : p
  · have hg := h hp
    rw [coilOfArg_isNone, decide_eq_false (by omega : ¬ 2 ≤ g.toNat), Bool.and_false]
  · rw [decide_eq_false hp, Bool.false_and]

/-- Settles O47: channel by channel. -/
theorem tokensSurviveThePins : Obligations.TokensSurviveThePins := by
  refine fun k e => ⟨fun fc a g h => ?_, fun a g => sampleEncIn_coilCommand k e a g, fun v h => ?_,
    fun v hfc => sampleEncIn_coilValue hfc k v, fun t => ⟨?_, sampleEncOut_encOutPins k t⟩, sampleDecIn_decInPins k,
    sampleDecOut_decOutPins k⟩
  · exact sampleEncIn_command_of_accepted (coilRefused_eq_false h) k e a
  · exact sampleEncIn_value_of_accepted (coilRefused_eq_false h) k
  · rintro c rfl; rfl

/-! ## The reset wire -/

theorem rst_eq_true_iff {s : State} :
    rst s = true ↔ (∃ ts, s.turns = .reset :: ts) ∨ ∃ ep dp ts, s.turns = .restart ep dp :: ts := by
  unfold rst
  split <;> simp_all

/-- R230: the step of a reset turn or of a restart, where it answers a next state, resets both units. -/
theorem units_of_step_of_rst {s t : State} (hrst : rst s = true) (h : step s = .next t) :
    t.enc = encAfterReset s.free ∧ t.dec = decAfterReset (s.free + 11) ∧ t.free = s.free + 13 := by
  obtain ⟨ts, hts⟩ | ⟨ep, dp, ts, hts⟩ := rst_eq_true_iff.mp hrst <;> rw [step_of_turns_cons hts] at h
  · simp only [turnStep, resetPin] at h
    split_ifs at h
    cases h; exact ⟨rfl, rfl, rfl⟩
  · cases h; exact ⟨rfl, rfl, rfl⟩

theorem encEdge_of_rst {s : State} (hrst : rst s = true) (k : Nat) :
    encEdge k s = .moved { s with enc := encAfterReset s.free, free := s.free + 13 } := by
  rw [encEdge, if_pos hrst]; rfl

theorem decEdge_of_rst {s : State} (hrst : rst s = true) (k : Nat) :
    decEdge k s = .moved { s with dec := decAfterReset (s.free + 11), free := s.free + 13 } := by
  rw [decEdge, if_pos hrst]; rfl

/-- Settles O59: `rst` holds every `ready` and `valid` of the units at 0, and its edge is the reset of R33. -/
theorem anEdgeWithRstResetsBothUnits : Obligations.AnEdgeWithRstResetsBothUnits := by
  refine fun k s => ⟨rst_eq_true_iff, fun hrst => ?_⟩
  have hline : ∀ line, driven (rst s) line = false := fun line => by rw [hrst]; rfl
  rw [encEdge_of_rst hrst, decEdge_of_rst hrst]
  refine ⟨?_, ?_, ?_, ?_, ⟨_, rfl, rfl⟩, ⟨_, rfl, rfl, rfl⟩, fun t ht => ?_⟩
  · rw [encInTransfers, hline, transfers, Bool.and_false]
  · rw [encOutTransfers, hline]; rfl
  · rw [decInTransfers, hline, transfers, Bool.and_false]
  · rw [decOutTransfers, hline]; rfl
  · obtain ⟨henc, hdec, hfree⟩ := units_of_step_of_rst hrst ht
    rw [henc, hdec, hfree]
    exact ⟨rfl, rfl⟩

/-! ## The transfers of the two pairs, `rst` at 0 -/

theorem encInReady_eq_true_iff {e : Enc} {kind : Bool} : encInReady e kind = true ↔
    (e.ph = .idle ∧ kind = false) ∨ ((e.ph = .fetch ∨ e.ph = .drain) ∧ kind = true) := by
  cases hph : e.ph <;> simp [encInReady, hph]

theorem encOutValid_eq_false_iff {e : Enc} :
    encOutValid e = false ↔ e.ph = .idle ∨ e.ph = .fetch ∨ e.ph = .drain := by
  cases hph : e.ph <;> simp [encOutValid, hph]

theorem encOutValid_of_encInReady {e : Enc} {kind : Bool} (h : encInReady e kind = true) : encOutValid e = false := by
  obtain ⟨hph, -⟩ | ⟨hph, -⟩ := encInReady_eq_true_iff.mp h
  · exact encOutValid_eq_false_iff.mpr (.inl hph)
  · exact encOutValid_eq_false_iff.mpr (.inr hph)

theorem decInReady_eq_true_iff {d : Dec} {null : Bool} :
    decInReady d null = true ↔ d.ph = .recv ∧ (null = true → d.cnt = 0) := by
  cases hph : d.ph <;> cases null <;> simp [decInReady, hph]

theorem encInTransfers_iff {s : State} (hrst : rst s = false) {k : Nat} :
    encInTransfers k s = true ↔ ∃ x ts, s.encIn = x :: ts ∧ encInReady s.enc (EncIn.kindWire x) = true := by
  cases hin : s.encIn <;> simp [encInTransfers, encInValid, encInKind, transfers, driven, hrst, hin]

theorem encOutTransfers_iff {s : State} (hrst : rst s = false) : encOutTransfers s = true ↔
    encOutValid s.enc = true ∧ hasRoom s.cfg.capEncOut s.encOut.length = true := by
  simp [encOutTransfers, encOutReady, transfers, driven, hrst]

theorem decInTransfers_iff {s : State} (hrst : rst s = false) {k : Nat} :
    decInTransfers k s = true ↔ ∃ x ts, s.decIn = x :: ts ∧ decInReady s.dec (DecIn.nullWire x) = true := by
  cases hin : s.decIn <;> simp [decInTransfers, decInValid, decInNull, transfers, driven, hrst, hin]

theorem decOutTransfers_iff {s : State} (hrst : rst s = false) : decOutTransfers s = true ↔
    s.dec.ph = .result ∧ hasRoom s.cfg.capDecOut s.decOut.length = true := by
  simp [decOutTransfers, decOutValid, decOutReady, transfers, driven, hrst]

/-! ## When ENC's step is refused, and when ENC is stuck -/

theorem encPutStep_ne_refused (t : EncOut) (e : Enc) (s : State) (r : Refusal) : encPutStep t e s ≠ .refused r := by
  unfold encPutStep
  split_ifs <;> exact Tick.noConfusion

/-- The beats that ENC refuses (R239): a coil that is not 0 or 1, as the `arg` of function 5 or a value of function 15. -/
theorem encTick_refused_cases {s : State} {r : Refusal} (h : encTick s = .refused r) :
    (∃ a g ts, s.enc.ph = .idle ∧ s.encIn = .c 5 a g :: ts) ∨
    (∃ v ts, (s.enc.ph = .fetch ∨ s.enc.ph = .drain) ∧ s.enc.rem ≠ 0 ∧ s.enc.fc = 0x0F ∧ s.encIn = .v v :: ts) := by
  cases hph : s.enc.ph <;> simp only [encTick, hph] at h
  case idle =>
    unfold encIdle at h
    split at h
    · cases h
    · cases h
    · rename_i fc a g ts hin
      split_ifs at h with hc
      obtain ⟨hfc, -⟩ := Bool.and_eq_true_iff.mp hc
      exact .inl ⟨a, g, ts, rfl, by rw [hin, of_decide_eq_true hfc]⟩
  case hdr =>
    unfold encHdr at h
    split at h
    · cases h
    · exact absurd h (encPutStep_ne_refused _ _ _ _)
  case fetch =>
    unfold encFetch at h
    split at h
    · cases h
    · cases h
    · rename_i v ts hin
      split_ifs at h with hrem h15 h16
      exact .inr ⟨v, ts, .inl rfl, hrem, h15, hin⟩
  case drain =>
    unfold encDrain at h
    split at h
    · cases h
    · cases h
    · rename_i v ts hin
      split_ifs at h with hrem hv
      obtain ⟨h15, -⟩ := Bool.and_eq_true_iff.mp hv
      exact .inr ⟨v, ts, .inr rfl, hrem, of_decide_eq_true h15, hin⟩
  all_goals exact absurd h (encPutStep_ne_refused _ _ _ _)

/-- ENC is stuck on a token of the wrong kind (R235), if its registers are in a combination that the rules cover. -/
theorem encTick_stuck_cases {s : State} {f : Fault} (h : encTick s = .stuck f) :
    f = .encNoRule ∨
      ∃ x ts, (s.enc.ph = .idle ∨ s.enc.ph = .fetch ∨ s.enc.ph = .drain) ∧ s.encIn = x :: ts ∧
        encInReady s.enc (EncIn.kindWire x) = false := by
  cases hph : s.enc.ph <;> simp only [encTick, hph] at h
  case idle =>
    unfold encIdle at h
    split at h
    · cases h
    · rename_i hin; exact .inr ⟨_, _, .inl rfl, hin, by simp only [encInReady, hph]; rfl⟩
    · split_ifs at h
  case hdr =>
    unfold encHdr at h
    split at h
    · cases h; exact .inl rfl
    · exact absurd h (encPutStep_ne_stuck _ _ _ _)
  case fetch =>
    unfold encFetch at h
    split at h
    · cases h
    · rename_i hin; exact .inr ⟨_, _, .inr (.inl rfl), hin, by simp only [encInReady, hph]; rfl⟩
    · split_ifs at h
      · cases h; exact .inl rfl
      · split at h <;> cases h
      · cases h; exact .inl rfl
  case drain =>
    unfold encDrain at h
    split at h
    · cases h
    · rename_i hin; exact .inr ⟨_, _, .inr (.inr rfl), hin, by simp only [encInReady, hph]; rfl⟩
    · split_ifs at h
      cases h; exact .inl rfl
  all_goals exact absurd h (encPutStep_ne_stuck _ _ _ _)

/-! ## ENC's edge is its step -/

theorem encSampled_of_cons {s : State} {x y : EncIn} {ts : List EncIn} {k : Nat} (hin : s.encIn = x :: ts)
    (hx : sampleEncIn s.enc (encInPins k x) = y) : encSampled k s = s.setEncIn (y :: ts) := by
  simp only [encSampled, hin, hx]

/-- A token of the input set that ENC is ready for is taken as it is. -/
theorem encTransfer_of_take {s : State} {x : EncIn} {ts : List EncIn} {k : Nat} (hrst : rst s = false)
    (hin : s.encIn = x :: ts) (hready : encInReady s.enc (EncIn.kindWire x) = true)
    (hx : sampleEncIn s.enc (encInPins k x) = x) : encInTransfers k s = true ∧ encSampled k s = s :=
  ⟨(encInTransfers_iff hrst).mpr ⟨x, ts, hin, hready⟩, by rw [encSampled_of_cons hin hx, ← hin]; rfl⟩

/-- In a phase whose step is a put ENC takes nothing. -/
theorem encTransfer_of_put {s : State} {k : Nat} (hrst : rst s = false) (hvalid : encOutValid s.enc = true)
    (hroom : hasRoom s.cfg.capEncOut s.encOut.length = true) :
    encInTransfers k s = false ∧ encOutTransfers s = true := by
  refine ⟨Bool.eq_false_iff.mpr fun hin => ?_, (encOutTransfers_iff hrst).mpr ⟨hvalid, hroom⟩⟩
  obtain ⟨x, ts, -, hready⟩ := (encInTransfers_iff hrst).mp hin
  cases hvalid.symm.trans (encOutValid_of_encInReady hready)

/-- The pair on which a step of ENC moves its token; a token that is taken is sampled as itself. -/
theorem encTransfer_of_moved {s t : State} (hrst : rst s = false) (h : encTick s = .moved t) (k : Nat) :
    (encInTransfers k s = true ∧ encSampled k s = s) ∨ (encInTransfers k s = false ∧ encOutTransfers s = true) := by
  obtain ⟨fc, a, g, ts, hph, hin, hc, -⟩ | ⟨v, ts, hph, -, -, hin, -⟩ | ⟨v, ts, hph, -, hfc, hin, -⟩ |
    ⟨v, ts, hph, -, hv, hin, -⟩ | ⟨hroom, hput⟩ := encTick_moved_cases h
  · exact .inl (encTransfer_of_take hrst hin (encInReady_eq_true_iff.mpr (.inl ⟨hph, rfl⟩))
      (sampleEncIn_command_of_accepted hc k _ a))
  · exact .inl (encTransfer_of_take hrst hin (encInReady_eq_true_iff.mpr (.inr ⟨.inl hph, rfl⟩))
      (sampleEncIn_value_of_accepted (valueRefused_coilArg _ v) k))
  · have h15 : s.enc.fc ≠ 0x0F := by rw [hfc]; decide
    exact .inl (encTransfer_of_take hrst hin (encInReady_eq_true_iff.mpr (.inr ⟨.inl hph, rfl⟩))
      (sampleEncIn_value_of_accepted (valueRefused_register h15 v) k))
  · exact .inl (encTransfer_of_take hrst hin (encInReady_eq_true_iff.mpr (.inr ⟨.inr hph, rfl⟩))
      (sampleEncIn_value_of_accepted hv k))
  · obtain ⟨_, hph, -⟩ | ⟨hph, -⟩ | ⟨hph, -⟩ | ⟨hph, -⟩ | ⟨hph, -⟩ | ⟨hph, -⟩ := hput <;>
      exact .inr (encTransfer_of_put hrst (by simp only [encOutValid, hph]) hroom)

/-- What the wires make of a coil that ENC refuses: the coil of its bit 0, which ENC takes (R239). -/
theorem encTransfer_of_refused {s : State} {r : Refusal} (hrst : rst s = false) (h : encTick s = .refused r) (k : Nat) :
    encInTransfers k s = true ∧ (∃ t, encTick (encSampled k s) = .moved t) ∧
      ((∃ a g ts, s.encIn = .c 5 a g :: ts ∧ encSampled k s = s.setEncIn (.c 5 a (coilArg (g.getLsbD 0)) :: ts)) ∨
       ∃ v ts, s.enc.fc = 0x0F ∧ s.encIn = .v v :: ts ∧ encSampled k s = s.setEncIn (.v (coilArg (v.getLsbD 0)) :: ts)) := by
  rw [encInTransfers_iff hrst]
  obtain ⟨a, g, ts, hph, hin⟩ | ⟨v, ts, hph, hrem, hfc, hin⟩ := encTick_refused_cases h
  · have hs := encSampled_of_cons hin (sampleEncIn_coilCommand k s.enc a g)
    have haccepted : commandRefused 5 (coilArg (g.getLsbD 0)) = false := by
      rw [commandRefused, coilOfArg_coilArg]; rfl
    have hstep : ∃ t, encTick (s.setEncIn (.c 5 a (coilArg (g.getLsbD 0)) :: ts)) = .moved t :=
      ⟨_, encTick_accept (s := s) (eo := s.encOut) hph haccepted⟩
    exact ⟨⟨_, _, hin, encInReady_eq_true_iff.mpr (.inl ⟨hph, rfl⟩)⟩, hs ▸ hstep, .inl ⟨a, g, ts, hin, hs⟩⟩
  · have hs := encSampled_of_cons hin (sampleEncIn_coilValue hfc k v)
    have hstep : ∃ t, encTick (s.setEncIn (.v (coilArg (v.getLsbD 0)) :: ts)) = .moved t := by
      obtain hph | hph := hph
      · exact ⟨_, encTick_fetchCoil (s := s) (eo := s.encOut) hph hfc hrem⟩
      · exact ⟨_, encTick_drain (s := s) (eo := s.encOut) hph hrem (valueRefused_coilArg _ _)⟩
    exact ⟨⟨_, _, hin, encInReady_eq_true_iff.mpr (.inr ⟨hph, rfl⟩)⟩, hs ▸ hstep, .inr ⟨v, ts, hfc, hin, hs⟩⟩

theorem encEdge_of_encInTransfers {s : State} {k : Nat} (hrst : rst s = false) (h : encInTransfers k s = true) :
    encEdge k s = encTick (encSampled k s) := by
  simp only [encEdge, hrst, h, Bool.false_eq_true, if_false, if_true]

theorem encEdge_of_moved {s t : State} (hrst : rst s = false) (h : encTick s = .moved t) (k : Nat) :
    encEdge k s = .moved t := by
  obtain ⟨hin, hs⟩ | ⟨hin, hout⟩ := encTransfer_of_moved hrst h k
  · rw [encEdge_of_encInTransfers hrst hin, hs, h]
  · simp only [encEdge, hrst, hin, hout, h, Bool.false_eq_true, if_false, if_true]

/-- With registers that fit ENC's phase, no token moves on the pairs of a waiting or stuck ENC. -/
theorem encTransfers_iff {s : State} (hs : MachineInv s) (hrst : rst s = false) (k : Nat) :
    (encInTransfers k s = true ∨ encOutTransfers s = true) ↔
      ((∃ t, encTick s = .moved t) ∨ ∃ r, encTick s = .refused r) := by
  constructor
  · rw [encInTransfers_iff hrst, encOutTransfers_iff hrst]
    intro htransfer
    cases hx : encTick s with
    | moved t => exact .inl ⟨t, rfl⟩
    | refused r => exact .inr ⟨r, rfl⟩
    | waiting =>
      obtain ⟨hph, hempty⟩ | ⟨hvalid, -, hfull⟩ := encTick_eq_waiting_iff.mp hx
      · simp [hempty, encOutValid_eq_false_iff.mpr hph] at htransfer
      · obtain ⟨x, ts, -, hready⟩ | ⟨-, hroom⟩ := htransfer
        · cases hvalid.symm.trans (encOutValid_of_encInReady hready)
        · cases hfull.symm.trans hroom
    | stuck f =>
      obtain rfl | ⟨x, ts, hph, hin, hready⟩ := encTick_stuck_cases hx
      · exact absurd hx (invariantLeavesNoPhaseWithoutARule s hs)
      · simp [hin, hready, encOutValid_eq_false_iff.mpr hph] at htransfer
  · rintro (⟨t, ht⟩ | ⟨r, hr⟩)
    · exact (encTransfer_of_moved hrst ht k).imp And.left And.right
    · exact .inl (encTransfer_of_refused hrst hr k).1

/-! ## DEC's edge is its step -/

theorem decSampled_eq_self (k : Nat) (s : State) : decSampled k s = s := by
  cases hin : s.decIn with
  | nil => simp only [decSampled, hin]
  | cons x ts => simp only [decSampled, hin, sampleDecIn_decInPins]; rw [← hin]; rfl

theorem decTransfers_iff {s : State} (hrst : rst s = false) (k : Nat) :
    (decInTransfers k s = true ∨ decOutTransfers s = true) ↔ ∃ t, decTick s = .moved t := by
  rw [decInTransfers_iff hrst, decOutTransfers_iff hrst]
  constructor
  · rintro (⟨x, ts, hin, hready⟩ | ⟨hph, hroom⟩)
    · obtain ⟨hph, hcnt⟩ := decInReady_eq_true_iff.mp hready
      cases x with
      | b byte last => exact ⟨_, decTick_byte hph hin⟩
      | empty => exact ⟨_, decTick_empty hph (hcnt rfl) hin⟩
    · exact ⟨_, decTick_result hph hroom⟩
  · rintro ⟨t, ht⟩
    obtain ⟨byte, last, ts, hph, hin, -⟩ | ⟨ts, hph, hcnt, hin, -⟩ | ⟨hph, hroom, -⟩ := decTick_moved_cases ht
    · exact .inl ⟨_, _, hin, decInReady_eq_true_iff.mpr ⟨hph, fun hnull => by cases hnull⟩⟩
    · exact .inl ⟨_, _, hin, decInReady_eq_true_iff.mpr ⟨hph, fun _ => hcnt⟩⟩
    · exact .inr ⟨hph, hroom⟩

theorem decEdge_of_moved {s t : State} (hrst : rst s = false) (h : decTick s = .moved t) (k : Nat) :
    decEdge k s = .moved t := by
  have htransfer := (decTransfers_iff hrst k).mpr ⟨t, h⟩
  rw [decEdge, decSampled_eq_self, h, hrst]
  by_cases hin : decInTransfers k s = true
  · simp [hin]
  · simp [hin, htransfer.resolve_left hin]

/-- Settles O58: a step of ENC or DEC by the token it moves, a refused coil by the token it is sampled as. -/
theorem aTransferOnTheWiresIsTheUnitsStep : Obligations.ATransferOnTheWiresIsTheUnitsStep := by
  refine fun k s hs hrst => ⟨encTransfers_iff hs hrst k, fun t ht => encEdge_of_moved hrst ht k, fun r hr => ?_,
    decTransfers_iff hrst k, fun t ht => decEdge_of_moved hrst ht k⟩
  obtain ⟨hin, hmoved, hcoil⟩ := encTransfer_of_refused hrst hr k
  rw [encEdge_of_encInTransfers hrst hin]
  refine ⟨hmoved, hcoil.imp ?_ ?_⟩
  · rintro ⟨a, g, ts, htoken, hsampled⟩
    exact ⟨a, g, ts, htoken, congrArg encTick hsampled⟩
  · rintro ⟨v, ts, hfc, htoken, hsampled⟩
    exact ⟨v, ts, hfc, htoken, congrArg encTick hsampled⟩

end Sys2Proof.Machine
end

section
/-! PROOFS. CommonSteps.lean: the steps that the commands of ENC share: the accept (R121), the header byte (R122, R125,
R88), and a fault delivered and its values drained (R123, R124, R210). -/

namespace Sys2Proof.Machine

/-! ## The accept step -/

/-- R121: the six fixed forms are the codes 1 to 6. -/
theorem accept_of_fixed {legacy : Bool} {e : Enc} (h : 1 ≤ e.fc.toNat ∧ e.fc.toNat ≤ 6) :
    accept legacy e = acceptFixed e := by
  obtain ⟨hfc, -⟩ | ⟨hfc, -⟩ | ⟨hfc, -⟩ | ⟨-, -, -, haccept⟩ := accept_cases legacy e
  · rw [hfc] at h; exact absurd h (by decide)
  · rw [hfc] at h; exact absurd h (by decide)
  · rw [functionCodeOf_eq_none_iff] at hfc; omega
  · exact haccept

theorem accept_of_coils {legacy : Bool} {e : Enc} (h : e.fc = 0x0F) : accept legacy e = acceptCoils legacy e := by
  rw [accept, h]; rfl

theorem accept_of_registers {legacy : Bool} {e : Enc} (h : e.fc = 0x10) : accept legacy e = acceptRegisters e := by
  rw [accept, h]; rfl

theorem accept_of_illegal {legacy : Bool} {e : Enc} (h : functionCodeOf e.fc = none) :
    accept legacy e = acceptIllegal e := by
  simp only [accept, h]

section
variable {legacy : Bool} {e : Enc} {n : Nat}

theorem acceptCoils_of_overflow (harg : e.arg.toNat = n) (h : 255 < byteCount15 legacy n) :
    acceptCoils legacy e = { e with rem := e.arg, flt := 2, ph := .fault } :=
  if_pos (overflow15_iff.mpr (harg ▸ h))

theorem acceptCoils_of_fit (harg : e.arg.toNat = n) (h : byteCount15 legacy n ≤ 255) :
    acceptCoils legacy e = { e with
      rem := e.arg, bc := BitVec.ofNat 8 (byteCount15 legacy n), len := BitVec.ofNat 9 (6 + byteCount15 legacy n),
      acc := 0, pos := 0, ph := .hdr } := by
  subst harg
  exact if_neg (mt overflow15_iff.mp (Nat.not_lt.mpr h))

theorem acceptRegisters_of_overflow (harg : e.arg.toNat = n) (h : 255 < byteCount16 n) :
    acceptRegisters e = { e with rem := e.arg, flt := 2, ph := .fault } :=
  if_pos (overflow16_iff.mpr (harg ▸ h))

theorem acceptRegisters_of_fit (harg : e.arg.toNat = n) (h : byteCount16 n ≤ 255) :
    acceptRegisters e = { e with
      rem := e.arg, bc := BitVec.ofNat 8 (byteCount16 n), len := BitVec.ofNat 9 (6 + byteCount16 n), ph := .hdr } := by
  subst harg
  exact if_neg (mt overflow16_iff.mp (Nat.not_lt.mpr h))

end

/-- R121, R26: the longest frame has 6 + 255 bytes. -/
theorem accept_len_le {legacy : Bool} {e : Enc} (hph : (accept legacy e).ph = .hdr) :
    (accept legacy e).len.toNat ≤ 261 := by
  obtain ⟨-, haccept⟩ | ⟨-, haccept⟩ | ⟨-, haccept⟩ | ⟨-, -, -, haccept⟩ := accept_cases legacy e <;>
    rw [haccept] at hph ⊢
  · obtain hover | hfit := Nat.lt_or_ge 255 (byteCount15 legacy e.arg.toNat)
    · rw [acceptCoils_of_overflow rfl hover] at hph; cases hph
    · rw [acceptCoils_of_fit rfl hfit, BitVec.toNat_ofNat]; omega
  · obtain hover | hfit := Nat.lt_or_ge 255 (byteCount16 e.arg.toNat)
    · rw [acceptRegisters_of_overflow rfl hover] at hph; cases hph
    · rw [acceptRegisters_of_fit rfl hfit, BitVec.toNat_ofNat]; omega
  · cases hph
  · exact (by decide : (5 : BitVec 9).toNat ≤ 261)

/-- Settles O12: by the form of the command that its code selects. -/
theorem acceptStepLatchesTheCommand : Obligations.AcceptStepLatchesTheCommand := by
  intro s fc a g rest hph hin hcoil
  have hstep := encTick_accept (s := s) (a := a) (ts := rest) (eo := s.encOut) hph (coilRefused_eq_false hcoil)
  rw [← hin] at hstep
  refine ⟨_, hstep, fun h => accept_of_fixed h, fun hfc hover => ?_, fun hfc hfit => ?_, fun hfc hover => ?_,
    fun hfc hfit => ?_, fun hfc => accept_of_illegal (functionCodeOf_eq_none_iff.mpr hfc), accept_len_le⟩
  · exact (accept_of_coils hfc).trans (acceptCoils_of_overflow rfl hover)
  · exact (accept_of_coils hfc).trans (acceptCoils_of_fit rfl hfit)
  · exact (accept_of_registers hfc).trans (acceptRegisters_of_overflow rfl hover)
  · exact (accept_of_registers hfc).trans (acceptRegisters_of_fit rfl hfit)

/-! ## The header step -/

/-- R122: the header of the command in the registers, as a list of bytes. -/
def headerBytes (e : Enc) : List Byte :=
  [e.fc, hiByte e.addr, loByte e.addr, hiByte (headerField2 e), loByte (headerField2 e)] ++
    if e.fc = 0x0F ∨ e.fc = 0x10 then [e.bc] else []

theorem headerBytes_length (e : Enc) : (headerBytes e).length = headerLength e.fc := by
  unfold headerBytes headerLength
  split_ifs <;> rfl

/-- R122: `hdr(IDX)` is the byte of the header at `IDX`. -/
theorem headerByte_eq_getElem? (e : Enc) : headerByte e = (headerBytes e)[e.idx.toNat]? := by
  unfold headerByte
  split_ifs with hend h0 h1 h2 h3 h4
  · exact (List.getElem?_eq_none (headerBytes_length e ▸ hend)).symm
  · rw [h0]; rfl
  · rw [h1]; rfl
  · rw [h2]; rfl
  · rw [h3]; rfl
  · rw [h4]; rfl
  · unfold headerLength at hend
    split_ifs at hend with hfc
    · have h5 : e.idx.toNat = 5 := by bv_omega
      rw [headerBytes, if_pos hfc, h5]; rfl
    · bv_omega

theorem headerBytes_of_fixed {e : Enc} (h : ¬ (e.fc = 0x0F ∨ e.fc = 0x10)) :
    headerBytes e = [e.fc, hiByte e.addr, loByte e.addr, hiByte (headerField2 e), loByte (headerField2 e)] := by
  rw [headerBytes, if_neg h, List.append_nil]

/-- R88: the value field of function 5. -/
theorem headerField2_of_coil {e : Enc} {v : Bool} (hfc : e.fc = 0x05) (harg : e.arg = coilArg v) :
    headerField2 e = coilWord v := by
  rw [headerField2, if_pos hfc, harg]
  cases v <;> rfl

theorem afterHeader_eq {e : Enc} (h : e.idx.toNat < headerLength e.fc) :
    afterHeader e = { e with
      idx := e.idx + 1
      ph := if e.idx.toNat + 1 < headerLength e.fc then e.ph else afterEmit { e with idx := e.idx + 1 } } := by
  have hlength : headerLength e.fc ≤ 6 := by unfold headerLength; split_ifs <;> omega
  have hsucc := toNat_succ (x := e.idx) (by omega)
  by_cases hinner : e.idx.toNat + 1 < headerLength e.fc
  · rw [afterHeader_of_inner (by omega), if_pos hinner]
  · rw [afterHeader_of_last (by omega), if_neg hinner]; rfl

/-- Settles O13: the byte at `IDX`, then the phase by whether the header has another byte. -/
theorem headerStepPutsTheByteAtIdx : Obligations.HeaderStepPutsTheByteAtIdx := by
  intro s byte hph hroom f2 hdr hbyte
  have hhdr : hdr = headerBytes s.enc := rfl
  rw [hhdr] at hbyte ⊢
  have hlt : s.enc.idx.toNat < headerLength s.enc.fc :=
    headerBytes_length s.enc ▸ (List.getElem?_eq_some_iff.mp hbyte).1
  have hstep := encTick_hdr (ei := s.encIn) hph ((headerByte_eq_getElem? s.enc).trans hbyte) hroom
  rw [afterHeader_eq hlt, hph, ← headerBytes_length] at hstep
  exact hstep

/-! ## A fault delivered, and its values drained -/

/-- R124: the value is gone, and the last one ends the drain. -/
theorem afterDrain_eq {e : Enc} :
    afterDrain e = { e with rem := e.rem - 1, ph := if e.rem - 1 = 0 then .idle else e.ph } := by
  simp only [afterDrain]
  split_ifs <;> rfl

/-- Settles O16: the two steps after a fault is raised. -/
theorem faultStepDeliversAndDrains : Obligations.FaultStepDeliversAndDrains := by
  refine fun s => ⟨fun hph hroom => encTick_fault (ei := s.encIn) hph hroom, fun v rest hph hrem hin hcoil => ?_⟩
  have hstep := encTick_drain (s := s) (ts := rest) (eo := s.encOut) hph hrem (coilRefused_eq_false hcoil)
  have hlast : s.enc.rem - 1 = 0 ↔ s.enc.rem = 1 := by bv_omega
  rw [← hin, afterDrain_eq, hph] at hstep
  simp only [hlast] at hstep
  exact hstep

end Sys2Proof.Machine
end

section
/-! PROOFS. EncCompletion.lean: ENC in mid-transaction, run to its end: the tokens it takes, the tokens it puts, the
registers it ends with and the number of steps, from each part of a frame (R122, R125, R161, R162, R165) and from a fault
(R123, R124). -/

namespace Sys2Proof.Machine

/-! ## To the end of the transaction -/

/-- From registers `e` ENC ends its transaction in `k` steps with registers `e'`: it takes the tokens `ts` from `ENC_IN` and
puts the tokens `out` on `ENC_OUT`, whatever else the two channels hold, while there is room. The rest of the state is that
of `s`. -/
inductive Completes (s : State) : Nat → Enc → List EncIn → List EncOut → Enc → Prop
  | done {e : Enc} (hph : e.ph = .idle) : Completes s 0 e [] [] e
  | take {k : Nat} {e e₁ e' : Enc} {x : EncIn} {ts : List EncIn} {out : List EncOut} (hph : e.ph ≠ .idle)
      (hstep : ∀ ei eo, encTick (encAt s e (x :: ei) eo) = .moved (encAt s e₁ ei eo))
      (h : Completes s k e₁ ts out e') : Completes s (k + 1) e (x :: ts) out e'
  | put {k : Nat} {e e₁ e' : Enc} {x : EncOut} {ts : List EncIn} {out : List EncOut} (hph : e.ph ≠ .idle)
      (hstep : ∀ ei eo, hasRoom s.cfg.capEncOut eo.length = true →
        encTick (encAt s e ei eo) = .moved (encAt s e₁ ei (eo ++ [x])))
      (h : Completes s k e₁ ts out e') : Completes s (k + 1) e ts (x :: out) e'

variable {s : State} {k : Nat} {e e₁ e' : Enc} {ts : List EncIn} {bs : List Byte}

/-- R55: the step into `e` and the `k` steps after it are the transaction. -/
theorem Completes.finishes {u : State} {ts rest : List EncIn} {out eo : List EncOut}
    (h : Completes s k e ts out e') (hu : encTick u = .moved (encAt s e (ts ++ rest) eo))
    (hroom : roomFor s.cfg.capEncOut eo.length out.length) : EncFinishes (k + 1) u (encAt s e' rest (eo ++ out)) := by
  induction h generalizing u eo with
  | done hph =>
    rw [List.append_nil]
    exact .of_last hu hph
  | take hph hstep h ih => exact .cons hu hph (ih (hstep _ eo) hroom)
  | @put k e e₁ e' x ts out hph hstep h ih =>
    have hlater : roomFor s.cfg.capEncOut (eo ++ [x]).length out.length := by
      rw [List.length_append]
      exact roomFor_shift hroom (by simp [Nat.add_comm])
    have hrest := ih (hstep (ts ++ rest) eo (hasRoom_of_roomFor hroom)) hlater
    rw [List.append_assoc] at hrest
    exact .cons hu hph hrest

/-- ENC, in `IDLE` with registers `e`, does a whole command in `k` steps. -/
def Transacts (s : State) (k : Nat) (e : Enc) (ts : List EncIn) (out : List EncOut) (e' : Enc) : Prop :=
  ∀ rest eo, roomFor s.cfg.capEncOut eo.length out.length →
    EncFinishes k (encAt s e (ts ++ rest) eo) (encAt s e' rest (eo ++ out))

theorem Completes.transacts {fc : Byte} {a g : U16} {out : List EncOut}
    (h : Completes s k (accept s.cfg.legacyByteCount (latch fc a g e)) ts out e')
    (hph : e.ph = .idle) (hc : commandRefused fc g = false) : Transacts s (k + 1) e (.c fc a g :: ts) out e' :=
  fun _ _ hroom => h.finishes (encTick_accept hph hc) hroom

/-! ## Putting a byte of the frame -/

theorem pduTokens_cons (x : Byte) (bs : List Byte) : pduTokens (x :: bs) = .b x bs.isEmpty :: pduTokens bs := by
  cases bs <;> rfl

/-- R122: `last` is on the byte after which `bs` holds none. -/
theorem byteToken_of_left (hlen : e.idx.toNat + (bs.length + 1) = e.len.toNat) (x : Byte) :
    byteToken e x = .b x bs.isEmpty := by
  rw [byteToken, lastByte, ← hlen]
  cases bs <;> simp

theorem Completes.byte {x : Byte} (h : Completes s k e₁ ts (pduTokens bs) e') (hph : e.ph ≠ .idle)
    (hlen : e.idx.toNat + (bs.length + 1) = e.len.toNat)
    (hstep : ∀ ei eo, hasRoom s.cfg.capEncOut eo.length = true →
      encTick (encAt s e ei eo) = .moved (encAt s e₁ ei (eo ++ [byteToken e x]))) :
    Completes s (k + 1) e ts (pduTokens (x :: bs)) e' := by
  rw [pduTokens_cons, ← byteToken_of_left hlen]
  exact .put hph hstep h

/-! ## The phase that `after_emit()` gives -/

theorem afterEmit_of_end (h : e.idx.toNat = e.len.toNat) : afterEmit e = .idle :=
  afterEmit_eq_idle_iff.mpr (BitVec.eq_of_toNat_eq h)

theorem afterEmit_of_rem (hidx : e.idx.toNat < e.len.toNat) (hrem : e.rem ≠ 0) : afterEmit e = .fetch := by
  rw [afterEmit, if_neg (fun h => hidx.ne (congrArg BitVec.toNat h)), if_neg hrem]

theorem afterEmit_of_rem_zero (hidx : e.idx.toNat < e.len.toNat) (hrem : e.rem = 0) : afterEmit e = .pad := by
  rw [afterEmit, if_neg (fun h => hidx.ne (congrArg BitVec.toNat h)), if_pos hrem]

theorem toNat_succ_of_lt {x y : BitVec 9} (h : x.toNat < y.toNat) : (x + 1).toNat = x.toNat + 1 :=
  toNat_succ (by omega)

theorem ne_zero_of_toNat_eq_succ {x : BitVec 16} {n : Nat} (h : x.toNat = n + 1) : x ≠ 0 := by
  rintro rfl; cases h

/-- R125: the registers with `IDX` at `i` and the phase that `after_emit()` gives there. -/
def resumeAt (i : BitVec 9) (e : Enc) : Enc := { e with idx := i, ph := afterEmit { e with idx := i } }

theorem afterByte_eq_resumeAt (e : Enc) : afterByte e = resumeAt (e.idx + 1) e := rfl

/-! ## The header -/

/-- R122, R125: the bytes `hs` of the header are still due, then the bytes `bs`. -/
theorem completes_header {hs bs : List Byte} (hph : e.ph = .hdr) (hne : hs ≠ [])
    (hdrop : (headerBytes e).drop e.idx.toNat = hs)
    (hlen : e.idx.toNat + (hs.length + bs.length) = e.len.toNat)
    (h : Completes s k (resumeAt (BitVec.ofNat 9 (headerLength e.fc)) e) ts (pduTokens bs) e') :
    Completes s (hs.length + k) e ts (pduTokens (hs ++ bs)) e' := by
  induction hs generalizing e with
  | nil => exact absurd rfl hne
  | cons x hs ih =>
    have hdue : headerLength e.fc - e.idx.toNat = hs.length + 1 := by
      rw [← headerBytes_length, ← List.length_drop, hdrop, List.length_cons]
    rw [List.length_cons] at hlen ⊢
    have hsucc : (e.idx + 1).toNat = e.idx.toNat + 1 := toNat_succ_of_lt (y := e.len) (by omega)
    have hbyte : headerByte e = some x := by
      rw [headerByte_eq_getElem?, ← List.head?_drop, hdrop, List.head?_cons]
    have hrest : Completes s (hs.length + k) (afterHeader e) ts (pduTokens (hs ++ bs)) e' := by
      cases hs with
      | nil =>
        rw [List.length_nil] at hdue ⊢
        have hlast : (e.idx + 1).toNat = headerLength e.fc := by omega
        have hend : e.idx + 1 = BitVec.ofNat 9 (headerLength e.fc) := by
          rw [← hlast, BitVec.ofNat_toNat, BitVec.setWidth_eq]
        rw [afterHeader_of_last hlast, afterByte_eq_resumeAt, hend, Nat.zero_add]
        exact h
      | cons y hs =>
        rw [List.length_cons] at hdue
        have hdrop' : (headerBytes e).drop (e.idx + 1).toNat = y :: hs := by
          rw [hsucc, ← List.tail_drop, hdrop, List.tail_cons]
        rw [afterHeader_of_inner (by omega)]
        exact ih (e := { e with idx := e.idx + 1 }) hph (List.cons_ne_nil y hs) hdrop' (by simp only [hsucc]; omega) h
    rw [Nat.add_right_comm]
    exact hrest.byte (by rw [hph]; nofun) (by rw [List.length_append]; omega) fun ei eo => encTick_hdr hph hbyte

/-- R122: a frame is the header and the bytes after it. -/
theorem completes_frame (hph : e.ph = .hdr) (hidx : e.idx = 0)
    (hlen : headerLength e.fc + bs.length = e.len.toNat)
    (h : Completes s k (resumeAt (BitVec.ofNat 9 (headerLength e.fc)) e) ts (pduTokens bs) e') :
    Completes s (headerLength e.fc + k) e ts (pduTokens (headerBytes e ++ bs)) e' := by
  have hidx0 : e.idx.toNat = 0 := congrArg BitVec.toNat hidx
  rw [← headerBytes_length]
  exact completes_header hph (by simp [headerBytes]) (by rw [hidx0, List.drop_zero])
    (by rw [hidx0, headerBytes_length, Nat.zero_add, hlen]) h

/-! ## After the header: zeros, registers, coils -/

/-- R162: with every value taken, all that is left of the frame is zero bytes. -/
theorem completes_zeros {n : Nat} (hph : e.ph = afterEmit e) (hrem : e.rem = 0)
    (hlen : e.idx.toNat + n = e.len.toNat) :
    Completes s n e [] (pduTokens (List.replicate n 0)) { e with idx := e.len, ph := .idle } := by
  induction n generalizing e with
  | zero =>
    have hidle : e.ph = .idle := hph.trans (afterEmit_of_end hlen)
    have hidx : e.idx = e.len := BitVec.eq_of_toNat_eq hlen
    cases e
    cases hidle
    cases hidx
    exact .done rfl
  | succ n ih =>
    have hpad : e.ph = .pad := hph.trans (afterEmit_of_rem_zero (by omega) hrem)
    have hsucc := toNat_succ_of_lt (x := e.idx) (y := e.len) (by omega)
    have hrest := ih (e := afterByte e) rfl hrem (by simp only [afterByte_eq_resumeAt, resumeAt, hsucc]; omega)
    exact hrest.byte (by rw [hpad]; nofun) (by rw [List.length_replicate]; omega) fun ei eo => encTick_pad hpad

/-- R165: one register: the step that takes it, and its two bytes. -/
theorem Completes.register {v : U16}
    (h : Completes s k (resumeAt (e.idx + 2) { e with val := v, rem := e.rem - 1 }) ts (pduTokens bs) e')
    (hph : e.ph = .fetch) (hfc : e.fc = 0x10) (hrem : e.rem ≠ 0) (hlen : e.idx.toNat + (bs.length + 2) = e.len.toNat) :
    Completes s (k + 3) e (.v v :: ts) (pduTokens (be16 v ++ bs)) e' := by
  have hidx : e.idx + 2 = e.idx + 1 + 1 := by bv_omega
  rw [hidx] at h
  have hlo := h.byte (e := { e with val := v, rem := e.rem - 1, idx := e.idx + 1, ph := .lo }) (x := loByte v) nofun
    (by simp only [toNat_succ_of_lt (x := e.idx) (y := e.len) (by omega)]; omega) (fun ei eo => encTick_lo rfl)
  have hhi := hlo.byte (e := fetchRegister v e) (x := hiByte v) nofun hlen (fun ei eo => encTick_hi rfl)
  exact .take (by rw [hph]; nofun) (fun ei eo => encTick_fetchRegister hph hfc hrem) hhi

/-- R165: the registers `vs` are still to take. -/
theorem completes_registers {vs : List U16} (hph : e.ph = afterEmit e) (hfc : e.fc = 0x10)
    (hrem : e.rem.toNat = vs.length) (hlen : e.idx.toNat + (vs.flatMap be16).length = e.len.toNat) :
    Completes s (vs.length + (vs.flatMap be16).length) e (vs.map .v) (pduTokens (vs.flatMap be16))
      { e with idx := e.len, rem := 0, val := vs.getLastD e.val, ph := .idle } := by
  induction vs generalizing e with
  | nil =>
    have hrem0 : e.rem = 0 := BitVec.eq_of_toNat_eq hrem
    have hzeros := completes_zeros (s := s) (n := 0) hph hrem0 hlen
    rwa [← hrem0]
  | cons v vs ih =>
    have hcount : ((v :: vs).flatMap be16).length = (vs.flatMap be16).length + 2 := by
      rw [List.flatMap_cons, List.length_append, Nat.add_comm]; rfl
    rw [hcount] at hlen ⊢
    rw [List.length_cons] at hrem
    have hrem0 := ne_zero_of_toNat_eq_succ hrem
    have hrest := ih (e := resumeAt (e.idx + 2) { e with val := v, rem := e.rem - 1 }) rfl hfc
      (by simp only [resumeAt, toNat_pred hrem0]; omega) (by simp only [resumeAt]; bv_omega)
    rw [List.length_cons, Nat.add_add_add_comm, List.getLastD_cons]
    exact hrest.register (hph.trans (afterEmit_of_rem (by omega) hrem0)) hfc hrem0 hlen

/-- R122, R165: a function 16 frame from its first byte. -/
theorem completes_registerFrame {vs : List U16} (hph : e.ph = .hdr) (hidx : e.idx = 0)
    (hfc : e.fc = 0x10) (hrem : e.rem.toNat = vs.length) (hlen : 6 + (vs.flatMap be16).length = e.len.toNat) :
    Completes s (6 + (vs.length + (vs.flatMap be16).length)) e (vs.map .v) (pduTokens (headerBytes e ++ vs.flatMap be16))
      { e with idx := e.len, rem := 0, val := vs.getLastD e.val, ph := .idle } := by
  have hheader : headerLength e.fc = 6 := by rw [hfc]; rfl
  rw [← hheader] at hlen ⊢
  refine completes_frame hph hidx hlen ?_
  rw [hheader] at hlen ⊢
  exact completes_registers (e := resumeAt 6 e) rfl hfc hrem hlen

theorem packLoop_ne_nil {acc : Byte} {pos : Nat} (hpos : pos < 8) (v : Bool) (vs : List Bool) :
    packLoop acc pos (v :: vs) ≠ [] := by
  rw [← List.length_pos_iff, packLoop_length _ _ _ hpos, List.length_cons]; omega

/-- R161: a coil that fills the byte, or is the last, ends its group. -/
theorem packLoop_of_flush {acc : Byte} {pos : Nat} {v : Bool} {vs : List Bool} (h : pos = 7 ∨ vs = []) :
    packLoop acc pos (v :: vs) = (acc ||| (coilBit v <<< pos)) :: packLoop 0 0 vs := by
  by_cases hpos : pos = 7
  · rw [packLoop, if_pos hpos]
  · rw [packLoop, if_neg hpos, h.resolve_left hpos]; rfl

theorem fetchCoil_of_flush {v : Bool} (h : e.pos = 7 ∨ e.rem - 1 = 0) :
    fetchCoil v e = { e with acc := e.acc ||| (coilBit v <<< e.pos.toNat), rem := e.rem - 1, ph := .flush } := if_pos h

theorem fetchCoil_of_inner {v : Bool} (h : ¬ (e.pos = 7 ∨ e.rem - 1 = 0)) :
    fetchCoil v e = { e with acc := e.acc ||| (coilBit v <<< e.pos.toNat), rem := e.rem - 1, pos := e.pos + 1 } := if_neg h

/-- R161, R162: the coils `vs` are still to take, and `n` zero bytes follow the last group. With no coil left to take the last
group has been flushed (`hgroup`), so in the end `ACC` and `POS` are 0. -/
theorem completes_coils {vs : List Bool} {n : Nat} (hph : e.ph = afterEmit e) (hfc : e.fc = 0x0F)
    (hrem : e.rem.toNat = vs.length) (hgroup : vs = [] → e.acc = 0 ∧ e.pos = 0)
    (hlen : e.idx.toNat + (packLoop e.acc e.pos.toNat vs ++ List.replicate n 0).length = e.len.toNat) :
    Completes s (vs.length + (packLoop e.acc e.pos.toNat vs ++ List.replicate n 0).length) e
      (vs.map (fun v => .v (coilArg v))) (pduTokens (packLoop e.acc e.pos.toNat vs ++ List.replicate n 0))
      { e with idx := e.len, rem := 0, acc := 0, pos := 0, ph := .idle } := by
  induction vs generalizing e with
  | nil =>
    obtain ⟨hacc, hpos⟩ := hgroup rfl
    have hrem0 : e.rem = 0 := BitVec.eq_of_toNat_eq hrem
    have hend : ({ e with idx := e.len, ph := .idle } : Enc) =
        { e with idx := e.len, rem := 0, acc := 0, pos := 0, ph := .idle } := by rw [hrem0, hacc, hpos]
    have hnone : packLoop e.acc e.pos.toNat [] = [] := by rw [hpos]; rfl
    rw [hnone, List.nil_append, List.length_replicate] at hlen ⊢
    rw [List.length_nil, Nat.zero_add]
    exact hend ▸ completes_zeros hph hrem0 hlen
  | cons v vs ih =>
    rw [List.length_cons] at hrem ⊢
    have hrem0 := ne_zero_of_toNat_eq_succ hrem
    have hrem1 : (e.rem - 1).toNat = vs.length := by rw [toNat_pred hrem0]; omega
    have hlast : e.rem - 1 = 0 ↔ vs = [] := by
      rw [← List.length_eq_zero_iff, ← BitVec.toNat_inj, hrem1]; rfl
    have hopen : e.idx.toNat < e.len.toNat := by
      have := List.length_pos_iff.mpr (packLoop_ne_nil (acc := e.acc) e.pos.isLt v vs)
      rw [List.length_append] at hlen; omega
    have hfetch : afterEmit e = .fetch := afterEmit_of_rem hopen hrem0
    suffices hrest : Completes s (vs.length + (packLoop e.acc e.pos.toNat (v :: vs) ++ List.replicate n 0).length)
        (fetchCoil v e) (vs.map (fun v => .v (coilArg v)))
        (pduTokens (packLoop e.acc e.pos.toNat (v :: vs) ++ List.replicate n 0))
        { e with idx := e.len, rem := 0, acc := 0, pos := 0, ph := .idle } by
      rw [Nat.add_right_comm]
      exact .take (by rw [hph, hfetch]; nofun) (fun ei eo => encTick_fetchCoil (hph.trans hfetch) hfc hrem0) hrest
    by_cases hflush : e.pos = 7 ∨ e.rem - 1 = 0
    · rw [packLoop_of_flush (hflush.imp (congrArg BitVec.toNat) hlast.mp), List.cons_append] at hlen ⊢
      rw [fetchCoil_of_flush hflush]
      have hleft : (e.idx + 1).toNat + (packLoop 0 0 vs ++ List.replicate n 0).length = e.len.toNat := by
        rw [toNat_succ_of_lt hopen, Nat.add_right_comm]; exact hlen
      have hrest := ih (e := resumeAt (e.idx + 1) { e with acc := 0, pos := 0, rem := e.rem - 1 }) rfl hfc hrem1
        (fun _ => ⟨rfl, rfl⟩) hleft
      exact hrest.byte nofun hlen (fun ei eo => encTick_flush rfl)
    · obtain ⟨hpos7, hmore⟩ := not_or.mp hflush
      have hpos : (e.pos + 1).toNat = e.pos.toNat + 1 := by bv_omega
      rw [packLoop, if_neg (by bv_omega), ← hpos] at hlen ⊢
      rw [fetchCoil_of_inner hflush]
      have hnext : afterEmit { e with rem := e.rem - 1 } = .fetch := afterEmit_of_rem hopen hmore
      exact ih (e := { e with acc := e.acc ||| (coilBit v <<< e.pos.toNat), rem := e.rem - 1, pos := e.pos + 1 })
        (hph.trans (hfetch.trans hnext.symm)) hfc hrem1 (fun h => absurd (hlast.mpr h) hmore) hlen

/-- R122, R161, R162: a function 15 frame from its first byte. -/
theorem completes_coilFrame {legacy : Bool} {vs : List Bool} (hph : e.ph = .hdr) (hidx : e.idx = 0)
    (hfc : e.fc = 0x0F) (hrem : e.rem.toNat = vs.length) (hacc : e.acc = 0) (hpos : e.pos = 0)
    (hlen : 6 + (packed15 legacy vs).length = e.len.toNat) :
    Completes s (6 + (vs.length + (packed15 legacy vs).length)) e (vs.map (fun v => .v (coilArg v)))
      (pduTokens (headerBytes e ++ packed15 legacy vs))
      { e with idx := e.len, rem := 0, acc := 0, pos := 0, ph := .idle } := by
  have hheader : headerLength e.fc = 6 := by rw [hfc]; rfl
  rw [← hheader] at hlen ⊢
  refine completes_frame hph hidx hlen ?_
  have hpack : packed15 legacy vs = packLoop e.acc e.pos.toNat vs ++
      List.replicate (byteCount15 legacy vs.length - (vs.length + 7) / 8) 0 := by
    rw [packed15_eq_pack_append_replicate, ← packLoop_eq_pack, hacc, hpos]; rfl
  rw [hheader, hpack] at hlen ⊢
  exact completes_coils (e := resumeAt 6 e) rfl hfc hrem (fun _ => ⟨hacc, hpos⟩) hlen

/-! ## Faults -/

/-- R124: the values `vs` are still to drain. -/
theorem completes_drain {vs : List U16} (hph : e.ph = if e.rem = 0 then .idle else .drain)
    (hrem : e.rem.toNat = vs.length) (hvs : ∀ v ∈ vs, valueRefused e.fc v = false) :
    Completes s vs.length e (vs.map .v) [] { e with rem := 0, ph := .idle } := by
  induction vs generalizing e with
  | nil =>
    have hrem0 : e.rem = 0 := BitVec.eq_of_toNat_eq hrem
    rw [if_pos hrem0] at hph
    cases e
    cases hph
    cases hrem0
    exact .done rfl
  | cons v vs ih =>
    rw [List.length_cons] at hrem
    have hrem0 := ne_zero_of_toNat_eq_succ hrem
    rw [if_neg hrem0] at hph
    have hrest : Completes s vs.length (afterDrain e) (vs.map .v) [] { e with rem := 0, ph := .idle } := by
      rw [afterDrain_eq, hph]
      exact ih (e := { e with rem := e.rem - 1, ph := if e.rem - 1 = 0 then .idle else .drain }) rfl
        (by rw [toNat_pred hrem0]; omega) (fun w hw => hvs w (List.mem_cons_of_mem v hw))
    exact .take (by rw [hph]; nofun) (fun ei eo => encTick_drain hph hrem0 (hvs v List.mem_cons_self)) hrest

/-- R123: the one token of the fault goes out, then the values are drained. -/
theorem completes_fault {vs : List U16} (hph : e.ph = .fault) (hrem : e.rem.toNat = vs.length)
    (hvs : ∀ v ∈ vs, valueRefused e.fc v = false) :
    Completes s (vs.length + 1) e (vs.map .v) [.f e.flt] { e with rem := 0, ph := .idle } :=
  .put (by rw [hph]; nofun) (fun ei eo hroom => encTick_fault hph hroom)
    (completes_drain (e := afterFault e) rfl hrem hvs)

end Sys2Proof.Machine
end

section
/-! PROOFS. EncTransactions.lean: each form of command from its accept to `IDLE`, held to `encode` (R121, R126, R127), and
commands in a row (R59, R242). -/

namespace Sys2Proof.Machine

/-! ## Whole commands -/

section
variable {s : State} {e : Enc} {a : U16}

/-- R121, R122, R127: the six fixed forms; `f2` is the second field of the header. -/
theorem transacts_fixed {code : FunctionCode} {g f2 : U16} (hph : e.ph = .idle)
    (hcode : 1 ≤ code.value.toNat ∧ code.value.toNat ≤ 6) (hc : commandRefused code.value g = false)
    (hf2 : headerField2 (latch code.value a g e) = f2) :
    Transacts s 6 e [.c code.value a g] (pduTokens (rq5Bytes code a f2))
      { e with fc := code.value, addr := a, arg := g, len := 5, idx := 5, rem := 0, ph := .idle } := by
  have hnot : ¬ (code.value = 0x0F ∨ code.value = 0x10) := by bv_omega
  have hheader : headerLength (acceptFixed (latch code.value a g e)).fc = 5 := if_neg hnot
  have hbytes : headerBytes (acceptFixed (latch code.value a g e)) = rq5Bytes code a f2 := by
    rw [← hf2]; exact headerBytes_of_fixed hnot
  have hdone : Completes s 0 (resumeAt 5 (acceptFixed (latch code.value a g e))) [] (pduTokens [])
      { e with fc := code.value, addr := a, arg := g, len := 5, idx := 5, rem := 0, ph := .idle } := .done rfl
  have hframe := completes_frame (e := acceptFixed (latch code.value a g e)) (bs := []) rfl rfl (by rw [hheader]; rfl)
    (by rw [hheader]; exact hdone)
  rw [hheader, List.append_nil, hbytes] at hframe
  exact Completes.transacts (by rw [accept_of_fixed hcode]; exact hframe) hph hc

/-- R121, R160 to R162, R127: function 15 with a byte_count that fits. -/
theorem transacts_coils {vs : List Bool} (hph : e.ph = .idle)
    (hcount : countOk vs.length = true) (hfit : byteCount15 s.cfg.legacyByteCount vs.length ≤ 255) :
    Transacts s (1 + 6 + vs.length + byteCount15 s.cfg.legacyByteCount vs.length) e
      (Request.writeMultipleCoils a vs).tokens (pduTokens (wmcBytes s.cfg.legacyByteCount a vs))
      { e with
        fc := 0x0F, addr := a, arg := BitVec.ofNat 16 vs.length
        bc := BitVec.ofNat 8 (byteCount15 s.cfg.legacyByteCount vs.length)
        len := BitVec.ofNat 9 (6 + byteCount15 s.cfg.legacyByteCount vs.length)
        idx := BitVec.ofNat 9 (6 + byteCount15 s.cfg.legacyByteCount vs.length)
        rem := 0, acc := 0, pos := 0, ph := .idle } := by
  have harg : (BitVec.ofNat 16 vs.length).toNat = vs.length := toNat_ofNat_of_countOk hcount
  have hlen : 6 + (packed15 s.cfg.legacyByteCount vs).length =
      (BitVec.ofNat 9 (6 + byteCount15 s.cfg.legacyByteCount vs.length)).toNat := by
    rw [packed15_length, BitVec.toNat_ofNat]; omega
  have hsteps : 1 + 6 + vs.length + byteCount15 s.cfg.legacyByteCount vs.length =
      6 + (vs.length + (packed15 s.cfg.legacyByteCount vs).length) + 1 := by
    rw [packed15_length]; omega
  rw [hsteps]
  refine Completes.transacts (fc := 0x0F) ?_ hph rfl
  rw [accept_of_coils rfl, acceptCoils_of_fit harg hfit]
  exact completes_coilFrame rfl rfl rfl harg rfl rfl hlen

/-- R121, R164, R165, R127: function 16 with a byte_count that fits. -/
theorem transacts_registers {vs : List U16} (hph : e.ph = .idle)
    (hcount : countOk vs.length = true) (hfit : byteCount16 vs.length ≤ 255) :
    Transacts s (1 + 6 + vs.length + byteCount16 vs.length) e
      (Request.writeMultipleRegisters a vs).tokens (pduTokens (wmrBytes a vs))
      { e with
        fc := 0x10, addr := a, arg := BitVec.ofNat 16 vs.length, bc := BitVec.ofNat 8 (byteCount16 vs.length)
        len := BitVec.ofNat 9 (6 + byteCount16 vs.length), idx := BitVec.ofNat 9 (6 + byteCount16 vs.length)
        rem := 0, val := vs.getLastD e.val, ph := .idle } := by
  have harg : (BitVec.ofNat 16 vs.length).toNat = vs.length := toNat_ofNat_of_countOk hcount
  have hlen : 6 + (vs.flatMap be16).length = (BitVec.ofNat 9 (6 + byteCount16 vs.length)).toNat := by
    rw [length_flatMap_be16, BitVec.toNat_ofNat]; omega
  have hsteps : 1 + 6 + vs.length + byteCount16 vs.length = 6 + (vs.length + (vs.flatMap be16).length) + 1 := by
    rw [length_flatMap_be16]; omega
  rw [hsteps]
  refine Completes.transacts (fc := 0x10) ?_ hph rfl
  rw [accept_of_registers rfl, acceptRegisters_of_fit harg hfit]
  exact completes_registerFrame rfl rfl rfl harg hlen

/-- R163, R166, R203, R127: a command that faults at the accept. -/
theorem transacts_fault {fc : Byte} {g : U16} {vs : List U16} {flt : BitVec 2} (hph : e.ph = .idle)
    (hc : commandRefused fc g = false) (hvs : ∀ v ∈ vs, valueRefused fc v = false)
    (haccept : accept s.cfg.legacyByteCount (latch fc a g e) =
      { latch fc a g e with rem := BitVec.ofNat 16 vs.length, flt := flt, ph := .fault })
    (hcount : countOk vs.length = true) :
    Transacts s (2 + vs.length) e (.c fc a g :: vs.map .v) [.f flt]
      { e with fc := fc, addr := a, arg := g, idx := 0, rem := 0, flt := flt, ph := .idle } := by
  rw [Nat.add_comm 2]
  refine Completes.transacts ?_ hph hc
  rw [haccept]
  exact completes_fault rfl (toNat_ofNat_of_countOk hcount) hvs

theorem transacts_coils_of_overflow {vs : List Bool} (hph : e.ph = .idle)
    (hcount : countOk vs.length = true) (hover : 255 < byteCount15 s.cfg.legacyByteCount vs.length) :
    Transacts s (2 + vs.length) e (Request.writeMultipleCoils a vs).tokens [.f 2]
      { e with
        fc := 0x0F, addr := a, arg := BitVec.ofNat 16 vs.length, idx := 0, rem := 0, flt := 2, ph := .idle } := by
  have hlen : (vs.map coilArg).length = vs.length := List.length_map _
  have hcoils : ∀ v ∈ vs.map coilArg, valueRefused 0x0F v = false := by
    intro v hv
    obtain ⟨b, -, rfl⟩ := List.mem_map.mp hv
    exact valueRefused_coilArg _ b
  have haccept := (accept_of_coils (legacy := s.cfg.legacyByteCount) (e := latch 0x0F a (BitVec.ofNat 16 vs.length) e)
    rfl).trans (acceptCoils_of_overflow (toNat_ofNat_of_countOk hcount) hover)
  have hfault := transacts_fault (s := s) (vs := vs.map coilArg) hph rfl hcoils (by rw [hlen]; exact haccept)
    (by rw [hlen]; exact hcount)
  rw [hlen, List.map_map] at hfault
  exact hfault

theorem transacts_registers_of_overflow {vs : List U16} (hph : e.ph = .idle)
    (hcount : countOk vs.length = true) (hover : 255 < byteCount16 vs.length) :
    Transacts s (2 + vs.length) e (Request.writeMultipleRegisters a vs).tokens [.f 2]
      { e with
        fc := 0x10, addr := a, arg := BitVec.ofNat 16 vs.length, idx := 0, rem := 0, flt := 2, ph := .idle } :=
  transacts_fault hph rfl (fun v _ => valueRefused_register (by decide) v)
    ((accept_of_registers rfl).trans (acceptRegisters_of_overflow (toNat_ofNat_of_countOk hcount) hover)) hcount

theorem transacts_illegal {fc : Byte} {g : U16} (hph : e.ph = .idle)
    (hfc : functionCodeOf fc = none) :
    Transacts s 2 e [.c fc a g] [.f 1]
      { e with fc := fc, addr := a, arg := g, idx := 0, rem := 0, flt := 1, ph := .idle } :=
  transacts_fault (vs := []) hph (by rw [commandRefused, decide_eq_false (by rintro rfl; cases hfc)]; rfl) (by simp)
    (accept_of_illegal hfc) rfl

/-- R126, R127: every well-formed command. -/
theorem transacts_command {c : Command} (hc : c.wf = true) (hph : e.ph = .idle) :
    ∃ e', e'.ph = .idle ∧ Transacts s (c.steps s.cfg) e c.tokens (c.outcome s.cfg) e' := by
  cases c with
  | illegal fc a g => exact ⟨_, rfl, transacts_illegal hph (Option.isNone_iff_eq_none.mp hc)⟩
  | request r =>
    cases r with
    | readCoils a q => exact ⟨_, rfl, transacts_fixed hph (by decide) rfl rfl⟩
    | readDiscreteInputs a q => exact ⟨_, rfl, transacts_fixed hph (by decide) rfl rfl⟩
    | readHoldingRegisters a q => exact ⟨_, rfl, transacts_fixed hph (by decide) rfl rfl⟩
    | readInputRegisters a q => exact ⟨_, rfl, transacts_fixed hph (by decide) rfl rfl⟩
    | writeSingleCoil a v =>
      exact ⟨_, rfl, transacts_fixed hph (by decide) (by cases v <;> rfl) (headerField2_of_coil rfl rfl)⟩
    | writeSingleRegister a v => exact ⟨_, rfl, transacts_fixed hph (by decide) rfl rfl⟩
    | writeMultipleCoils a vs =>
      simp only [Command.steps, Command.outcome, Request.steps, encodeRequest]
      split_ifs with hover
      · exact ⟨_, rfl, transacts_coils_of_overflow hph hc (overflow15_iff.mp hover)⟩
      · exact ⟨_, rfl, transacts_coils hph hc (byteCount15_le_of_not_overflow hover)⟩
    | writeMultipleRegisters a vs =>
      simp only [Command.steps, Command.outcome, Request.steps, encodeRequest]
      split_ifs with hover
      · exact ⟨_, rfl, transacts_registers_of_overflow hph hc (overflow16_iff.mp hover)⟩
      · exact ⟨_, rfl, transacts_registers hph hc (byteCount16_le_of_not_overflow hover)⟩

end

/-- Settles O26: by the form of the command. -/
theorem tokenMachineMeetsEncode : Obligations.TokenMachineMeetsEncode := by
  intro s c rest hc hph hin hroom
  obtain ⟨e, he, htransacts⟩ := transacts_command (s := s) hc hph
  have hstart : encAt s s.enc (c.tokens ++ rest) s.encOut = s := by rw [← hin]; rfl
  exact ⟨e, he, hstart ▸ (htransacts rest s.encOut hroom).ticks⟩

/-! ## Commands in a row -/

/-- R242: left alone, the units let ENC take its steps. -/
theorem run_of_encTicks {k : Nat} {s t : State} (hturns : s.turns = []) (h : encTicks k s = some t) :
    core.run k s = .next t := by
  induction k generalizing s with
  | zero => cases h; rfl
  | succ k ih =>
    obtain ⟨u, hu, hk⟩ := encTicks_succ_eq_some h
    have hstep : step s = .next u := by simp only [step, hturns, unitsAlone, hu]
    exact (run_succ_of_step hstep k).trans (ih (by rw [encTick_frame hu]; exact hturns) hk)

/-- R59, R126, R127: each command begins where the one before it ended. -/
theorem encTicks_commands {s : State} {cmds : List Command} {rest : List EncIn} (hcmds : ∀ c ∈ cmds, c.wf = true)
    (hph : s.enc.ph = .idle) (hin : s.encIn = cmds.flatMap Command.tokens ++ rest)
    (hroom : roomFor s.cfg.capEncOut s.encOut.length (cmds.flatMap (Command.outcome s.cfg)).length) :
    ∃ e, e.ph = .idle ∧ encTicks (cmds.map (Command.steps s.cfg)).sum s = some { s with
      enc := e, encIn := rest, encOut := s.encOut ++ cmds.flatMap (Command.outcome s.cfg) } := by
  induction cmds generalizing s with
  | nil =>
    obtain rfl : s.encIn = rest := hin
    exact ⟨s.enc, hph, by rw [List.flatMap_nil, List.append_nil]; rfl⟩
  | cons c cmds ih =>
    rw [List.flatMap_cons, List.append_assoc] at hin
    rw [List.flatMap_cons, List.length_append] at hroom
    obtain ⟨hc, hcmds⟩ := List.forall_mem_cons.mp hcmds
    obtain ⟨e₁, he₁, hfirst⟩ := tokenMachineMeetsEncode s c _ hc hph hin (roomFor_mono hroom (by omega))
    obtain ⟨e, he, hlater⟩ := ih (s := { s with
      enc := e₁, encIn := cmds.flatMap Command.tokens ++ rest, encOut := s.encOut ++ c.outcome s.cfg }) hcmds he₁ rfl
      (by rw [List.length_append]; exact roomFor_shift hroom le_rfl)
    refine ⟨e, he, ?_⟩
    rw [List.map_cons, List.sum_cons, encTicks_add, hfirst, List.flatMap_cons, ← List.append_assoc]
    exact hlater

/-- Settles O57: the commands in a row, each step of the units being ENC's. -/
theorem commandsFinishInTheirStepCounts : Obligations.CommandsFinishInTheirStepCounts := by
  intro s cmds hcmds hturns hph hin hroom
  obtain ⟨e, he, hticks⟩ := encTicks_commands (rest := []) hcmds hph (by rw [hin, List.append_nil]) hroom
  exact ⟨e, he, run_of_encTicks hturns hticks⟩

end Sys2Proof.Machine
end

section
/-! PROOFS. FixedRequests.lean: a request run as one instruction does what its transaction does (R55, R59), and the six
fixed forms run so, the four reads among them (R121, R122, R140 to R143). -/

namespace Sys2Proof.Machine

section
variable {s : State} {r : Request}

/-- R59, R127: an instruction whose transaction fits the fuel, from `IDLE`, is that transaction. -/
theorem Transacts.exec {k : Nat} {e' : Enc} {out : List EncOut} (h : Transacts s k s.enc r.tokens out e')
    (hph : s.enc.ph = .idle) (hroom : roomFor s.cfg.capEncOut s.encOut.length out.length)
    (hfuel : k ≤ encFuel (s.setEncIn (r.tokens ++ s.encIn))) :
    exec r.toInstr s = .next (encAt s e' s.encIn (s.encOut ++ out)) := by
  rw [exec_toInstr, runCommand_of_idle hph]
  exact (h s.encIn s.encOut hroom).run hfuel

/-- R121, R122: the six fixed forms as instructions; `f2` is the second field of the header. -/
theorem exec_of_fixed {code : FunctionCode} {a g f2 : U16} (htokens : r.tokens = [.c code.value a g])
    (hcode : 1 ≤ code.value.toNat ∧ code.value.toNat ≤ 6) (haccepted : commandRefused code.value g = false)
    (hf2 : headerField2 (latch code.value a g s.enc) = f2)
    (hph : s.enc.ph = .idle) (hroom : roomFor s.cfg.capEncOut s.encOut.length 5) :
    exec r.toInstr s = .next { s with
      encOut := s.encOut ++ pduTokens (rq5Bytes code a f2)
      enc := { s.enc with fc := code.value, addr := a, arg := g, len := 5, idx := 5, rem := 0 } } := by
  have htransacts := transacts_fixed (s := s) hph hcode haccepted hf2
  rw [← htokens, ← hph] at htransacts
  exact htransacts.exec hph hroom (Nat.le_add_right_of_le (by decide))

end

/-- Settles O18: each read is a fixed form whose second field is its quantity. -/
theorem readRequestsPutTheirFiveBytes : Obligations.ReadRequestsPutTheirFiveBytes := by
  refine fun s a q => ⟨rfl, rfl, rfl, rfl, fun hph hroom => ⟨?_, ?_, ?_, ?_⟩⟩
  · exact exec_of_fixed (r := .readCoils a q) (code := .readCoils) rfl (by decide) rfl rfl hph hroom
  · exact exec_of_fixed (r := .readDiscreteInputs a q) (code := .readDiscreteInputs) rfl (by decide) rfl rfl hph hroom
  · exact exec_of_fixed (r := .readHoldingRegisters a q) (code := .readHoldingRegisters) rfl (by decide) rfl rfl hph hroom
  · exact exec_of_fixed (r := .readInputRegisters a q) (code := .readInputRegisters) rfl (by decide) rfl rfl hph hroom

end Sys2Proof.Machine
end

section
/-! PROOFS. SingleWrites.lean: the two single writes are fixed forms (R150, R151), and ENC's accept refuses a coil that is
not 0 or 1 (R94, R98, R239). -/

namespace Sys2Proof.Machine

theorem commandRefused_coilArg (fc : Byte) (v : Bool) : commandRefused fc (coilArg v) = false := by
  rw [commandRefused, coilOfArg_coilArg, Option.isNone_some, Bool.and_false]

/-- R94, R98: an `arg` of 2 to 65535 carries no coil. -/
theorem commandRefused_of_two_le {g : U16} (h : 2 ≤ g.toNat) : commandRefused 0x05 g = true := by
  rw [commandRefused, coilOfArg_isNone, decide_eq_true h]; rfl

/-- R121, R239: the refusal at the accept. -/
theorem encTick_of_commandRefused {s : State} {fc : Byte} {a g : U16} {rest : List EncIn} (hph : s.enc.ph = .idle)
    (hin : s.encIn = .c fc a g :: rest) (hrefused : commandRefused fc g = true) : encTick s = .refused .coilArgument := by
  simp only [encTick, hph, encIdle, hin, hrefused, if_true]

/-- Settles O19: a fixed form whose second field is the coil's word; an `arg` that carries no coil is refused. -/
theorem writeSingleCoilPutsFFFFor0000 : Obligations.WriteSingleCoilPutsFFFFor0000 := by
  refine ⟨⟨rfl, rfl⟩, fun s a v => ⟨rfl, fun hph hroom => ?_, fun hph g rest hin hg => ?_⟩⟩
  · exact exec_of_fixed (r := .writeSingleCoil a v) (code := .writeSingleCoil) rfl (by decide)
      (commandRefused_coilArg _ v) (headerField2_of_coil rfl rfl) hph hroom
  · exact encTick_of_commandRefused hph hin (commandRefused_of_two_le hg)

/-- Settles O20: a fixed form whose second field is the value. -/
theorem writeSingleRegisterPutsTheValue : Obligations.WriteSingleRegisterPutsTheValue := by
  refine fun s a v => ⟨rfl, fun hph hroom => ?_⟩
  exact exec_of_fixed (r := .writeSingleRegister a v) (code := .writeSingleRegister) rfl (by decide) rfl rfl hph hroom

end Sys2Proof.Machine
end

section
/-! PROOFS. MultipleWrites.lean: the two multiple writes: their token steps (R161, R162, R165), their PDUs and the whole
instruction (R160, R164), the thresholds (R163, R166), no values (R167), and a header that needs no value (R168). -/

namespace Sys2Proof.Machine

/-! ## The token steps -/

/-- R161: `POS` stays when the coil ends its group, and counts up when it does not. -/
theorem fetchCoil_eq (v : Bool) (e : Enc) : fetchCoil v e = { e with
    acc := e.acc ||| (coilBit v <<< e.pos.toNat)
    rem := e.rem - 1
    pos := if e.pos = 7 ∨ e.rem - 1 = 0 then e.pos else e.pos + 1
    ph := if e.pos = 7 ∨ e.rem - 1 = 0 then .flush else e.ph } := by
  by_cases hflush : e.pos = 7 ∨ e.rem - 1 = 0
  · rw [fetchCoil_of_flush hflush, if_pos hflush, if_pos hflush]
  · rw [fetchCoil_of_inner hflush, if_neg hflush, if_neg hflush]

/-- Settles O14: a coil is taken into its group; the group, or the pad byte, goes out. -/
theorem coilStepsFetchFlushAndPad : Obligations.CoilStepsFetchFlushAndPad := by
  refine fun s => ⟨fun v rest hph hfc hrem hin => ?_, fun hph hroom => encTick_flush (ei := s.encIn) hph hroom,
    fun hph hroom => encTick_pad (ei := s.encIn) hph hroom⟩
  have hstep := encTick_fetchCoil (s := s) (v := v) (ts := rest) (eo := s.encOut) hph hfc hrem
  have hlast : s.enc.rem - 1 = 0 ↔ s.enc.rem = 1 := by bv_omega
  rw [← hin, fetchCoil_eq, hph] at hstep
  simp only [hlast] at hstep
  exact hstep

/-- Settles O15: a register is taken, then its two bytes go out. -/
theorem registerStepsFetchHiAndLo : Obligations.RegisterStepsFetchHiAndLo := by
  refine fun s => ⟨fun v rest hph hfc hrem hin => ?_, fun hph hroom => encTick_hi (ei := s.encIn) hph hroom,
    fun hph hroom => encTick_lo (ei := s.encIn) hph hroom⟩
  have hstep := encTick_fetchRegister (s := s) (v := v) (ts := rest) (eo := s.encOut) hph hfc hrem
  rw [← hin] at hstep
  exact hstep

/-! ## The results of `encode` -/

/-- R160, R163. -/
theorem encodeRequest_writeMultipleCoils (cfg : Config) (a : U16) (vs : List Bool) :
    encodeRequest cfg (.writeMultipleCoils a vs) =
      if 255 < byteCount15 cfg.legacyByteCount vs.length then .encFault .overflow
      else .pdu (wmcBytes cfg.legacyByteCount a vs) :=
  if_congr overflow15_iff rfl rfl

/-- R164, R166. -/
theorem encodeRequest_writeMultipleRegisters (cfg : Config) (a : U16) (vs : List U16) :
    encodeRequest cfg (.writeMultipleRegisters a vs) =
      if 255 < byteCount16 vs.length then .encFault .overflow else .pdu (wmrBytes a vs) :=
  if_congr overflow16_iff rfl rfl

theorem ite_encFault_eq_encFault_iff {p : Prop} [Decidable p] {code : EncFaultCode} {bs : List Byte} :
    (if p then EncResult.encFault code else .pdu bs) = .encFault code ↔ p := by
  split_ifs with h <;> simp [h]

/-- R163: 8 * 255 coils fill 255 bytes in the exact setting, and are one too many in the legacy setting. -/
theorem byteCount15_overflow_iff {legacy : Bool} {n : Nat} :
    255 < byteCount15 legacy n ↔ (if legacy then 2040 else 2041) ≤ n := by
  cases legacy
  · change 255 < (n + 7) / 8 ↔ 2041 ≤ n
    omega
  · change 255 < n / 8 + 1 ↔ 2040 ≤ n
    omega

/-- Settles O41: the byte counts that exceed 255. -/
theorem overflowThresholds : Obligations.OverflowThresholds := by
  refine fun cfg a => ⟨fun vs => ?_, fun vs => ?_⟩
  · rw [encodeRequest_writeMultipleCoils, ite_encFault_eq_encFault_iff, byteCount15_overflow_iff]
  · rw [encodeRequest_writeMultipleRegisters, ite_encFault_eq_encFault_iff, byteCount16]
    omega

/-! ## The instructions -/

theorem length_pduTokens (bs : List Byte) : (pduTokens bs).length = bs.length := by
  induction bs with
  | nil => rfl
  | cons x bs ih => rw [pduTokens_cons, List.length_cons, ih, List.length_cons]

section
variable {s : State} {a : U16}

theorem encFuel_of_command {fc : Byte} {g : U16} {ts : List EncIn} (hph : s.enc.ph = .idle) :
    encFuel (s.setEncIn (.c fc a g :: ts)) = 9 + 3 * g.toNat := by
  simp only [encFuel, valuesOwed, State.setEncIn_enc, State.setEncIn_encIn, hph]

/-- R121, R160 to R162: `write_multiple_coils` with a byte_count that fits. -/
theorem exec_writeMultipleCoils {vs : List Bool} (hph : s.enc.ph = .idle) (hcount : vs.length ≤ 65535)
    (hfit : byteCount15 s.cfg.legacyByteCount vs.length ≤ 255)
    (hroom : roomFor s.cfg.capEncOut s.encOut.length (6 + byteCount15 s.cfg.legacyByteCount vs.length)) :
    exec (.writeMultipleCoils a vs) s = .next { s with
      encOut := s.encOut ++ pduTokens (wmcBytes s.cfg.legacyByteCount a vs)
      enc := { s.enc with
        fc := 0x0F, addr := a, arg := BitVec.ofNat 16 vs.length
        bc := BitVec.ofNat 8 (byteCount15 s.cfg.legacyByteCount vs.length)
        len := BitVec.ofNat 9 (6 + byteCount15 s.cfg.legacyByteCount vs.length)
        idx := BitVec.ofNat 9 (6 + byteCount15 s.cfg.legacyByteCount vs.length)
        rem := 0, acc := 0, pos := 0 } } := by
  have htransacts := transacts_coils (s := s) (a := a) hph (decide_eq_true hcount) hfit
  rw [← hph] at htransacts
  refine htransacts.exec hph (by rwa [length_pduTokens, length_wmcBytes]) ?_
  have hbytes : byteCount15 s.cfg.legacyByteCount vs.length ≤ vs.length + 1 := by
    rw [byteCount15_cases]
    split_ifs <;> omega
  have hfuel := encFuel_of_command (s := s) (a := a) (fc := 0x0F) (g := BitVec.ofNat 16 vs.length)
    (ts := vs.map (fun v => .v (coilArg v)) ++ s.encIn) hph
  rw [toNat_ofNat_of_countOk (decide_eq_true hcount)] at hfuel
  exact le_of_le_of_eq (by omega) hfuel.symm

/-- R121, R164, R165: `write_multiple_registers` with a byte_count that fits. -/
theorem exec_writeMultipleRegisters {vs : List U16} (hph : s.enc.ph = .idle) (hfit : vs.length ≤ 127)
    (hroom : roomFor s.cfg.capEncOut s.encOut.length (6 + byteCount16 vs.length)) :
    exec (.writeMultipleRegisters a vs) s = .next { s with
      encOut := s.encOut ++ pduTokens (wmrBytes a vs)
      enc := { s.enc with
        fc := 0x10, addr := a, arg := BitVec.ofNat 16 vs.length, bc := BitVec.ofNat 8 (byteCount16 vs.length)
        len := BitVec.ofNat 9 (6 + byteCount16 vs.length), idx := BitVec.ofNat 9 (6 + byteCount16 vs.length)
        rem := 0, val := vs.getLastD s.enc.val } } := by
  have hcount : countOk vs.length = true := decide_eq_true (by omega)
  have htransacts := transacts_registers (s := s) (a := a) hph hcount (by rw [byteCount16]; omega)
  rw [← hph] at htransacts
  refine htransacts.exec hph (by rwa [length_pduTokens, length_wmrBytes]) ?_
  have hfuel := encFuel_of_command (s := s) (a := a) (fc := 0x10) (g := BitVec.ofNat 16 vs.length)
    (ts := vs.map .v ++ s.encIn) hph
  rw [toNat_ofNat_of_countOk hcount] at hfuel
  exact le_of_le_of_eq (by rw [byteCount16]; omega) hfuel.symm

end

/-- Settles O21: the result of `encode`, the packed field, and the instruction. -/
theorem writeMultipleCoilsPutsThePackedPdu : Obligations.WriteMultipleCoilsPutsThePackedPdu := by
  refine ⟨encodeRequest_writeMultipleCoils, fun legacy vs => ?_, fun _ _ _ => exec_writeMultipleCoils⟩
  obtain ⟨hlength, -, hfield, hexact, -, -⟩ := packedFieldHasByteCountBytes legacy vs
  exact ⟨hlength, hfield, hexact⟩

/-- Settles O22: the result of `encode`, and the instruction. -/
theorem writeMultipleRegistersPutsTheRegisters : Obligations.WriteMultipleRegistersPutsTheRegisters :=
  ⟨encodeRequest_writeMultipleRegisters, fun _ _ _ => exec_writeMultipleRegisters⟩

/-! ## No values -/

theorem byteCount15_zero_le (legacy : Bool) : byteCount15 legacy 0 ≤ 1 := by
  cases legacy <;> decide

/-- R167: the PDU of function 15 with no coil. -/
theorem wmcBytes_nil (legacy : Bool) (a : U16) : wmcBytes legacy a [] =
    if legacy then [0x0F, hiByte a, loByte a, 0x00, 0x00, 0x01, 0x00] else [0x0F, hiByte a, loByte a, 0x00, 0x00, 0x00] := by
  cases legacy <;> rfl

theorem pduTokens_wmcBytes_nil (legacy : Bool) (a : U16) : pduTokens (wmcBytes legacy a []) =
    [.b 0x0F false, .b (hiByte a) false, .b (loByte a) false, .b 0x00 false, .b 0x00 false] ++
      (if legacy then [.b 0x01 false, .b 0x00 true] else [.b 0x00 true]) := by
  cases legacy <;> rfl

/-- Settles O40: the results and the instructions above, with no values. -/
theorem emptySequencesAreEncoded : Obligations.EmptySequencesAreEncoded := by
  refine ⟨fun cfg a => ⟨?_, rfl⟩, fun s a hph hroom => ⟨?_, ?_⟩⟩
  · have hfit : ¬ 255 < byteCount15 cfg.legacyByteCount ([] : List Bool).length :=
      Nat.not_lt.mpr ((byteCount15_zero_le _).trans (by decide))
    rw [encodeRequest_writeMultipleCoils, if_neg hfit, wmcBytes_nil]
  · have hbytes := byteCount15_zero_le s.cfg.legacyByteCount
    have hexec := exec_writeMultipleCoils (a := a) (vs := []) hph (Nat.zero_le _) (hbytes.trans (by decide))
      (roomFor_mono hroom (Nat.add_le_add_left hbytes 6))
    rw [pduTokens_wmcBytes_nil, ← List.append_assoc] at hexec
    refine ⟨_, ?_, hexec⟩
    exact hph
  · have hexec := exec_writeMultipleRegisters (a := a) (vs := []) hph (Nat.zero_le _) (roomFor_mono hroom (by decide))
    refine ⟨_, ?_, hexec⟩
    exact hph

/-! ## A header without values -/

section
variable {s : State} {e : Enc}

/-- R122, R125: the registers with `IDX` at `i`, in the header or just after it. -/
def headerAt (i : BitVec 9) (e : Enc) : Enc :=
  { e with idx := i, ph := if i.toNat < headerLength e.fc then .hdr else afterEmit { e with idx := i } }

theorem headerAt_zero (hph : e.ph = .hdr) (hidx : e.idx = 0) : headerAt 0 e = e := by
  have hinside : (0 : BitVec 9).toNat < headerLength e.fc := by
    rw [headerLength]; split_ifs <;> decide
  rw [headerAt, if_pos hinside, ← hph, ← hidx]

theorem afterHeader_headerAt {i : BitVec 9} (h : i.toNat < headerLength e.fc) (hlen : i.toNat < e.len.toNat) :
    afterHeader (headerAt i e) = headerAt (i + 1) e := by
  rw [afterHeader_eq (e := headerAt i e) h]
  simp only [headerAt, if_pos h, toNat_succ_of_lt hlen]
  rfl

/-- R122, R168: the bytes `hs` that are due of the header of a longer frame go out one a step, whatever stands on `ENC_IN`. -/
theorem encTicks_header {hs : List Byte} {i : BitVec 9} {ei : List EncIn} {eo : List EncOut}
    (hdrop : (headerBytes e).drop i.toNat = hs) (hdue : i.toNat + hs.length = headerLength e.fc)
    (hopen : headerLength e.fc < e.len.toNat) (hroom : roomFor s.cfg.capEncOut eo.length hs.length) :
    encTicks hs.length (encAt s (headerAt i e) ei eo) =
      some (encAt s (headerAt (BitVec.ofNat 9 (headerLength e.fc)) e) ei (eo ++ hs.map (.b · false))) := by
  induction hs generalizing i eo with
  | nil =>
    have hend : i.toNat = headerLength e.fc := hdue
    rw [← hend, BitVec.ofNat_toNat, BitVec.setWidth_eq, List.map_nil, List.append_nil]
    rfl
  | cons x hs ih =>
    rw [List.length_cons] at hdue hroom ⊢
    have hinside : i.toNat < headerLength e.fc := by omega
    have hsucc : (i + 1).toNat = i.toNat + 1 := toNat_succ_of_lt (y := e.len) (by omega)
    have hbyte : headerByte (headerAt i e) = some x := by
      rw [headerByte_eq_getElem?, ← List.head?_drop]
      exact congrArg List.head? hdrop
    have hinner : lastByte i e.len = false := decide_eq_false (by omega)
    have hstep : encTick (encAt s (headerAt i e) ei eo) =
        .moved (encAt s (afterHeader (headerAt i e)) ei (eo ++ [.b x (lastByte i e.len)])) :=
      encTick_hdr (if_pos hinside) hbyte (hasRoom_of_roomFor hroom)
    rw [hinner, afterHeader_headerAt hinside (by omega)] at hstep
    have hdrop' : (headerBytes e).drop (i + 1).toNat = hs := by
      rw [hsucc, ← List.tail_drop, hdrop, List.tail_cons]
    have hroom' : roomFor s.cfg.capEncOut (eo ++ [EncOut.b x false]).length hs.length := by
      rw [List.length_append]
      exact roomFor_shift hroom (Nat.add_comm 1 _).le
    rw [encTicks_succ hstep, ih hdrop' (by omega) hroom', List.append_assoc]
    rfl

/-- R121, R168: a command with registers `e` after its accept, which owes values and has none on `ENC_IN`. -/
theorem header_then_waits {fc : Byte} {a n : U16} (hph : s.enc.ph = .idle) (hin : s.encIn = [.c fc a n])
    (hroom : roomFor s.cfg.capEncOut s.encOut.length 6) (haccepted : commandRefused fc n = false)
    (haccept : accept s.cfg.legacyByteCount (latch fc a n s.enc) = e) (hhdr : e.ph = .hdr) (hidx : e.idx = 0)
    (hlength : headerLength e.fc = 6) (hrem : e.rem ≠ 0) (hopen : 6 < e.len.toNat) :
    ∃ t, encTicks 7 s = some t ∧ encTick t = .waiting ∧ t.encOut = s.encOut ++ (headerBytes e).map (.b · false) := by
  have hbytes : (headerBytes e).length = 6 := (headerBytes_length e).trans hlength
  have hstep := encTick_accept (s := s) (a := a) (ts := []) (eo := s.encOut) hph haccepted
  rw [← hin, haccept, ← headerAt_zero hhdr hidx] at hstep
  have hticks := encTicks_header (s := s) (e := e) (hs := headerBytes e) (i := 0) (ei := []) (eo := s.encOut) rfl
    (by rw [hbytes, hlength]; rfl) (by rwa [hlength]) (by rwa [hbytes])
  rw [hbytes, hlength] at hticks
  have hfetch : (headerAt 6 e).ph = .fetch := by
    rw [headerAt, hlength]
    exact afterEmit_of_rem (e := { e with idx := 6 }) hopen hrem
  exact ⟨_, (encTicks_succ hstep 6).trans hticks, encTick_eq_waiting_iff.mpr (.inl ⟨.inr (.inl hfetch), rfl⟩), rfl⟩

end

/-- Settles O25: the accept of either function, then its header. -/
theorem headerNeedsNoValueToken : Obligations.HeaderNeedsNoValueToken := by
  intro s a n hph hn hroom
  have hpos := toNat_pos hn
  refine ⟨fun hin hfit => ?_, fun hin hcount => ?_⟩
  · have hbytes : 0 < byteCount15 s.cfg.legacyByteCount n.toNat := by
      rw [byteCount15_cases]; omega
    have haccept := (accept_of_coils (e := latch 0x0F a n s.enc) rfl).trans (acceptCoils_of_fit (n := n.toNat) rfl hfit)
    exact header_then_waits hph hin hroom rfl haccept rfl rfl rfl hn (by rw [BitVec.toNat_ofNat]; omega)
  · have hfit : byteCount16 n.toNat ≤ 255 := by rw [byteCount16]; omega
    have haccept := (accept_of_registers (legacy := s.cfg.legacyByteCount) (e := latch 0x10 a n s.enc) rfl).trans
      (acceptRegisters_of_fit (n := n.toNat) rfl hfit)
    exact header_then_waits hph hin hroom rfl haccept rfl rfl rfl hn (by rw [BitVec.toNat_ofNat, byteCount16]; omega)

end Sys2Proof.Machine
end

section
/-! PROOFS. Responses.lean: DEC's steps from a frame's first token to its result, the registers they leave and the
result they put, which is `decode`'s (R180 to R187), and the two responses as instructions (R85, R86, R188). -/

namespace Sys2Proof.Machine

/-! ## The registers and the result -/

/-- R184: what a byte does to each register. -/
theorem receiveByte_eq (byte : Byte) (last : Bool) (d : Dec) : receiveByte byte last d = {
    ph := if last then .result else d.ph
    b0 := if d.cnt = 0 then byte else d.b0
    b1 := if d.cnt = 1 then byte else d.b1
    cnt := if d.cnt = 0 then 1 else if d.cnt = 1 then 2 else d.cnt } := by
  by_cases h0 : d.cnt = 0
  · cases last <;> simp [receiveByte, h0]
  · by_cases h1 : d.cnt = 1
    · cases last <;> simp [receiveByte, h1]
    · simp only [receiveByte, if_neg h0, if_neg h1]
      cases last <;> rfl

/-- R180: the exception bit is bit 7. -/
theorem exceptionBit_eq_getLsbD (b : Byte) : exceptionBit b = b.getLsbD 7 := rfl

/-- R180: the clear code is byte 0 under the mask. -/
theorem clearCode_setWidth : ∀ b : Byte, (clearCode b).setWidth 8 = b &&& 0x7F := by decide

/-- Settles O17: the two receiving steps, then the result with bit 7, the mask and the class table written out. -/
theorem decStepsReceiveAndClassify : Obligations.DecStepsReceiveAndClassify := by
  refine fun s => ⟨fun byte last rest hph hin => ?_, fun rest hph hcnt hin => decTick_empty hph hcnt hin,
    fun hph hroom => ?_⟩
  · rw [decTick_byte hph hin, receiveByte_eq, hph]
  · rw [decTick_result hph hroom, resultToken, exceptionBit_eq_getLsbD, clearCode_setWidth]; rfl

/-- After a byte DEC is inside the frame. -/
theorem decIdle_receiveByte (byte : Byte) (last : Bool) (d : Dec) : decIdle (receiveByte byte last d) = false :=
  Bool.eq_false_iff.mpr fun h => receiveByte_cnt_ne_zero byte last d (decIdle_iff.mp h).2

/-- R184: DEC's registers after the bytes `bs` of a frame, none of them marked `last`. -/
def receiveBytes (bs : List Byte) (d : Dec) : Dec := bs.foldl (fun d x => receiveByte x false d) d

@[simp] theorem receiveBytes_nil (d : Dec) : receiveBytes [] d = d := rfl

@[simp] theorem receiveBytes_cons (x : Byte) (bs : List Byte) (d : Dec) :
    receiveBytes (x :: bs) d = receiveBytes bs (receiveByte x false d) := rfl

/-- R184: "later bytes nowhere". -/
theorem receiveBytes_of_cnt_two {d : Dec} (h : d.cnt = 2) (bs : List Byte) : receiveBytes bs d = d := by
  have hdropped : ∀ x, receiveByte x false d = d := fun x => by simp [receiveByte, h]
  induction bs with
  | nil => rfl
  | cons x bs ih => rw [receiveBytes_cons, hdropped, ih]

/-- R184: a frame of two bytes or more leaves its first two. -/
theorem receiveBytes_of_two_le {d : Dec} (hidle : decIdle d = true) (b0 b1 : Byte) (rest : List Byte) :
    receiveBytes (b0 :: b1 :: rest) d = { ph := .recv, b0 := b0, b1 := b1, cnt := 2 } := by
  obtain ⟨hph, hcnt⟩ := decIdle_iff.mp hidle
  have hfirst : receiveByte b0 false d = { ph := .recv, b0 := b0, b1 := d.b1, cnt := 1 } := by
    simp [receiveByte_eq, hph, hcnt]
  rw [receiveBytes_cons, hfirst, receiveBytes_cons]
  exact receiveBytes_of_cnt_two rfl rest

/-- R186, R187: the result of the registers that a frame leaves is `decode`'s, without the payload. -/
theorem resultToken_receiveBytes {d : Dec} (hidle : decIdle d = true) (bs : List Byte) :
    resultToken (receiveBytes bs d) = (decodeResponse bs).token := by
  obtain ⟨-, hcnt⟩ := decIdle_iff.mp hidle
  match bs with
  | [] => rw [receiveBytes_nil, resultToken, hcnt]; rfl
  | [x] => rw [receiveBytes_cons, receiveBytes_nil, resultToken, receiveByte_cnt, hcnt]; rfl
  | b0 :: b1 :: rest =>
    rw [receiveBytes_of_two_le hidle, decodeResponse]
    cases hbit : exceptionBit b0 <;> simp [resultToken, hbit, DecResult.token]

/-! ## The steps of a frame -/

/-- DEC finishes its transaction in exactly `k` steps, ending in `t`, and is inside it after each but the last. -/
inductive DecFinishes : Nat → State → State → Prop
  | last {s t : State} (h : decTick s = .moved t) (ht : decIdle t.dec = true) : DecFinishes 1 s t
  | cons {k : Nat} {s u t : State} (h : decTick s = .moved u) (hu : decIdle u.dec = false) (hk : DecFinishes k u t) :
      DecFinishes (k + 1) s t

theorem DecFinishes.ticks {k : Nat} {s t : State} (h : DecFinishes k s t) : decTicks k s = some t := by
  induction h with
  | last h ht => exact decTicks_succ h 0
  | cons h hu hk ih => exact (decTicks_succ h _).trans ih

/-- A run with enough fuel finishes the transaction. -/
theorem DecFinishes.run {k fuel : Nat} {s t : State} (h : DecFinishes k s t) (hf : k ≤ fuel) :
    decRun fuel s = .next t := by
  induction h generalizing fuel with
  | last h ht =>
    obtain ⟨f, rfl⟩ := Nat.exists_eq_add_of_le' hf
    simp only [decRun, h, ht, if_true]
  | cons h hu hk ih =>
    obtain ⟨f, rfl⟩ := Nat.exists_eq_add_of_le' (Nat.one_le_of_lt hf)
    simp only [decRun, h, hu, Bool.false_eq_true, if_false]
    exact ih (Nat.le_of_succ_le_succ hf)

/-- The state with the result of registers `d` put and the frame ended: the end of every transaction of DEC (R186). -/
def resultPut (d : Dec) (rest : List DecIn) (s : State) : State :=
  { s with dec := { d with ph := .recv, cnt := 0 }, decIn := rest, decOut := s.decOut ++ [resultToken d] }

theorem decFinishes_result {s : State} (hph : s.dec.ph = .result)
    (hroom : hasRoom s.cfg.capDecOut s.decOut.length = true) : DecFinishes 1 s (resultPut s.dec s.decIn s) :=
  .last (decTick_result hph hroom) rfl

/-- R184, R186: the bytes still owed of a frame, then the result. -/
theorem decFinishes_bytes {s : State} {x : Byte} {bs : List Byte} {rest : List DecIn} (hph : s.dec.ph = .recv)
    (hin : s.decIn = byteTokens (x :: bs) ++ rest) (hroom : hasRoom s.cfg.capDecOut s.decOut.length = true) :
    DecFinishes (bs.length + 2) s (resultPut (receiveBytes (x :: bs) s.dec) rest s) := by
  induction bs generalizing s x with
  | nil =>
    exact .cons (decTick_byte hph hin) (decIdle_receiveByte x true s.dec)
      (decFinishes_result (receiveByte_ph x true s.dec) hroom)
  | cons y bs ih =>
    exact .cons (decTick_byte hph hin) (decIdle_receiveByte x false s.dec)
      (ih ((receiveByte_ph x false s.dec).trans hph) rfl hroom)

/-- R185, R187: a whole frame in its step count, `EMPTY` for the frame of no bytes, puts `decode`'s result. -/
theorem decFinishes_frame {s : State} {bs : List Byte} {rest : List DecIn} (hidle : decIdle s.dec = true)
    (hin : s.decIn = frameTokens bs ++ rest) (hroom : roomFor s.cfg.capDecOut s.decOut.length 1) :
    DecFinishes (frameSteps bs) s { s with
      dec := { receiveBytes bs s.dec with ph := .recv, cnt := 0 }
      decIn := rest
      decOut := s.decOut ++ [(decodeResponse bs).token] } := by
  obtain ⟨hph, hcnt⟩ := decIdle_iff.mp hidle
  rw [← resultToken_receiveBytes hidle]
  cases bs with
  | nil => exact .cons (decTick_empty hph hcnt hin) rfl (decFinishes_result rfl (hasRoom_of_roomFor hroom))
  | cons x bs => exact decFinishes_bytes hph hin (hasRoom_of_roomFor hroom)

/-- Settles O35: a whole frame, which ends between frames. -/
theorem tokenMachineMeetsDecode : Obligations.TokenMachineMeetsDecode := by
  intro s bs rest hidle hin hroom
  have hsteps : frameSteps bs = if bs = [] then 2 else bs.length + 1 := by cases bs <;> rfl
  exact ⟨_, rfl, hsteps ▸ (decFinishes_frame hidle hin hroom).ticks⟩

/-! ## The responses as instructions -/

/-- R187: one step for every token of a frame and one for the result. -/
theorem frameTokens_length_succ (bs : List Byte) : (frameTokens bs).length + 1 = frameSteps bs := by
  cases bs with
  | nil => rfl
  | cons x bs => exact congrArg Nat.succ (Laws.Framing.byteTokens_length x bs)

/-- R59, R180: a frame that DEC runs from between frames leaves its first bytes in the registers and puts its result. -/
theorem runFrame_frameTokens {s : State} (hidle : decIdle s.dec = true)
    (hroom : roomFor s.cfg.capDecOut s.decOut.length 1) (bs : List Byte) :
    runFrame (frameTokens bs) s = .next { s with
      dec := { receiveBytes bs s.dec with ph := .recv, cnt := 0 }
      decOut := s.decOut ++ [(decodeResponse bs).token] } := by
  have hfuel : frameSteps bs ≤ (frameTokens bs ++ s.decIn).length + 1 := by
    rw [← frameTokens_length_succ, List.length_append]; omega
  exact (runFrame_of_idle hidle).trans
    ((decFinishes_frame (s := s.setDecIn (frameTokens bs ++ s.decIn)) hidle rfl hroom).run hfuel)

/-- R85: the exception byte of a clear code is that code under a set bit 7. -/
theorem exceptionByte_eq_or : ∀ fc : BitVec 7, ((1 : BitVec 1) ++ fc : BitVec 8) = fc.setWidth 8 ||| 0x80 := by decide

/-- Settles O33: the frame of an exception byte. -/
theorem exceptionResponsePutsItsCodeAndClass : Obligations.ExceptionResponsePutsItsCodeAndClass := by
  intro s fc code extra hidle hroom
  obtain ⟨hbit, hclear⟩ := Laws.Framing.excByte fc
  have hrun := runFrame_frameTokens hidle hroom (((1 : BitVec 1) ++ fc : BitVec 8) :: code :: extra)
  rw [receiveBytes_of_two_le hidle, decodeResponse, if_pos hbit, hclear] at hrun
  rw [← exceptionByte_eq_or]
  exact hrun

/-- Settles O34: the frame of a byte with bit 7 clear. -/
theorem normalResponsePutsItsFunctionCode : Obligations.NormalResponsePutsItsFunctionCode := by
  intro s fc b1 rest hidle hbit hroom
  have hrun := runFrame_frameTokens hidle hroom (fc :: b1 :: rest)
  rwa [receiveBytes_of_two_le hidle, decodeResponse, exceptionBit_eq_getLsbD, hbit] at hrun

end Sys2Proof.Machine
end

section
/-! PROOFS. EncFaults.lean: the two faults of ENC: a multiple write whose byte_count is over 255, as an instruction (R163,
R166, R204), and a command with an illegal function code, which is no request's (R98, R203). -/

namespace Sys2Proof.Machine

section
variable {s : State} {a : U16}

/-- R124, R204: a request of `n` values whose transaction is to put `F(2)` and drain them all, as an instruction. -/
theorem exec_of_overflow {r : Request} {fc : Byte} {n : Nat} {ts : List EncIn} {e' : Enc}
    (htokens : r.tokens = .c fc a (BitVec.ofNat 16 n) :: ts) (hcount : n ≤ 65535)
    (hph : s.enc.ph = .idle) (hroom : roomFor s.cfg.capEncOut s.encOut.length 1)
    (h : Transacts s (2 + n) s.enc r.tokens [.f 2] e') :
    exec r.toInstr s = .next { s with encOut := s.encOut ++ [.f 2], enc := e' } := by
  have hn : (BitVec.ofNat 16 n).toNat = n := toNat_ofNat_of_countOk (decide_eq_true hcount)
  refine h.exec hph hroom ?_
  rw [htokens, List.cons_append, encFuel_of_command hph, hn]
  omega

/-- R163, R204: `write_multiple_coils` with a byte_count over 255. -/
theorem exec_writeMultipleCoils_of_overflow {vs : List Bool} (hph : s.enc.ph = .idle)
    (hroom : roomFor s.cfg.capEncOut s.encOut.length 1) (hcount : vs.length ≤ 65535)
    (hover : 255 < byteCount15 s.cfg.legacyByteCount vs.length) :
    exec (.writeMultipleCoils a vs) s = .next { s with
      encOut := s.encOut ++ [.f 2]
      enc := { s.enc with fc := 0x0F, addr := a, arg := BitVec.ofNat 16 vs.length, idx := 0, rem := 0, flt := 2 } } := by
  have htransacts := transacts_coils_of_overflow (a := a) hph (decide_eq_true hcount) hover
  rw [← hph] at htransacts
  exact exec_of_overflow rfl hcount hph hroom htransacts

/-- R166, R204: `write_multiple_registers` with a byte_count over 255. -/
theorem exec_writeMultipleRegisters_of_overflow {vs : List U16} (hph : s.enc.ph = .idle)
    (hroom : roomFor s.cfg.capEncOut s.encOut.length 1) (hcount : vs.length ≤ 65535)
    (hover : 255 < byteCount16 vs.length) :
    exec (.writeMultipleRegisters a vs) s = .next { s with
      encOut := s.encOut ++ [.f 2]
      enc := { s.enc with fc := 0x10, addr := a, arg := BitVec.ofNat 16 vs.length, idx := 0, rem := 0, flt := 2 } } := by
  have htransacts := transacts_registers_of_overflow (s := s) (a := a) hph (decide_eq_true hcount) hover
  rw [← hph] at htransacts
  exact exec_of_overflow rfl hcount hph hroom htransacts

end

/-- Settles O23: the transaction of either function, which fits the instruction's fuel. -/
theorem overflowPutsOneFaultTokenAndDrains : Obligations.OverflowPutsOneFaultTokenAndDrains :=
  fun _ _ hph hroom => ⟨fun _ => exec_writeMultipleCoils_of_overflow hph hroom,
    fun _ => exec_writeMultipleRegisters_of_overflow hph hroom⟩

/-- R120, R163, R166: the only fault that `encode` gives. -/
theorem eq_overflow_of_encodeRequest {cfg : Config} {r : Request} {code : EncFaultCode}
    (h : encodeRequest cfg r = .encFault code) : code = .overflow := by
  cases r with
  | writeMultipleCoils a vs =>
    rw [encodeRequest_writeMultipleCoils] at h
    split_ifs at h
    cases h; rfl
  | writeMultipleRegisters a vs =>
    rw [encodeRequest_writeMultipleRegisters] at h
    split_ifs at h
    cases h; rfl
  | _ => cases h

/-- Settles O24: the transaction of an illegal command; the fault of a request is another. -/
theorem illegalFunctionPutsFaultOneInTwoSteps : Obligations.IllegalFunctionPutsFaultOneInTwoSteps := by
  refine ⟨fun s fc a g rest hph hin hfc hroom => ?_, fun cfg r h => nomatch eq_overflow_of_encodeRequest h⟩
  have hstart : encAt s s.enc (.c fc a g :: rest) s.encOut = s := by rw [← hin]; rfl
  have hticks := (transacts_illegal (a := a) (g := g) hph hfc rest s.encOut hroom).ticks
  rw [← hph] at hticks
  exact hstart ▸ hticks

end Sys2Proof.Machine
end

section
/-! PROOFS. DecodeClasses.lean: which of its three results `decode` gives, first by the length of its input, then by bit 7
of byte 0 (R180, R202, R209). -/

namespace Sys2Proof.Machine

/-- R180: the clear code is the low seven bits of byte 0. -/
theorem clearCode_eq_extractLsb' (b : Byte) : clearCode b = b.extractLsb' 0 7 :=
  BitVec.setWidth_eq_extractLsb' (by decide)

/-- R180: a frame of two bytes or more, by bit 7 of byte 0. -/
theorem decodeResponse_cons_cons (b0 b1 : Byte) (rest : List Byte) : decodeResponse (b0 :: b1 :: rest) =
    if b0.getLsbD 7 then .exception (b0.extractLsb' 0 7) b1 (classify b1) else .normal b0 (b1 :: rest) := by
  rw [decodeResponse, exceptionBit_eq_getLsbD, clearCode_eq_extractLsb']

/-- Settles O36: frames of no byte, of one, and of two or more with bit 7 of byte 0 clear or set. -/
theorem decodeClassifiesByLengthThenBit7 : Obligations.DecodeClassifiesByLengthThenBit7 := by
  intro bs
  match bs with
  | [] => simp [decodeResponse]
  | [_] => simp [decodeResponse]
  | b0 :: b1 :: rest =>
    rw [decodeResponse_cons_cons]
    cases hbit : b0.getLsbD 7 with
    | false =>
      rw [if_neg Bool.false_ne_true]
      refine ⟨by simp, fun fc payload => ⟨?_, ?_⟩, fun fc code cls => ⟨nofun, ?_⟩⟩
      · rintro ⟨⟩
        exact ⟨Nat.le_add_left 2 _, rfl, hbit⟩
      · rintro ⟨-, ⟨⟩, -⟩
        rfl
      · rintro ⟨_, _, ⟨⟩, hset, -⟩
        cases hbit.symm.trans hset
    | true =>
      rw [if_pos rfl]
      refine ⟨by simp, fun fc payload => ⟨nofun, ?_⟩, fun fc code cls => ⟨?_, ?_⟩⟩
      · rintro ⟨-, ⟨⟩, hclear⟩
        cases hbit.symm.trans hclear
      · rintro ⟨⟩
        exact ⟨b0, rest, rfl, hbit, rfl, rfl⟩
      · rintro ⟨_, _, ⟨⟩, -, rfl, rfl⟩
        rfl

end Sys2Proof.Machine
end

section
/-! PROOFS. RunMoves.lean: what a step within one run is made of (R55, R60, R230, R231): steps of the units, moves of
the host, and resets between transactions; and the two turns that reset the units (R230 to R233). -/

namespace Sys2Proof.Machine

/-! ## The moves of one run -/

/-- A move of the host keeps the four token sequences, and takes nothing off a unit's input. -/
structure HostMove (s t : State) : Prop where
  same : SameTokens s t
  encIn : s.encIn <+: t.encIn
  decIn : s.decIn <+: t.decIn

theorem HostMove.refl (s : State) : HostMove s s := ⟨.refl s, by rfl, by rfl⟩

theorem hostMove_hostPutEnc (s : State) : HostMove s (hostPutEnc s) := by
  have hsame := hostPutEnc_sameTokens s
  cases hp : s.host.encProg with
  | nil => rw [hostPutEnc_of_blocked (.inl hp)]; exact .refl s
  | cons x rest =>
    cases hr : hasRoom s.cfg.capEncIn s.encIn.length with
    | false => rw [hostPutEnc_of_blocked (.inr hr)]; exact .refl s
    | true =>
      rw [hostPutEnc_of_room hp hr] at hsame ⊢
      exact ⟨hsame, ⟨[x], rfl⟩, by rfl⟩

theorem hostMove_hostPutDec (s : State) : HostMove s (hostPutDec s) := by
  have hsame := hostPutDec_sameTokens s
  cases hp : s.host.decProg with
  | nil => rw [hostPutDec_of_blocked (.inl hp)]; exact .refl s
  | cons x rest =>
    cases hr : hasRoom s.cfg.capDecIn s.decIn.length with
    | false => rw [hostPutDec_of_blocked (.inr hr)]; exact .refl s
    | true =>
      rw [hostPutDec_of_room hp hr] at hsame ⊢
      exact ⟨hsame, by rfl, ⟨[x], rfl⟩⟩

theorem hostMove_hostTakeEnc (s : State) : HostMove s (hostTakeEnc s) := by
  have hsame := hostTakeEnc_sameTokens s
  cases h : s.encOut with
  | nil => rw [hostTakeEnc_of_nil h]; exact .refl s
  | cons x rest => rw [hostTakeEnc_of_cons h] at hsame ⊢; exact ⟨hsame, by rfl, by rfl⟩

theorem hostMove_hostTakeDec (s : State) : HostMove s (hostTakeDec s) := by
  have hsame := hostTakeDec_sameTokens s
  cases h : s.decOut with
  | nil => rw [hostTakeDec_of_nil h]; exact .refl s
  | cons x rest => rw [hostTakeDec_of_cons h] at hsame ⊢; exact ⟨hsame, by rfl, by rfl⟩

/-- One move within a run: a turn taken off the schedule, a step of a unit, a move of the host, or an accepted reset. -/
inductive RunMove : State → State → Prop
  | turn {s : State} {x : Turn} {ts : List Turn} (h : s.turns = x :: ts) : RunMove s (s.setTurns ts)
  | enc {s t : State} (h : encTick s = .moved t) : RunMove s t
  | dec {s t : State} (h : decTick s = .moved t) : RunMove s t
  | host {s t : State} (h : HostMove s t) : RunMove s t
  | reset {s : State} (h : quiet s = true) : RunMove s (resetUnits s)

/-- Any number of moves within a run. -/
abbrev RunMoves : State → State → Prop := Relation.ReflTransGen RunMove

theorem RunMoves.keep {P : State → Prop} (hP : ∀ {s t}, RunMove s t → P s → P t) {s t : State} (h : RunMoves s t)
    (hs : P s) : P t := by
  induction h with
  | refl => exact hs
  | tail _ hmove ih => exact hP hmove ih

theorem runMoves_of_encTicks {k : Nat} {s t : State} (h : encTicks k s = some t) : RunMoves s t := by
  induction k generalizing s with
  | zero => cases h; exact .refl
  | succ k ih =>
    obtain ⟨u, hu, hk⟩ := encTicks_succ_eq_some h
    exact .head (.enc hu) (ih hk)

theorem runMoves_of_decTicks {k : Nat} {s t : State} (h : decTicks k s = some t) : RunMoves s t := by
  induction k generalizing s with
  | zero => cases h; exact .refl
  | succ k ih =>
    obtain ⟨u, hu, hk⟩ := decTicks_succ_eq_some h
    exact .head (.dec hu) (ih hk)

/-- A unit's turn is its step, or no move. -/
theorem runMoves_of_tickOutcome {x : Tick} {s t : State} (h : tickOutcome x s = .next t)
    (hmove : x = .moved t → RunMove s t) : RunMoves s t := by
  obtain hx | rfl := tickOutcome_eq_next h
  · exact .single (hmove hx)
  · exact .refl

theorem runMoves_of_unitsAlone {s t : State} (h : unitsAlone s = .next t) : RunMoves s t := by
  unfold unitsAlone at h
  split at h
  · rename_i hu; cases h; exact .single (.enc hu)
  · cases h
  · exact runMoves_of_tickOutcome h .dec
  · split at h
    · rename_i hu; cases h; exact .single (.dec hu)
    · cases h

theorem runMoves_of_turnStep {x : Turn} {s t : State} (hx : sameRun x = true) (h : turnStep x s = .next t) :
    RunMoves s t := by
  cases x with
  | enc => exact runMoves_of_tickOutcome h .enc
  | dec => exact runMoves_of_tickOutcome h .dec
  | encRun =>
    obtain ⟨k, hk⟩ := encTicks_of_encRun ((encRunTurn_eq_encRun s).symm.trans h)
    exact runMoves_of_encTicks hk
  | decRun =>
    obtain ⟨k, hk⟩ := decTicks_of_decRun ((decRunTurn_eq_decRun s).symm.trans h)
    exact runMoves_of_decTicks hk
  | putEnc => cases h; exact .single (.host (hostMove_hostPutEnc s))
  | putDec => cases h; exact .single (.host (hostMove_hostPutDec s))
  | takeEnc => cases h; exact .single (.host (hostMove_hostTakeEnc s))
  | takeDec => cases h; exact .single (.host (hostMove_hostTakeDec s))
  | reset =>
    simp only [turnStep, resetPin] at h
    split_ifs at h with hq
    cases h; exact .single (.reset hq)
  | restart ep dp => cases hx

/-- R60, R231: a step, with no end of the run scheduled, is some moves within the run. -/
theorem runMoves_of_step {s t : State} (hrun : ∀ x ∈ s.turns, sameRun x = true) (h : step s = .next t) :
    RunMoves s t := by
  cases hts : s.turns with
  | nil => exact runMoves_of_unitsAlone (by simpa only [step, hts] using h)
  | cons x ts =>
    rw [step_of_turns_cons hts] at h
    exact .head (.turn hts) (runMoves_of_turnStep (hrun x (hts ▸ List.mem_cons_self)) h)

theorem RunMove.sameRun {s t : State} (h : RunMove s t) (hs : ∀ x ∈ s.turns, sameRun x = true) :
    ∀ x ∈ t.turns, sameRun x = true := by
  cases h with
  | turn h => exact fun y hy => hs y (h ▸ List.mem_cons_of_mem _ hy)
  | enc h => rw [encTick_frame h]; exact hs
  | dec h => rw [decTick_frame h]; exact hs
  | host h => rw [h.same.1]; exact hs
  | reset h => exact hs

theorem step_of_run_succ {k : Nat} {s t : State} (h : core.run (k + 1) s = .next t) :
    ∃ u, step s = .next u ∧ core.run k u = .next t := by
  have hcore : core.step s = step s := rfl
  simp only [Host.Core.run, hcore] at h
  split at h
  · exact ⟨_, ‹_›, h⟩
  · cases h
  · cases h

theorem runMoves_of_run {k : Nat} {s t : State} (hrun : ∀ x ∈ s.turns, sameRun x = true)
    (h : core.run k s = .next t) : RunMoves s t := by
  induction k generalizing s with
  | zero => cases h; exact .refl
  | succ k ih =>
    obtain ⟨u, hu, hk⟩ := step_of_run_succ h
    have hmoves := runMoves_of_step hrun hu
    exact hmoves.trans (ih (hmoves.keep RunMove.sameRun hrun) hk)

/-! ## The two turns that reset the units -/

/-- Settles O2: the pin is refused unless the state is quiet, and then resets the two units. -/
theorem resetPinSetsSequencersOrIsRefused : Obligations.ResetPinSetsSequencersOrIsRefused := by
  intro s ts hts
  have hstep : step s = if quiet s then .next (resetUnits (s.setTurns ts)) else .refused .midRunReset :=
    step_of_turns_cons hts
  refine ⟨fun hq => ⟨encAfterReset s.free, decAfterReset (s.free + 11), ?_, rfl, rfl, rfl⟩, fun hq => ?_⟩
  · rw [hstep, if_pos hq]; rfl
  · rw [hstep, hq]; rfl

/-- Settles O3: each field of the launch state is set by the turn. -/
theorem restartLaunchesTheNextRun : Obligations.RestartLaunchesTheNextRun :=
  fun _ _ _ _ hts => ⟨_, step_of_turns_cons hts, ⟨rfl, rfl, rfl, rfl, rfl, rfl, rfl, rfl⟩, rfl, rfl, rfl, rfl⟩

end Sys2Proof.Machine
end

section
/-! PROOFS. StuckUnits.lean: a coil that ENC refuses (R94, R95, R239), a token that leaves a unit stuck, and that no
move within the run lifts this (R235, R236). -/

namespace Sys2Proof.Machine

/-! ## Tokens outside the input set, and of the wrong kind -/

/-- R95: a value of 2 to 65535 carries no coil. -/
theorem coilOfArg_of_two_le {v : U16} (h : 2 ≤ v.toNat) : coilOfArg v = none := by
  rw [← Option.isNone_iff_eq_none, coilOfArg_isNone, decide_eq_true h]

/-- Settles O29: at the accept, in `FETCH` and in `DRAIN`. -/
theorem nonBooleanCoilsAreRefused : Obligations.NonBooleanCoilsAreRefused := by
  refine fun s => ⟨fun a g rest hph hin hg => encTick_of_commandRefused hph hin (commandRefused_of_two_le hg),
    fun v rest hph hfc hrem hin hv => ?_⟩
  obtain hph | hph := hph
  · simp only [encTick, hph, encFetch, hin, if_neg hrem, if_pos hfc, coilOfArg_of_two_le hv]
  · have hrefused : valueRefused s.enc.fc v = true := by
      rw [valueRefused, decide_eq_true hfc, coilOfArg_of_two_le hv]; rfl
    simp only [encTick, hph, encDrain, hin, if_neg hrem, if_pos hrefused]

/-- Settles O30: in each phase that takes a token, the token that it never takes. -/
theorem protocolBreaksLeaveTheUnitStuck : Obligations.ProtocolBreaksLeaveTheUnitStuck := by
  refine fun s => ⟨fun v rest hph hin => ?_, fun fc a g rest hph hin => ?_, fun rest hph hcnt hin => ?_⟩
  · simp only [encTick, hph, encIdle, hin]
  · obtain hph | hph := hph
    · simp only [encTick, hph, encFetch, hin]
    · simp only [encTick, hph, encDrain, hin]
  · simp only [decTick, hph, decRecv, hin, if_neg hcnt]

/-! ## With nothing on its input an idle unit is not stuck -/

theorem quiet_iff {s : State} : quiet s = true ↔ s.enc.ph = .idle ∧ decIdle s.dec = true ∧ s.encIn = [] ∧
    s.encOut = [] ∧ s.decIn = [] ∧ s.decOut = [] := by
  simp [quiet, decIdle, and_assoc]

theorem encTick_eq_waiting_of_idle {s : State} (hph : s.enc.ph = .idle) (hin : s.encIn = []) : encTick s = .waiting :=
  encTick_eq_waiting_iff.mpr (.inl ⟨.inl hph, hin⟩)

theorem decTick_eq_waiting_of_idle {s : State} (hidle : decIdle s.dec = true) (hin : s.decIn = []) :
    decTick s = .waiting :=
  decTick_eq_waiting_iff.mpr (.inl ⟨(decIdle_iff.mp hidle).1, hin⟩)

/-! ## A stuck unit stays stuck -/

theorem cons_of_isPrefix {α : Type} {x : α} {l l' ts : List α} (h : l <+: l') (hl : l = x :: ts) :
    ∃ ts', l' = x :: ts' := by
  obtain ⟨r, rfl⟩ := h
  exact ⟨ts ++ r, by rw [hl]; rfl⟩

/-- What leaves ENC stuck is in its registers and at the head of `ENC_IN`. -/
theorem encTick_stuck_of_isPrefix {s u : State} {f : Fault} (h : encTick s = .stuck f) (henc : u.enc = s.enc)
    (hin : s.encIn <+: u.encIn) : encTick u = .stuck f := by
  cases hph : s.enc.ph <;> simp only [encTick, henc, hph] at h ⊢
  case idle =>
    unfold encIdle at h
    split at h
    · cases h
    · rename_i hv
      obtain ⟨ts', hu⟩ := cons_of_isPrefix hin hv
      simpa only [encIdle, hu] using h
    · split_ifs at h
  case hdr =>
    unfold encHdr at h ⊢
    rw [henc]
    split at h
    · exact h
    · exact absurd h (encPutStep_ne_stuck _ _ _ _)
  case fetch =>
    unfold encFetch at h
    split at h
    · cases h
    · rename_i hc
      obtain ⟨ts', hu⟩ := cons_of_isPrefix hin hc
      simpa only [encFetch, hu] using h
    · rename_i hv
      obtain ⟨ts', hu⟩ := cons_of_isPrefix hin hv
      simp only [encFetch, hu, henc]
      split_ifs at h ⊢
      · exact h
      · split at h <;> cases h
      · exact h
  case drain =>
    unfold encDrain at h
    split at h
    · cases h
    · rename_i hc
      obtain ⟨ts', hu⟩ := cons_of_isPrefix hin hc
      simpa only [encDrain, hu] using h
    · rename_i hv
      obtain ⟨ts', hu⟩ := cons_of_isPrefix hin hv
      simp only [encDrain, hu, henc]
      split_ifs at h ⊢
      exact h
  all_goals exact absurd h (encPutStep_ne_stuck _ _ _ _)

theorem decPutStep_ne_stuck (x : DecOut) (d : Dec) (s : State) (f : Fault) : decPutStep x d s ≠ .stuck f := by
  unfold decPutStep
  split_ifs <;> exact Tick.noConfusion

/-- What leaves DEC stuck is in its registers and at the head of `DEC_IN`. -/
theorem decTick_stuck_of_isPrefix {s u : State} {f : Fault} (h : decTick s = .stuck f) (hdec : u.dec = s.dec)
    (hin : s.decIn <+: u.decIn) : decTick u = .stuck f := by
  cases hph : s.dec.ph <;> simp only [decTick, hdec, hph] at h ⊢
  case recv =>
    unfold decRecv at h
    split at h
    · cases h
    · cases h
    · rename_i he
      obtain ⟨ts', hu⟩ := cons_of_isPrefix hin he
      simp only [decRecv, hu, hdec]
      split_ifs at h ⊢
      exact h
  case result => exact absurd h (decPutStep_ne_stuck _ _ _ _)

/-- ENC is stuck for the reason `f` with registers `e`. -/
def EncStuck (f : Fault) (e : Enc) (s : State) : Prop := encTick s = .stuck f ∧ s.enc = e

/-- DEC is stuck for the reason `f` with registers `d`. -/
def DecStuck (f : Fault) (d : Dec) (s : State) : Prop := decTick s = .stuck f ∧ s.dec = d

theorem RunMove.encStuck {f : Fault} {e : Enc} {s t : State} (h : RunMove s t) (hs : EncStuck f e s) :
    EncStuck f e t := by
  obtain ⟨hstuck, rfl⟩ := hs
  have keep : t.enc = s.enc → s.encIn <+: t.encIn → EncStuck f s.enc t := fun henc hin =>
    ⟨encTick_stuck_of_isPrefix hstuck henc hin, henc⟩
  cases h with
  | turn h => exact keep rfl (by rfl)
  | enc h => rw [hstuck] at h; cases h
  | dec h => exact keep (by rw [decTick_frame h]; rfl) (by rw [decTick_frame h]; rfl)
  | host h => exact keep (by rw [h.same.1]) h.encIn
  | reset hq =>
    obtain ⟨hph, -, hin, -⟩ := quiet_iff.mp hq
    rw [encTick_eq_waiting_of_idle hph hin] at hstuck
    cases hstuck

theorem RunMove.decStuck {f : Fault} {d : Dec} {s t : State} (h : RunMove s t) (hs : DecStuck f d s) :
    DecStuck f d t := by
  obtain ⟨hstuck, rfl⟩ := hs
  have keep : t.dec = s.dec → s.decIn <+: t.decIn → DecStuck f s.dec t := fun hdec hin =>
    ⟨decTick_stuck_of_isPrefix hstuck hdec hin, hdec⟩
  cases h with
  | turn h => exact keep rfl (by rfl)
  | enc h => exact keep (by rw [encTick_frame h]; rfl) (by rw [encTick_frame h]; rfl)
  | dec h => rw [hstuck] at h; cases h
  | host h => exact keep (by rw [h.same.1]) h.decIn
  | reset hq =>
    obtain ⟨-, hidle, -, -, hin, -⟩ := quiet_iff.mp hq
    rw [decTick_eq_waiting_of_idle hidle hin] at hstuck
    cases hstuck

/-- Settles O31: no move within the run lifts a stuck unit; a reset is refused while its token stands in the channel. -/
theorem onlyRestartLiftsAStuckEnc : Obligations.OnlyRestartLiftsAStuckEnc := by
  intro s t f hrun h
  have hmoves := runMoves_of_step hrun h
  exact ⟨fun hs => hmoves.keep (P := EncStuck f s.enc) RunMove.encStuck ⟨hs, rfl⟩,
    fun hs => hmoves.keep (P := DecStuck f s.dec) RunMove.decStuck ⟨hs, rfl⟩⟩

end Sys2Proof.Machine
end

section
/-! PROOFS. WholeRuns.lean: a run that ends well is its transactions in order (R243, R244). At every point of the run
each unit has a course: the steps it would take alone, with all the tokens of the run that it has not taken at hand and
unbounded room. No move within the run changes what the course ends in putting, and at the end of the run it is done. -/

namespace Sys2Proof.Machine

/-! ## Stepping until the unit waits -/

/-- Stepping by `tick` leads from `s` to `u`, where the unit waits. -/
def StepsTo (tick : State → Tick) (s u : State) : Prop :=
  Relation.ReflTransGen (fun s t => tick s = .moved t) s u ∧ tick u = .waiting

section
variable {tick : State → Tick} {s t u : State}

theorem StepsTo.head (ht : tick s = .moved t) (hu : StepsTo tick t u) : StepsTo tick s u :=
  ⟨.head ht hu.1, hu.2⟩

/-- The unit is deterministic. -/
theorem StepsTo.tail (hu : StepsTo tick s u) (ht : tick s = .moved t) : StepsTo tick t u := by
  obtain ⟨hsteps, hwait⟩ := hu
  obtain rfl | ⟨v, hv, hsteps⟩ := Relation.ReflTransGen.cases_head hsteps
  · rw [hwait] at ht; cases ht
  · rw [ht] at hv
    cases hv
    exact ⟨hsteps, hwait⟩

theorem StepsTo.eq_of_waiting (hu : StepsTo tick s u) (hs : tick s = .waiting) : s = u := by
  obtain rfl | ⟨v, hv, -⟩ := Relation.ReflTransGen.cases_head hu.1
  · rfl
  · rw [hs] at hv; cases hv

/-- Stale registers do not tell in the end. -/
theorem StepsTo.of_live (htick : ReadsLiveOnly (fun s => mapMoved live (tick s))) (hu : StepsTo tick s u)
    (hst : live s = live t) : ∃ v, StepsTo tick t v ∧ live u = live v := by
  obtain ⟨hsteps, hwait⟩ := hu
  induction hsteps using Relation.ReflTransGen.head_induction_on generalizing t with
  | refl =>
    obtain ⟨_, _, hmoved, -⟩ | ⟨heq, -⟩ := mapMoved_live_cases (htick hst)
    · rw [hwait] at hmoved; cases hmoved
    · exact ⟨t, ⟨.refl, heq.symm.trans hwait⟩, hst⟩
  | head hstep _ ih =>
    obtain ⟨_, w, hmoved, htw, hlive⟩ | ⟨-, hne⟩ := mapMoved_live_cases (htick hst)
    · rw [hstep] at hmoved
      cases hmoved
      obtain ⟨v, hv, huv⟩ := ih hlive
      exact ⟨v, .head htw hv, huv⟩
    · exact absurd hstep (hne _)

end

theorem stepsTo_of_encTicks {k : Nat} {s u : State} (h : encTicks k s = some u) (hu : encTick u = .waiting) :
    StepsTo encTick s u := by
  induction k generalizing s with
  | zero => cases h; exact ⟨.refl, hu⟩
  | succ k ih =>
    obtain ⟨t, ht, hk⟩ := encTicks_succ_eq_some h
    exact .head ht (ih hk)

theorem StepsTo.of_decTicks {k : Nat} {s t u : State} (h : decTicks k s = some t) (hu : StepsTo decTick t u) :
    StepsTo decTick s u := by
  induction k generalizing s with
  | zero => cases h; exact hu
  | succ k ih =>
    obtain ⟨v, hv, hk⟩ := decTicks_succ_eq_some h
    exact .head hv (ih hk)

/-! ## A unit's step with more tokens at hand, more put before, and unbounded room -/

theorem encTick_of_ample {s t u : State} (h : encTick s = .moved t)
    (hlegacy : u.cfg.legacyByteCount = s.cfg.legacyByteCount) (hcap : u.cfg.capEncOut = none)
    (later : List EncIn) (before : List EncOut) :
    encTick (encAt u s.enc (s.encIn ++ later) (before ++ s.encOut)) =
      .moved (encAt u t.enc (t.encIn ++ later) (before ++ t.encOut)) := by
  have hroom : ∀ n, hasRoom u.cfg.capEncOut n = true := fun n => by rw [hcap]; rfl
  obtain ⟨fc, a, g, ts, hph, hin, hc, rfl⟩ | ⟨v, ts, hph, hrem, hfc, hin, rfl⟩ | ⟨v, ts, hph, hrem, hfc, hin, rfl⟩ |
    ⟨v, ts, hph, hrem, hv, hin, rfl⟩ | ⟨-, ⟨byte, hph, hb, rfl⟩ | ⟨hph, rfl⟩ | ⟨hph, rfl⟩ | ⟨hph, rfl⟩ | ⟨hph, rfl⟩ |
    ⟨hph, rfl⟩⟩ := encTick_moved_cases h <;>
    simp only [encAt_enc, encAt_encIn, encAt_encOut, ← List.append_assoc]
  · rw [hin, ← hlegacy]; exact encTick_accept hph hc
  · rw [hin]; exact encTick_fetchCoil hph hfc hrem
  · rw [hin]; exact encTick_fetchRegister hph hfc hrem
  · rw [hin]; exact encTick_drain hph hrem hv
  · exact encTick_hdr hph hb (hroom _)
  · exact encTick_flush hph (hroom _)
  · exact encTick_pad hph (hroom _)
  · exact encTick_hi hph (hroom _)
  · exact encTick_lo hph (hroom _)
  · exact encTick_fault hph (hroom _)

theorem decTick_of_ample {s t u : State} (h : decTick s = .moved t) (hcap : u.cfg.capDecOut = none)
    (later : List DecIn) (before : List DecOut) :
    decTick (decAt u s.dec (s.decIn ++ later) (before ++ s.decOut)) =
      .moved (decAt u t.dec (t.decIn ++ later) (before ++ t.decOut)) := by
  obtain ⟨byte, last, ts, hph, hin, rfl⟩ | ⟨ts, hph, hcnt, hin, rfl⟩ | ⟨hph, -, rfl⟩ := decTick_moved_cases h
  · rw [hin]; exact decTick_byte hph rfl
  · rw [hin]; exact decTick_empty hph hcnt rfl
  · have hroom : ∀ n, hasRoom u.cfg.capDecOut n = true := fun n => by rw [hcap]; rfl
    rw [← List.append_assoc]
    exact decTick_result hph (hroom _)

/-! ## The courses of the two units -/

/-- The block between runs, its outputs unbounded. -/
def unboundedBlock (cfg : Config) : State :=
  { State.reset with cfg := { cfg with capEncOut := none, capDecOut := none } }

/-- ENC's part of `s`, with every token it has still to take on `ENC_IN` and every token it has put on `ENC_OUT`. -/
def encCourse (s : State) : State :=
  encAt (unboundedBlock s.cfg) s.enc (s.encIn ++ s.host.encProg) (encObserved s)

/-- DEC's part of `s`, likewise. -/
def decCourse (s : State) : State :=
  decAt (unboundedBlock s.cfg) s.dec (s.decIn ++ s.host.decProg) (decObserved s)

/-- ENC's course ends with `out` put in the whole run. -/
def EncWillHavePut (out : List EncOut) (s : State) : Prop := ∃ u, StepsTo encTick (encCourse s) u ∧ u.encOut = out

/-- DEC's course ends with `out` put in the whole run. -/
def DecWillHavePut (out : List DecOut) (s : State) : Prop := ∃ u, StepsTo decTick (decCourse s) u ∧ u.decOut = out

theorem encTick_encCourse {s t : State} (h : encTick s = .moved t) : encTick (encCourse s) = .moved (encCourse t) := by
  have hcourse : encCourse t =
      encAt (unboundedBlock s.cfg) t.enc (t.encIn ++ s.host.encProg) (s.host.encGot ++ t.encOut) := by
    rw [encTick_frame h]; rfl
  rw [hcourse]
  exact encTick_of_ample (u := unboundedBlock s.cfg) h rfl rfl s.host.encProg s.host.encGot

theorem decTick_decCourse {s t : State} (h : decTick s = .moved t) : decTick (decCourse s) = .moved (decCourse t) := by
  have hcourse : decCourse t =
      decAt (unboundedBlock s.cfg) t.dec (t.decIn ++ s.host.decProg) (s.host.decGot ++ t.decOut) := by
    rw [decTick_frame h]; rfl
  rw [hcourse]
  exact decTick_of_ample (u := unboundedBlock s.cfg) h rfl s.host.decProg s.host.decGot

theorem SameTokens.courses {s t : State} (h : SameTokens s t) :
    encCourse t = encCourse s ∧ decCourse t = decCourse s := by
  obtain ⟨ht, hencIn, hdecIn, hencOut, hdecOut⟩ := h
  have henc : t.enc = s.enc := by rw [ht]
  have hdec : t.dec = s.dec := by rw [ht]
  have hcfg : t.cfg = s.cfg := by rw [ht]
  exact ⟨by rw [encCourse, hcfg, henc, hencIn, hencOut]; rfl, by rw [decCourse, hcfg, hdec, hdecIn, hdecOut]; rfl⟩

/-- R31: of an idle ENC no register is live. -/
theorem liveEnc_of_idle {e : Enc} (h : e.ph = .idle) : liveEnc e = Enc.reset := by
  simp only [liveEnc, h]

/-- R31: of an idle DEC only `PH` and `CNT` are live. -/
theorem liveDec_of_idle {d : Dec} (h : decIdle d = true) : liveDec d = Dec.reset := by
  obtain ⟨hph, hcnt⟩ := decIdle_iff.mp h
  rw [liveDec_of_recv hph]
  simp [hph, hcnt, Dec.reset]

theorem live_encCourse_resetUnits {s : State} (hq : quiet s = true) :
    live (encCourse s) = live (encCourse (resetUnits s)) := by
  show (encCourse s).setEnc (liveEnc s.enc) = (encCourse s).setEnc (liveEnc (encAfterReset s.free))
  rw [liveEnc_of_idle (enc_idle_of_quiet hq), liveEnc_of_idle rfl]

theorem live_decCourse_resetUnits {s : State} (hq : quiet s = true) :
    live (decCourse s) = live (decCourse (resetUnits s)) := by
  show (decCourse s).setDec (liveDec s.dec) = (decCourse s).setDec (liveDec (decAfterReset (s.free + 11)))
  obtain ⟨-, hidle, -⟩ := quiet_iff.mp hq
  rw [liveDec_of_idle hidle, liveDec_of_idle rfl]

theorem encOut_readsLiveOnly : ReadsLiveOnly State.encOut := .of_live live_encOut

theorem decOut_readsLiveOnly : ReadsLiveOnly State.decOut := .of_live live_decOut

theorem RunMove.encWillHavePut {out : List EncOut} {s t : State} (h : RunMove s t) (hs : EncWillHavePut out s) :
    EncWillHavePut out t := by
  obtain ⟨u, hu, hout⟩ := hs
  cases h with
  | turn _ => exact ⟨u, hu, hout⟩
  | enc h => exact ⟨u, hu.tail (encTick_encCourse h), hout⟩
  | dec h =>
    rw [decTick_frame h]
    exact ⟨u, hu, hout⟩
  | host h =>
    rw [EncWillHavePut, h.same.courses.1]
    exact ⟨u, hu, hout⟩
  | reset hq =>
    obtain ⟨v, hv, huv⟩ := hu.of_live encTick_readsLiveOnly (live_encCourse_resetUnits hq)
    exact ⟨v, hv, (encOut_readsLiveOnly huv).symm.trans hout⟩

theorem RunMove.decWillHavePut {out : List DecOut} {s t : State} (h : RunMove s t) (hs : DecWillHavePut out s) :
    DecWillHavePut out t := by
  obtain ⟨u, hu, hout⟩ := hs
  cases h with
  | turn _ => exact ⟨u, hu, hout⟩
  | enc h =>
    rw [encTick_frame h]
    exact ⟨u, hu, hout⟩
  | dec h => exact ⟨u, hu.tail (decTick_decCourse h), hout⟩
  | host h =>
    rw [DecWillHavePut, h.same.courses.2]
    exact ⟨u, hu, hout⟩
  | reset hq =>
    obtain ⟨v, hv, huv⟩ := hu.of_live decTick_readsLiveOnly (live_decCourse_resetUnits hq)
    exact ⟨v, hv, (decOut_readsLiveOnly huv).symm.trans hout⟩

/-! ## The course at the launch -/

/-- Capacities are no part of a command's outcome. -/
theorem Command.outcome_congr {c c' : Config} (h : c.legacyByteCount = c'.legacyByteCount) :
    Command.outcome c = Command.outcome c' := by
  funext cmd
  cases cmd with
  | illegal fc a g => rfl
  | request r => cases r <;> simp only [Command.outcome, encodeRequest, h]

/-- R126: at the launch ENC has the commands before it. -/
theorem encWillHavePut_of_launch {s : State} {cmds : List Command} (hs : Launch s) (hcmds : ∀ c ∈ cmds, c.wf = true)
    (hprog : s.host.encProg = cmds.flatMap Command.tokens) :
    EncWillHavePut (cmds.flatMap (Command.outcome s.cfg)) s := by
  obtain ⟨hph, -, hencIn, hencOut, -, -, hencGot, -⟩ := hs
  have hin : (encCourse s).encIn = cmds.flatMap Command.tokens ++ [] := by
    rw [List.append_nil, ← hprog, encCourse, encAt_encIn, hencIn]; rfl
  have hout : (encCourse s).encOut = [] := by
    rw [encCourse, encAt_encOut, encObserved, hencGot, hencOut]; rfl
  obtain ⟨e, he, hticks⟩ := encTicks_commands (s := encCourse s) hcmds hph hin trivial
  refine ⟨_, stepsTo_of_encTicks hticks (encTick_eq_waiting_of_idle he rfl), ?_⟩
  rw [hout, Command.outcome_congr (c := s.cfg) (c' := (encCourse s).cfg) rfl]
  rfl

/-- R59, R187: frames in a row, each of which puts its result. -/
theorem stepsTo_of_frames {s : State} {frames : List (List Byte)} (hidle : decIdle s.dec = true)
    (hin : s.decIn = frames.flatMap frameTokens) (hcap : s.cfg.capDecOut = none) :
    ∃ u, StepsTo decTick s u ∧ u.decOut = s.decOut ++ frames.map (fun bs => (decodeResponse bs).token) := by
  induction frames generalizing s with
  | nil => exact ⟨s, ⟨.refl, decTick_eq_waiting_of_idle hidle hin⟩, by simp⟩
  | cons bs frames ih =>
    have hfirst := decFinishes_frame (rest := frames.flatMap frameTokens) hidle hin (by rw [hcap]; trivial)
    obtain ⟨u, hu, hout⟩ := ih (s := { s with
      dec := { receiveBytes bs s.dec with ph := .recv, cnt := 0 }
      decIn := frames.flatMap frameTokens
      decOut := s.decOut ++ [(decodeResponse bs).token] }) rfl rfl hcap
    exact ⟨u, hu.of_decTicks hfirst.ticks, by rw [hout]; simp⟩

/-- R187: at the launch DEC has the frames before it. -/
theorem decWillHavePut_of_launch {s : State} {frames : List (List Byte)} (hs : Launch s)
    (hprog : s.host.decProg = frames.flatMap frameTokens) :
    DecWillHavePut (frames.map (fun bs => (decodeResponse bs).token)) s := by
  obtain ⟨-, hidle, -, -, hdecIn, hdecOut, -, hdecGot⟩ := hs
  have hin : (decCourse s).decIn = frames.flatMap frameTokens := by
    show s.decIn ++ s.host.decProg = _
    rw [hdecIn, hprog]; rfl
  have hout : (decCourse s).decOut = [] := by
    show s.host.decGot ++ s.decOut = []
    rw [hdecGot, hdecOut]; rfl
  obtain ⟨u, hu, hdone⟩ := stepsTo_of_frames (s := decCourse s) hidle hin rfl
  exact ⟨u, hu, by rw [hdone, hout]; rfl⟩

/-! ## The course at the end -/

/-- R243: with no token left ENC's course is done. -/
theorem EncWillHavePut.observed {out : List EncOut} {t : State} (h : EncWillHavePut out t) (ht : EndedWell t) :
    encObserved t = out := by
  obtain ⟨hprog, -, hin, -, hph, -⟩ := ht
  have hempty : (encCourse t).encIn = [] := by
    show t.encIn ++ t.host.encProg = []
    rw [hin, hprog]; rfl
  obtain ⟨u, hu, hout⟩ := h
  rw [← hout, ← hu.eq_of_waiting (encTick_eq_waiting_of_idle hph hempty)]
  rfl

/-- R243: with no token left DEC's course is done. -/
theorem DecWillHavePut.observed {out : List DecOut} {t : State} (h : DecWillHavePut out t) (ht : EndedWell t) :
    decObserved t = out := by
  obtain ⟨-, hprog, -, hin, -, hidle⟩ := ht
  have hempty : (decCourse t).decIn = [] := by
    show t.decIn ++ t.host.decProg = []
    rw [hin, hprog]; rfl
  obtain ⟨u, hu, hout⟩ := h
  rw [← hout, ← hu.eq_of_waiting (decTick_eq_waiting_of_idle hidle hempty)]
  rfl

/-- Settles O55: what each unit's course ends in putting is settled at the launch, kept by every move, and observed at
the end. -/
theorem aRunThatEndsWellIsItsTransactionsInOrder : Obligations.ARunThatEndsWellIsItsTransactionsInOrder := by
  intro s t k cmds frames hs hcmds henc hdec hrun hmoves ht
  have hmoves := runMoves_of_run hrun hmoves
  exact ⟨(hmoves.keep RunMove.encWillHavePut (encWillHavePut_of_launch hs hcmds henc)).observed ht,
    (hmoves.keep RunMove.decWillHavePut (decWillHavePut_of_launch hs hdec)).observed ht⟩

end Sys2Proof.Machine
end
